-- ==== Sys2Proof/Word.lean ====
section
/-! DEFINITION. The word types of the block: register words (00_scope.md R10), channel samples and payload bytes, and single bits. -/

namespace Sys2Proof

/-- A host-visible register word, `x[31:0]` (00_scope.md R9 `REG_BITS`, R10). -/
abbrev Word := BitVec 32

/-- A channel sample or a payload byte, `b[7:0]` (00_scope.md R8 `SAMPLE_BITS`, R10). -/
abbrev Byte := BitVec 8

/-- One bit of a bit sequence, of bit memory or of BITIO (10_state.md R31, R39). -/
abbrev Bit := Bool

end Sys2Proof
end

