-- ==== Sys2Proof/Config.lean ====
section
/-! DEFINITION. What an implementation fixes (the OPEN parameters of 00_scope.md R9 and 93_implementation_defined.md U14 to U17), the constants of 00_scope.md R8, and the free values of the host's unspecified reads. -/

namespace Sys2Proof

/-- `HDR_BITS`: the width of the length header, in bits and in stream elements (00_scope.md R8). -/
abbrev hdrBitCount : Nat := 32

/-- The byte-lane order of the host's bus, `HOST_BUS_ORDER` (20_memory.md R54, OPEN). -/
inductive BusOrder where
  | little
  | big
  deriving DecidableEq, Repr

/-- `RESET_KIND`: whether reset is synchronous, its polarity and its minimum width (70_reset_and_hazards.md R230, OPEN). -/
structure ResetKind where
  synchronous : Bool
  activeHigh  : Bool
  minWidth    : Nat
  deriving DecidableEq, Repr

/-- The platform parameters. No rule's effect depends on them (93_implementation_defined.md U15 to U17),
so no step reads them; every statement holds for all their values. [DESIGN CHOICE, log 2, safe] -/
structure Platform where
  regBase   : Nat
  chBase    : Nat
  pmBase    : Nat
  bmBase    : Nat
  busOrder  : BusOrder
  resetKind : ResetKind
  deriving DecidableEq, Repr

/-- The OPEN parameters a model takes as an argument (00_scope.md R9). State carries them and no step changes them.
[DESIGN CHOICE, log 1] -/
structure Params where
  chmemSize : Nat
  pmemSize  : Nat
  platform  : Platform
  deriving DecidableEq, Repr

/-- `BITMEM_BITS = 8 * PMEM_SIZE` (00_scope.md R9). -/
def Params.bitmemBits (p : Params) : Nat := 8 * p.pmemSize

/-- The parameters State.reset carries: the memory sizes are the test parameters of 95_test_vectors.md.
[DESIGN CHOICE, logs 1 and 2, unsafe where a claim uses the numbers] -/
def Params.vectors : Params :=
  { chmemSize := 4096
    pmemSize := 508
    platform := { regBase := 0, chBase := 0, pmBase := 0, bmBase := 0, busOrder := .little
                  resetKind := { synchronous := true, activeHigh := true, minWidth := 1 } } }

/-- The free draw a host read of a register returns while a command is in flight (70_reset_and_hazards.md R236):
no body, so nothing can be proved of its value. [log 7, safe] -/
opaque Config.freeWord : Nat → Word

/-- The free draw a host read of a `CH` or `PM` cell returns where the spec fixes no value
(60_exceptions.md R206; 70_reset_and_hazards.md R236). [log 7, safe] -/
opaque Config.freeByte : Nat → Byte

/-- The free draw a host read of a `BM` cell returns where the spec fixes no value
(60_exceptions.md R206; 70_reset_and_hazards.md R236). [log 7, safe] -/
opaque Config.freeBit : Nat → Bit

end Sys2Proof
end

