-- ==== Sys2Proof/HostSyntax.lean ====
section
/-! DEFINITION. The host's side as plain data: register names, memory spaces, host operations (30_encoding.md R77), what the outside world does next, and what a host read returned. -/

namespace Sys2Proof

/-- The fifteen host-visible registers of 10_state.md R23. -/
inductive Reg where
  | cmd | status | width | height | plen | nbits | idx | bitio | hdrval | maxb
  | pixcnt | availLo | availHi | rlen | valid
  deriving DecidableEq, Repr

/-- The three memories (10_state.md R39; 20_memory.md R50). -/
inductive Space where
  | ch | pm | bm
  deriving DecidableEq, Repr

/-- The number of cells of a memory (10_state.md R39). -/
def Params.cells (p : Params) : Space → Nat
  | .ch => p.chmemSize
  | .pm => p.pmemSize
  | .bm => p.bitmemBits

/-- One host operation (30_encoding.md R77). A register access carries its offset in the 256-byte window (10_state.md R22)
and its width in bits, so that the accesses 20_memory.md R57 refuses can be written down; a memory access moves one cell
(20_memory.md R55). `cmd` and `cmdw` of R77 are `wr` to offset 0x00. -/
inductive HostOp where
  | wr (off : BitVec 8) (bits : Nat) (v : Word)
  | rd (off : BitVec 8) (bits : Nat)
  | wbCh (i : Nat) (v : Byte)
  | rbCh (i : Nat)
  | wbPm (k : Nat) (v : Byte)
  | rbPm (k : Nat)
  | wbit (j : Nat) (t : Bit)
  | rbit (j : Nat)
  | wait
  deriving DecidableEq, Repr

/-- What moves next, seen from outside the block: a host operation, the block's own turn (a place where a command in
flight completes although the host goes on issuing operations), or the reset input (70_reset_and_hazards.md R230).
[DESIGN CHOICE, log 3, safe] -/
inductive Move where
  | host (op : HostOp)
  | block
  | reset
  deriving DecidableEq, Repr

/-- The data a host read returned, at its width (20_memory.md R55). [DESIGN CHOICE, log 6, safe] -/
inductive HostRead where
  | word (v : Word)
  | byte (v : Byte)
  | bit (t : Bit)
  deriving DecidableEq, Repr

end Sys2Proof
end

