-- ==== Sys2Proof/Syntax.lean ====
section
/-! DEFINITION. The command set version 1: one constructor per row of spec/opcode_table.json (30_encoding.md R73). -/

namespace Sys2Proof

/-- The ten commands of 30_encoding.md R73, in the table's order. A command word carries no operand (R71, R74),
so no constructor has a field. -/
inductive Instr where
  | capacity   -- 40_bit_packer.md R100
  | pack       -- 40_bit_packer.md R104
  | unpack     -- 40_bit_packer.md R107
  | validate   -- 40_bit_packer.md R110
  | lsbWrite   -- 41_channel_reader_writer.md R131
  | lsbRead    -- 41_channel_reader_writer.md R134
  | hdrEncode  -- 42_length_header.md R152
  | hdrDecode  -- 42_length_header.md R155
  | embed      -- 43_embed_extract.md R170
  | extract    -- 43_embed_extract.md R174
  deriving DecidableEq, Repr

end Sys2Proof
end

