-- ==== Sys2Proof/WellFormed.lean ====
section
/-! DEFINITION. Well-formedness: of a command, of a command word, of the parameters, and of a host operation. -/

namespace Sys2Proof

/-- Every command is well formed: a command has no immediate, no register-number field and no addressing mode
(30_encoding.md R74), so there is nothing to check. -/
def Instr.wf : Instr → Bool
  | .capacity | .pack | .unpack | .validate | .lsbWrite | .lsbRead | .hdrEncode | .hdrDecode | .embed | .extract => true

/-- A legal command word: `RSVD[31:4]` zero and `OPC[3:0]` in 0x1 to 0xA (30_encoding.md R72, R73, R75). -/
def legalWord (w : Word) : Bool :=
  w.extractLsb' 4 28 == 0#28 && decide (1 ≤ (w.extractLsb' 0 4).toNat) && decide ((w.extractLsb' 0 4).toNat ≤ 10)

/-- The constraints of 00_scope.md R9 on the memory sizes. -/
def Params.ok (p : Params) : Bool :=
  decide (32 ≤ p.chmemSize) && decide (p.chmemSize ≤ 2 ^ 32) &&
  decide ((p.chmemSize - 32) / 8 ≤ p.pmemSize) && decide (p.pmemSize ≤ 2 ^ 29 - 1)

/-- A register access the block answers: 32 bits at an offset that is a multiple of 4 (20_memory.md R57). -/
def registerAccessWf (off : BitVec 8) (bits : Nat) : Bool :=
  decide (bits = 32) && decide (off.toNat % 4 = 0)

/-- A cell index inside its memory (20_memory.md R56). -/
def indexWf (p : Params) (sp : Space) (i : Nat) : Bool := decide (i < p.cells sp)

/-- A host operation whose form the block answers (60_exceptions.md R207). -/
def HostOp.wf (p : Params) : HostOp → Bool
  | .wr off bits _ => registerAccessWf off bits
  | .rd off bits => registerAccessWf off bits
  | .wbCh i _ => indexWf p .ch i
  | .rbCh i => indexWf p .ch i
  | .wbPm k _ => indexWf p .pm k
  | .rbPm k => indexWf p .pm k
  | .wbit j _ => indexWf p .bm j
  | .rbit j => indexWf p .bm j
  | .wait => true

end Sys2Proof
end

