-- ==== Sys2Proof/Decode.lean ====
section
/-! DEFINITION. The decoder of CMD32 (30_encoding.md R70 to R75), total on every 32-bit word, and the encoder. -/

namespace Sys2Proof

/-- Why a word spells no command (30_encoding.md R75). -/
inductive Illegal where
  | reservedBits    -- `RSVD[31:4]` is not zero
  | reservedOpcode  -- `OPC` is 0x0 or in 0xB to 0xF
  deriving DecidableEq, Repr

/-- `OPC[3:0]` of a command word (30_encoding.md R72). -/
def opcField (w : Word) : BitVec 4 := w.extractLsb' 0 4

/-- `RSVD[31:4]` of a command word (30_encoding.md R72). -/
def rsvdField (w : Word) : BitVec 28 := w.extractLsb' 4 28

/-- The opcode map (30_encoding.md R73, and the case of R75's decode function). -/
def decodeOpcode : Nat → Except Illegal Instr
  | 0x1 => .ok .capacity
  | 0x2 => .ok .pack
  | 0x3 => .ok .unpack
  | 0x4 => .ok .validate
  | 0x5 => .ok .lsbWrite
  | 0x6 => .ok .lsbRead
  | 0x7 => .ok .hdrEncode
  | 0x8 => .ok .hdrDecode
  | 0x9 => .ok .embed
  | 0xA => .ok .extract
  | _ => .error .reservedOpcode

/-- `decode(w)` of 30_encoding.md R75. -/
def decode (w : Word) : Except Illegal Instr :=
  if rsvdField w ≠ 0#28 then .error .reservedBits else decodeOpcode (opcField w).toNat

/-- The opcode of a command (30_encoding.md R73, column OPC). -/
def opcode : Instr → BitVec 4
  | .capacity  => 0x1#4
  | .pack      => 0x2#4
  | .unpack    => 0x3#4
  | .validate  => 0x4#4
  | .lsbWrite  => 0x5#4
  | .lsbRead   => 0x6#4
  | .hdrEncode => 0x7#4
  | .hdrDecode => 0x8#4
  | .embed     => 0x9#4
  | .extract   => 0xA#4

/-- The command word of a command: `RSVD` zero, then `OPC` (30_encoding.md R72, R73). -/
def encode (i : Instr) : Word := 0#28 ++ opcode i

/-- The decoder on an opcode-table row's bits: one 32-bit word, whose bit 0 is the table's bit 0 (30_encoding.md R70). -/
def decodeTableWord (nbits w : Nat) : Option Instr :=
  if nbits ≤ 32 then
    match decode (BitVec.ofNat 32 (w % 2 ^ nbits)) with
    | .ok i => some i
    | .error _ => none
  else none

end Sys2Proof
end

