-- ==== Sys2Proof/Machine/State.lean ====
section
/-! DEFINITION. The machine's state as plain data, its faults and refusals, and the state after reset (10_state.md R42). -/

namespace Sys2Proof.Machine

/-- The status codes of 60_exceptions.md R203. Codes 6 to 15 are never produced, so six names are all of them
(their numbers are `Code.num` in Flags.lean). [DEDUCED, log 15, safe] -/
inductive Code where
  | ok
  | capacityExceeded
  | noMessage
  | badGeometry
  | outOfRange
  | illegalCommand
  deriving DecidableEq, Repr

/-- The model faults. -/
inductive Fault where
  /-- A command read cell `i` of memory `sp`, which nobody has written since reset (60_exceptions.md R206).
  Raised by PACK, UNPACK, LSB_WRITE, LSB_READ, HDR_ENCODE, HDR_DECODE, EMBED and EXTRACT. Safe: the spec's own fault. -/
  | uninitRead (sp : Space) (i : Nat)
  /-- A command reached for cell `i` outside memory `sp`. 20_memory.md R56 says no command does, and none does while the
  parameters satisfy 00_scope.md R9; raised only where they do not. Safe (log 9). -/
  | outsideMemory (sp : Space) (i : Nat)
  deriving DecidableEq, Repr

/-- The refusals: steps the model does not give (60_exceptions.md R207), and the instructions without a meaning. -/
inductive Refusal where
  /-- The command has no meaning yet. No arm of exec answers this. Safe. -/
  | notModelled (mnemonic : String)
  /-- The host wrote a register or a memory cell while STATUS.BUSY = 1 (60_exceptions.md R207;
  70_reset_and_hazards.md R236). Raised by the host's write operations. Safe: the spec's own refusal. -/
  | writeWhileBusy
  /-- A register access that is not 32 bits at a multiple of 4 (20_memory.md R57). Raised by the host's register
  operations. Safe: the spec's own refusal. -/
  | registerAccessForm
  /-- The host accessed a cell outside the memory's size (20_memory.md R56). Raised by the host's memory operations.
  Safe: the spec's own refusal. -/
  | indexOutsideMemory (sp : Space) (i : Nat)
  deriving DecidableEq, Repr

/-- A memory: the cells that hold a value, as (index, value) pairs with strictly rising indices. An index that is not
listed holds no value (10_state.md R39, R42). A `Memory Byte` is a list of `Host.Cell`. -/
abbrev Memory (α : Type) := List (Nat × α)

/-- Everything the spec gives the machine (INVENTORY.md, State), and the model's own fields `params`, `moves`, `seen`
and `draws`. -/
@[ext]
structure State where
  /-- The OPEN parameters (00_scope.md R9); no step changes them. -/
  params  : Params
  /-- `CUR`, the command in flight (10_state.md R40). -/
  cur     : Option Word
  /-- STATUS.BUSY (10_state.md R25). -/
  busy    : Bool
  /-- STATUS.DONE (10_state.md R25). -/
  done    : Bool
  /-- STATUS.CODE (10_state.md R25). -/
  code    : Code
  /-- WIDTH.W (10_state.md R26). -/
  width   : BitVec 16
  /-- HEIGHT.H (10_state.md R26). -/
  height  : BitVec 16
  /-- PLEN (10_state.md R28). -/
  plen    : Word
  /-- NBITS (10_state.md R29). -/
  nbits   : Word
  /-- IDX (10_state.md R30). -/
  idx     : Word
  /-- BITIO.BIT (10_state.md R31). -/
  bitio   : Bit
  /-- HDRVAL (10_state.md R32). -/
  hdrval  : Word
  /-- MAXB, two's complement (10_state.md R33). -/
  maxb    : Word
  /-- PIXCNT (10_state.md R34). -/
  pixcnt  : Word
  /-- AVAIL[31:0] (10_state.md R34). -/
  availLo : Word
  /-- AVAIL[63:32] (10_state.md R34). -/
  availHi : Word
  /-- RLEN (10_state.md R35). -/
  rlen    : Word
  /-- VALID.VALID (10_state.md R36). -/
  valid   : Bool
  /-- Channel memory `CH` (10_state.md R39). -/
  ch      : Memory Byte
  /-- Payload memory `PM` (10_state.md R39). -/
  pm      : Memory Byte
  /-- Bit memory `BM` (10_state.md R39). -/
  bm      : Memory Bit
  /-- What the world outside the block does next, first to last (log 3). -/
  moves   : List Move
  /-- What the host's reads returned, newest first (log 6). -/
  seen    : List HostRead
  /-- The index of the next free draw (log 7). -/
  draws   : Nat
  deriving DecidableEq, Repr

/-- The state right after reset (10_state.md R42; 70_reset_and_hazards.md R230). `params`, `moves`, `seen` and `draws`
are the model's own fields: their values here are DESIGN CHOICES (logs 1, 2, 3, 6, 7). -/
def State.reset : State :=
  { params := Params.vectors
    cur := none, busy := false, done := false, code := .ok
    width := 0#16, height := 0#16, plen := 0#32, nbits := 0#32, idx := 0#32, bitio := false
    hdrval := 0#32, maxb := 0#32, pixcnt := 0#32, availLo := 0#32, availHi := 0#32, rlen := 0#32, valid := false
    ch := [], pm := [], bm := []
    moves := [], seen := [], draws := 0 }

/-- What one step of the machine answers. -/
abbrev Result := Host.Outcome State Fault Refusal

end Sys2Proof.Machine
end

