-- ==== Sys2Proof/Machine/Operands.lean ====
section
/-! DEFINITION. What a command computes from its operand registers: the stream length, the geometry check, the capacity, the plausibility of a header. Arithmetic is on unbounded integers (00_scope.md R11). -/

namespace Sys2Proof.Machine

/-- `pixel_count = w * h`, exact (40_bit_packer.md R100). -/
def State.pixelCount (s : State) : Nat := s.width.toNat * s.height.toNat

/-- `L = 3 * zext_16(WIDTH.W) * zext_16(HEIGHT.H)`, exact (10_state.md R27). -/
def State.streamLen (s : State) : Nat := 3 * s.width.toNat * s.height.toNat

/-- The index of the sample of row `y`, column `x`, channel `c` in a stream of width `w` (20_memory.md R51). The host
loads and reads back the samples by it (43_embed_extract.md R178). -/
def streamIndex (w y x c : Nat) : Nat := (y * w + x) * 3 + c

/-- `geometry_ok = (L <= CHMEM_SIZE)` (10_state.md R27). -/
def State.geometryOk (s : State) : Bool := decide (s.streamLen ≤ s.params.chmemSize)

/-- `available_bits = pixel_count * 3 - 32`, exact and signed (40_bit_packer.md R100, R101). -/
def availableBits (pixels : Nat) : Int := (pixels : Int) * 3 - 32

/-- `max_bytes = available_bits div 8`: `/` of Lean's `Int` by a positive number is floor division
(00_scope.md R11; 40_bit_packer.md R101; the spec's G1, log 13). -/
def maxBytes (available : Int) : Int := available / 8

/-- `plausible(n, L) = (n != 0) and (n <= L - 32)`, compared as integers (42_length_header.md R154). -/
def plausible (n L : Nat) : Bool := decide (n ≠ 0) && decide ((n : Int) ≤ (L : Int) - 32)

end Sys2Proof.Machine
end

