-- ==== Sys2Proof/Machine/Bits.lean ====
section
/-! DEFINITION. Bit sequences: most-significant bit first expansion and its inverse, the element rule, and the header format. -/

namespace Sys2Proof.Machine

/-- `lsb(b) = b[0]` (00_scope.md R13). -/
def lsb (b : Byte) : Bit := b.getLsbD 0

/-- `setlsb(b, bit) = (b & 0xFE) | bit` (00_scope.md R13). -/
def setlsb (b : Byte) (t : Bit) : Byte := (b &&& 0xFE#8) ||| (BitVec.ofBool t).setWidth 8

/-- The low `w` bits of `v`, bit `w - 1` first. -/
def msbBits : Nat → Nat → List Bit
  | 0, _ => []
  | w + 1, v => v.testBit w :: msbBits w v

/-- The integer whose binary digits are the sequence, most significant first: the sum of `B[i] << (m - 1 - i)`. -/
def msbValue : List Bit → Nat
  | [] => 0
  | t :: ts => t.toNat * 2 ^ ts.length + msbValue ts

/-- `bytes_to_bits(P)[8*k + j] = P[k][7 - j]` (40_bit_packer.md R103). -/
def bytesToBits : List Byte → List Bit
  | [] => []
  | b :: bs => msbBits 8 b.toNat ++ bytesToBits bs

/-- `bits_to_bytes`: each whole group of 8 bits, first bit most significant; a trailing incomplete group is dropped
(40_bit_packer.md R106). -/
def bitsToBytes : List Bit → List Byte
  | t7 :: t6 :: t5 :: t4 :: t3 :: t2 :: t1 :: t0 :: rest =>
    BitVec.ofNat 8 (msbValue [t7, t6, t5, t4, t3, t2, t1, t0]) :: bitsToBytes rest
  | _ => []

/-- `hdr_bits(n)[i] = n[31 - i]` (42_length_header.md R150; the bit order is the spec's G2, log 13). -/
def hdrBits (n : Nat) : List Bit := msbBits hdrBitCount n

/-- `hdr_value(B)` = the sum of `B[i] << (31 - i)` (42_length_header.md R150; log 13). -/
def hdrValue (B : List Bit) : Nat := msbValue B

end Sys2Proof.Machine
end

