-- ==== Sys2Proof/Machine/Ops.lean ====
section
/-! DEFINITION. The named operations: cells of a memory, runs of cells, the stream primitives, register updates, command start and completion, reset. -/

namespace Sys2Proof.Machine

/-- The value of cell `i`, or none where nobody has written it (10_state.md R39). -/
def Memory.cell {α : Type} : Memory α → Nat → Option α
  | [], _ => none
  | (j, x) :: m, i => if i = j then some x else Memory.cell m i

/-- Cell `i` set to `v`, in canonical form: the one home of every memory write (00_scope.md R12 `MemWrite`). -/
def Memory.put {α : Type} : Memory α → Nat → α → Memory α
  | [], i, v => [(i, v)]
  | (j, x) :: m, i, v =>
    if i < j then (i, v) :: (j, x) :: m else if i = j then (i, v) :: m else (j, x) :: Memory.put m i v

/-- Every listed index is at least `lo`, and the indices rise strictly. -/
def Memory.risingFrom {α : Type} (lo : Nat) : Memory α → Bool
  | [] => true
  | (i, _) :: m => decide (lo ≤ i) && Memory.risingFrom (i + 1) m

/-- The canonical form: strictly rising indices. Every listed cell holds a value, so none reads as an unlisted one does. -/
def Memory.wf {α : Type} (m : Memory α) : Bool := Memory.risingFrom 0 m

/-- Every listed index is below `size`. -/
def Memory.below {α : Type} (m : Memory α) (size : Nat) : Bool := m.all fun c => decide (c.1 < size)

/-- `MemRead(space, i, 1)` of a command (00_scope.md R12): a cell that holds no value is the fault `UninitRead`
(60_exceptions.md R206); a cell outside the memory is never reached (20_memory.md R56). -/
def readCell {α : Type} (sp : Space) (size : Nat) (m : Memory α) (i : Nat) : Except Fault α :=
  if i < size then
    match m.cell i with
    | some x => .ok x
    | none => .error (.uninitRead sp i)
  else .error (.outsideMemory sp i)

/-- `MemWrite(space, i, 1, v)` of a command (00_scope.md R12). -/
def writeCell {α : Type} (sp : Space) (size : Nat) (m : Memory α) (i : Nat) (v : α) : Except Fault (Memory α) :=
  if i < size then .ok (m.put i v) else .error (.outsideMemory sp i)

/-- The cells `[a, a + n)`, read one at a time in rising order (20_memory.md R55, R65). -/
def readRun {α : Type} (sp : Space) (size : Nat) (m : Memory α) (a : Nat) : Nat → Except Fault (List α)
  | 0 => .ok []
  | n + 1 =>
    match readCell sp size m a with
    | .error f => .error f
    | .ok x =>
      match readRun sp size m (a + 1) n with
      | .error f => .error f
      | .ok xs => .ok (x :: xs)

/-- The sequence written into the cells from `a` on, one at a time in rising order (20_memory.md R55, R65). -/
def writeRun {α : Type} (sp : Space) (size : Nat) (m : Memory α) (a : Nat) : List α → Except Fault (Memory α)
  | [] => .ok m
  | x :: xs =>
    match writeCell sp size m a x with
    | .error f => .error f
    | .ok m' => writeRun sp size m' (a + 1) xs

/-- `write_lsbs(a, B)` (41_channel_reader_writer.md R133): bit `B[t]` into the LSB of element `a + t`. -/
def writeLsbs (size : Nat) (m : Memory Byte) (a : Nat) : List Bit → Except Fault (Memory Byte)
  | [] => .ok m
  | t :: ts =>
    match readCell .ch size m a with
    | .error f => .error f
    | .ok b =>
      match writeCell .ch size m a (setlsb b t) with
      | .error f => .error f
      | .ok m' => writeLsbs size m' (a + 1) ts

/-- `read_lsbs(a, n)` (41_channel_reader_writer.md R135): the LSBs of the elements `[a, a + n)`. -/
def readLsbs (size : Nat) (m : Memory Byte) (a n : Nat) : Except Fault (List Bit) :=
  match readRun .ch size m a n with
  | .error f => .error f
  | .ok bs => .ok (bs.map lsb)

/-- A command goes on with the value, or the step ends in the fault (60_exceptions.md R202, R206). -/
def attempt {α : Type} (r : Except Fault α) (k : α → Result) : Result :=
  match r with
  | .error f => .fault f
  | .ok x => k x

/-- WIDTH.W written (10_state.md R26). -/
def State.withWidth (s : State) (v : BitVec 16) : State := { s with width := v }
/-- HEIGHT.H written (10_state.md R26). -/
def State.withHeight (s : State) (v : BitVec 16) : State := { s with height := v }
/-- PLEN written (10_state.md R28). -/
def State.withPlen (s : State) (v : Word) : State := { s with plen := v }
/-- NBITS written (10_state.md R29). -/
def State.withNbits (s : State) (v : Word) : State := { s with nbits := v }
/-- IDX written (10_state.md R30). -/
def State.withIdx (s : State) (v : Word) : State := { s with idx := v }
/-- BITIO.BIT written (10_state.md R31). -/
def State.withBitio (s : State) (t : Bit) : State := { s with bitio := t }
/-- HDRVAL written (10_state.md R32). -/
def State.withHdrval (s : State) (v : Word) : State := { s with hdrval := v }
/-- MAXB written (10_state.md R33). -/
def State.withMaxb (s : State) (v : Word) : State := { s with maxb := v }
/-- PIXCNT written (10_state.md R34). -/
def State.withPixcnt (s : State) (v : Word) : State := { s with pixcnt := v }
/-- AVAIL written: `AVAIL[31:0]` to AVAIL_LO, `AVAIL[63:32]` to AVAIL_HI (10_state.md R34). -/
def State.withAvail (s : State) (v : BitVec 64) : State :=
  { s with availLo := v.extractLsb' 0 32, availHi := v.extractLsb' 32 32 }
/-- RLEN written (10_state.md R35). -/
def State.withRlen (s : State) (v : Word) : State := { s with rlen := v }
/-- VALID.VALID written (10_state.md R36). -/
def State.withValid (s : State) (t : Bool) : State := { s with valid := t }
/-- Channel memory replaced. -/
def State.withCh (s : State) (m : Memory Byte) : State := { s with ch := m }
/-- Payload memory replaced. -/
def State.withPm (s : State) (m : Memory Byte) : State := { s with pm := m }
/-- Bit memory replaced. -/
def State.withBm (s : State) (m : Memory Bit) : State := { s with bm := m }
/-- The rest of the outside world's moves. -/
def State.withMoves (s : State) (ms : List Move) : State := { s with moves := ms }
/-- A host read returned `v` (log 6). -/
def State.saw (s : State) (v : HostRead) : State := { s with seen := v :: s.seen }
/-- The next free draw was taken (log 7). -/
def State.drew (s : State) : State := { s with draws := s.draws + 1 }

/-- AVAIL as the host reads it: AVAIL_HI then AVAIL_LO (10_state.md R34). -/
def State.avail (s : State) : BitVec 64 := (s.availHi ++ s.availLo : BitVec (32 + 32))

/-- Command start: `CUR <- w`, BUSY 1, DONE 0, CODE 0 (60_exceptions.md R200). -/
def State.started (s : State) (w : Word) : State := { s with cur := some w, busy := true, done := false, code := .ok }

/-- Command completion: `CODE <- c`, BUSY 0, DONE 1, CUR holds no value (60_exceptions.md R201). -/
def State.finished (s : State) (c : Code) : State := { s with cur := none, busy := false, done := true, code := c }

/-- `finish(CODE)`, the last action of a command (60_exceptions.md R201). This is the whole of the block's error
reporting: it has no trap, saves nothing and transfers control nowhere (60_exceptions.md R211, R212). -/
def finish (c : Code) (s : State) : Result := .next (s.finished c)

/-- Reset: every register and memory cell at its reset value, a command in flight abandoned (10_state.md R42;
70_reset_and_hazards.md R230, R232). The parameters and the host's own side are not the block's state (log 16). -/
def State.afterReset (s : State) : State :=
  { State.reset with params := s.params, moves := s.moves, seen := s.seen, draws := s.draws }

end Sys2Proof.Machine
end

