-- ==== Sys2Proof/Machine/BitPacker.lean ====
section
/-! DEFINITION. The LSB_bit_packer commands: CAPACITY, PACK, UNPACK, VALIDATE (40_bit_packer.md). -/

namespace Sys2Proof.Machine

/-- CAPACITY (40_bit_packer.md R100): exact integers into PIXCNT, AVAIL and MAXB; always OK. -/
def execCapacity (s : State) : Result :=
  finish .ok
    (((s.withPixcnt (BitVec.ofNat 32 s.pixelCount)).withAvail (BitVec.ofInt 64 (availableBits s.pixelCount))).withMaxb
      (BitVec.ofInt 32 (maxBytes (availableBits s.pixelCount))))

/-- PACK (40_bit_packer.md R104). -/
def execPack (s : State) : Result :=
  if s.plen.toNat > s.params.pmemSize then finish .outOfRange s
  else
    attempt (readRun .pm s.params.pmemSize s.pm 0 s.plen.toNat) fun bytes =>
    attempt (writeRun .bm s.params.bitmemBits s.bm 0 (bytesToBits bytes)) fun bm =>
    finish .ok ((s.withBm bm).withRlen (BitVec.ofNat 32 (8 * s.plen.toNat)))

/-- UNPACK (40_bit_packer.md R107): only `BM[0, 8 * (NBITS div 8))` is read; the tail takes no part. -/
def execUnpack (s : State) : Result :=
  if s.nbits.toNat > s.params.bitmemBits then finish .outOfRange s
  else
    attempt (readRun .bm s.params.bitmemBits s.bm 0 (8 * (s.nbits.toNat / 8))) fun bits =>
    attempt (writeRun .pm s.params.pmemSize s.pm 0 (bitsToBytes bits)) fun pm =>
    finish .ok ((s.withPm pm).withRlen (BitVec.ofNat 32 (s.nbits.toNat / 8)))

/-- VALIDATE (40_bit_packer.md R110): a comparison of integers, PLEN unsigned and MAXB two's complement; always OK. -/
def execValidate (s : State) : Result :=
  finish .ok (s.withValid (decide ((s.plen.toNat : Int) ≤ s.maxb.toInt)))

end Sys2Proof.Machine
end

