-- ==== Sys2Proof/Machine/ChannelReaderWriter.lean ====
section
/-! DEFINITION. The LSB_channel_reader_writer commands: LSB_WRITE, LSB_READ (41_channel_reader_writer.md). -/

namespace Sys2Proof.Machine

/-- LSB_WRITE (41_channel_reader_writer.md R131). -/
def execLsbWrite (s : State) : Result :=
  if !s.geometryOk then finish .badGeometry s
  else if s.idx.toNat ≥ s.streamLen then finish .outOfRange s
  else
    attempt (readCell .ch s.params.chmemSize s.ch s.idx.toNat) fun b =>
    attempt (writeCell .ch s.params.chmemSize s.ch s.idx.toNat (setlsb b s.bitio)) fun ch =>
    finish .ok (s.withCh ch)

/-- LSB_READ (41_channel_reader_writer.md R134). -/
def execLsbRead (s : State) : Result :=
  if !s.geometryOk then finish .badGeometry s
  else if s.idx.toNat ≥ s.streamLen then finish .outOfRange s
  else
    attempt (readCell .ch s.params.chmemSize s.ch s.idx.toNat) fun b =>
    finish .ok (s.withBitio (lsb b))

end Sys2Proof.Machine
end

