-- ==== Sys2Proof/Machine/Codec.lean ====
section
/-! DEFINITION. The composed commands EMBED and EXTRACT (43_embed_extract.md). -/

namespace Sys2Proof.Machine

/-- EMBED (43_embed_extract.md R170): the capacity check compares integers, before any cell is read or written. -/
def execEmbed (s : State) : Result :=
  if !s.geometryOk then finish .badGeometry s
  else if ((8 * s.plen.toNat : Nat) : Int) > (s.streamLen : Int) - hdrBitCount then finish .capacityExceeded s
  else
    attempt (readRun .pm s.params.pmemSize s.pm 0 s.plen.toNat) fun payload =>
    attempt (writeLsbs s.params.chmemSize s.ch 0 (hdrBits (8 * s.plen.toNat))) fun ch =>
    attempt (writeLsbs s.params.chmemSize ch hdrBitCount (bytesToBits payload)) fun ch' =>
    finish .ok (s.withCh ch')

/-- EXTRACT (43_embed_extract.md R174): all `n` payload elements are read, the dropped tail included. -/
def execExtract (s : State) : Result :=
  if !s.geometryOk then finish .badGeometry s
  else if s.streamLen < hdrBitCount then finish .noMessage ((s.withHdrval 0#32).withRlen 0#32)
  else
    attempt (readLsbs s.params.chmemSize s.ch 0 hdrBitCount) fun header =>
    if !plausible (hdrValue header) s.streamLen then
      finish .noMessage ((s.withHdrval (BitVec.ofNat 32 (hdrValue header))).withRlen 0#32)
    else
      attempt (readLsbs s.params.chmemSize s.ch hdrBitCount (hdrValue header)) fun bits =>
      attempt (writeRun .pm s.params.pmemSize s.pm 0 (bitsToBytes bits)) fun pm =>
      finish .ok (((s.withHdrval (BitVec.ofNat 32 (hdrValue header))).withPm pm).withRlen
        (BitVec.ofNat 32 (hdrValue header / 8)))

end Sys2Proof.Machine
end

