-- ==== Sys2Proof/Machine/LengthHeader.lean ====
section
/-! DEFINITION. The length_header_encoder and length_header_decoder commands: HDR_ENCODE, HDR_DECODE (42_length_header.md). -/

namespace Sys2Proof.Machine

/-- HDR_ENCODE (42_length_header.md R152). -/
def execHdrEncode (s : State) : Result :=
  if !s.geometryOk then finish .badGeometry s
  else if s.streamLen < hdrBitCount then finish .outOfRange s
  else
    attempt (writeLsbs s.params.chmemSize s.ch 0 (hdrBits s.hdrval.toNat)) fun ch =>
    finish .ok (s.withCh ch)

/-- HDR_DECODE (42_length_header.md R155): HDRVAL is written whether the header is plausible or not. -/
def execHdrDecode (s : State) : Result :=
  if !s.geometryOk then finish .badGeometry s
  else if s.streamLen < hdrBitCount then finish .noMessage (s.withHdrval 0#32)
  else
    attempt (readLsbs s.params.chmemSize s.ch 0 hdrBitCount) fun header =>
    finish (if plausible (hdrValue header) s.streamLen then .ok else .noMessage)
      (s.withHdrval (BitVec.ofNat 32 (hdrValue header)))

end Sys2Proof.Machine
end

