-- ==== Sys2Proof/Machine/Flags.lean ====
section
/-! DEFINITION. The STATUS word: the numbers of the status codes and the places of the fields. -/

namespace Sys2Proof.Machine

/-- The number of a status code, `STATUS.CODE[7:4]` (60_exceptions.md R203). -/
def Code.num : Code → BitVec 4
  | .ok => 0#4
  | .capacityExceeded => 1#4
  | .noMessage => 2#4
  | .badGeometry => 3#4
  | .outOfRange => 4#4
  | .illegalCommand => 5#4

/-- STATUS as the host reads it: `BUSY[0]`, `DONE[1]`, `[3:2]` zero, `CODE[7:4]`, `[31:8]` zero (10_state.md R25). -/
def State.statusWord (s : State) : Word :=
  (0#24 ++ s.code.num ++ 0#2 ++ BitVec.ofBool s.done ++ BitVec.ofBool s.busy : BitVec (24 + 4 + 2 + 1 + 1))

end Sys2Proof.Machine
end

