-- ==== Sys2Proof/Machine/HostPort.lean ====
section
/-! DEFINITION. The host's port: the register map (10_state.md R23), host reads and writes while the block is idle and while a command is in flight (70_reset_and_hazards.md R236), and the host's refusals (60_exceptions.md R207). -/

namespace Sys2Proof.Machine

/-- The offset of a register in the window (10_state.md R23). -/
def regOffset : Reg → BitVec 8
  | .cmd => 0x00#8
  | .status => 0x04#8
  | .width => 0x08#8
  | .height => 0x0C#8
  | .plen => 0x10#8
  | .nbits => 0x14#8
  | .idx => 0x18#8
  | .bitio => 0x1C#8
  | .hdrval => 0x20#8
  | .maxb => 0x24#8
  | .pixcnt => 0x28#8
  | .availLo => 0x2C#8
  | .availHi => 0x30#8
  | .rlen => 0x34#8
  | .valid => 0x38#8

/-- The registers in the order of their offsets (10_state.md R23). -/
def regList : List Reg :=
  [.cmd, .status, .width, .height, .plen, .nbits, .idx, .bitio, .hdrval, .maxb, .pixcnt, .availLo, .availHi, .rlen, .valid]

/-- The register at an offset, or none where the offset is reserved (10_state.md R22, R37). -/
def regAt (off : BitVec 8) : Option Reg := regList.find? fun r => regOffset r == off

/-- What a register reads as while `BUSY = 0` (10_state.md R23 to R36): a narrow field is zero-extended, CMD reads 0. -/
def State.regWord (s : State) : Reg → Word
  | .cmd => 0#32
  | .status => s.statusWord
  | .width => s.width.setWidth 32
  | .height => s.height.setWidth 32
  | .plen => s.plen
  | .nbits => s.nbits
  | .idx => s.idx
  | .bitio => (BitVec.ofBool s.bitio).setWidth 32
  | .hdrval => s.hdrval
  | .maxb => s.maxb
  | .pixcnt => s.pixcnt
  | .availLo => s.availLo
  | .availHi => s.availHi
  | .rlen => s.rlen
  | .valid => (BitVec.ofBool s.valid).setWidth 32

/-- A 32-bit host write of `v` to a register while `BUSY = 0`: CMD starts the command (60_exceptions.md R200), a field
keeps its own bits of `v` (10_state.md R26, R31), a read-only register ignores the write (20_memory.md R58). -/
def State.writeReg (s : State) (v : Word) : Reg → State
  | .cmd => s.started v
  | .status => s
  | .width => s.withWidth (v.setWidth 16)
  | .height => s.withHeight (v.setWidth 16)
  | .plen => s.withPlen v
  | .nbits => s.withNbits v
  | .idx => s.withIdx v
  | .bitio => s.withBitio (v.getLsbD 0)
  | .hdrval => s.withHdrval v
  | .maxb => s.withMaxb v
  | .pixcnt => s
  | .availLo => s
  | .availHi => s
  | .rlen => s
  | .valid => s

/-- A 32-bit host write at an offset while `BUSY = 0`; a reserved offset ignores it (10_state.md R37). -/
def State.writeOffset (s : State) (off : BitVec 8) (v : Word) : State :=
  match regAt off with
  | some r => s.writeReg v r
  | none => s

/-- A host read of a register while a command is in flight (70_reset_and_hazards.md R236): STATUS reads as it is, CMD
reads 0, any other register is a free draw (log 7). -/
def State.readRegBusy (s : State) : Reg → State
  | .cmd => s.saw (.word 0#32)
  | .status => s.saw (.word s.statusWord)
  | .width | .height | .plen | .nbits | .idx | .bitio | .hdrval | .maxb | .pixcnt | .availLo | .availHi | .rlen | .valid =>
    (s.saw (.word (Config.freeWord s.draws))).drew

/-- A 32-bit host read at an offset; a reserved offset reads 0 (10_state.md R37; 70_reset_and_hazards.md R236). -/
def State.readOffset (s : State) (off : BitVec 8) : State :=
  match regAt off with
  | some r => if s.busy then s.readRegBusy r else s.saw (.word (s.regWord r))
  | none => s.saw (.word 0#32)

/-- A host read of one byte cell: its value, or a free draw where the cell holds none (60_exceptions.md R206) or a
command is in flight (70_reset_and_hazards.md R236). The cell is left as it is. -/
def State.readByte (s : State) (m : Memory Byte) (i : Nat) : State :=
  match s.busy, m.cell i with
  | false, some b => s.saw (.byte b)
  | _, _ => (s.saw (.byte (Config.freeByte s.draws))).drew

/-- A host read of one bit cell, as `State.readByte`. -/
def State.readBit (s : State) (m : Memory Bit) (j : Nat) : State :=
  match s.busy, m.cell j with
  | false, some t => s.saw (.bit t)
  | _, _ => (s.saw (.bit (Config.freeBit s.draws))).drew

/-- The host operations that write: while a command is in flight they are refused (60_exceptions.md R207). A write at a
reserved offset is among them (92_eei_decisions.md D14, log 10). -/
def HostOp.writes : HostOp → Bool
  | .wr _ _ _ | .wbCh _ _ | .wbPm _ _ | .wbit _ _ => true
  | .rd _ _ | .rbCh _ | .rbPm _ | .rbit _ | .wait => false

/-- What a host operation that is taken does (30_encoding.md R77; 10_state.md R23; 20_memory.md R50). `wait` has nothing
left to do once `BUSY = 0`. -/
def State.hostEffect (s : State) : HostOp → State
  | .wr off _ v => s.writeOffset off v
  | .rd off _ => s.readOffset off
  | .wbCh i v => s.withCh (s.ch.put i v)
  | .rbCh i => s.readByte s.ch i
  | .wbPm k v => s.withPm (s.pm.put k v)
  | .rbPm k => s.readByte s.pm k
  | .wbit j t => s.withBm (s.bm.put j t)
  | .rbit j => s.readBit s.bm j
  | .wait => s

/-- The name under which a host operation of a form the block does not answer is refused (20_memory.md R56, R57). -/
def HostOp.formRefusal : HostOp → Refusal
  | .wr _ _ _ | .rd _ _ | .wait => .registerAccessForm
  | .wbCh i _ | .rbCh i => .indexOutsideMemory .ch i
  | .wbPm k _ | .rbPm k => .indexOutsideMemory .pm k
  | .wbit j _ | .rbit j => .indexOutsideMemory .bm j

/-- One host operation: its form is checked first (20_memory.md R56, R57), then whether a write may be taken
(60_exceptions.md R207). -/
def hostOp (op : HostOp) (s : State) : Result :=
  if !op.wf s.params then .refused (HostOp.formRefusal op)
  else if HostOp.writes op && s.busy then .refused .writeWhileBusy
  else .next (s.hostEffect op)

end Sys2Proof.Machine
end

