-- ==== Sys2Proof/Machine/Lifecycle.lean ====
section
/-! DEFINITION. Who moves: the block's execution step (60_exceptions.md R202), the host's operation, the reset input. -/

namespace Sys2Proof.Machine

/-- The block's turn: the whole command in flight as one step; an illegal word finishes with ILLEGAL_COMMAND
(60_exceptions.md R202; 30_encoding.md R75). With no command in flight the block is idle (70_reset_and_hazards.md R231)
and the step changes nothing. [DESIGN CHOICE, log 4, safe] -/
def blockTurn (s : State) : Result :=
  match s.cur with
  | none => .next s
  | some w =>
    match decode w with
    | .ok i => exec i s
    | .error _ => finish .illegalCommand s

/-- The host's turn. While `BUSY = 1` a `wait` goes on polling, so the block moves (30_encoding.md R77;
60_exceptions.md R202, weak fairness); every other operation is taken at once. [DESIGN CHOICE, logs 3 and 12, safe] -/
def hostTurn (op : HostOp) (rest : List Move) (s : State) : Result :=
  if op = .wait ∧ s.busy = true then blockTurn s else hostOp op (s.withMoves rest)

/-- One step: the first of the outside world's moves, or the block's turn where none is left (log 3). -/
def advance (s : State) : Result :=
  match s.moves with
  | [] => blockTurn s
  | .block :: rest => blockTurn (s.withMoves rest)
  | .reset :: rest => .next (s.withMoves rest).afterReset
  | .host op :: rest => hostTurn op rest s

/-- A command word placed as the command in flight, as the CMD write of it would (60_exceptions.md R200), with the
block to move next (log 5). -/
def placeCommand (s : State) (w : Word) : State := (s.started w).withMoves []

end Sys2Proof.Machine
end

