-- ==== Sys2Proof/Machine/Script.lean ====
section
/-! DEFINITION. The host-script notation of 30_encoding.md R77 and its pseudo-operations R78, and the host's part of 43_embed_extract.md R178, as lists of host operations. -/

namespace Sys2Proof.Machine

/-- `wr NAME, v` (30_encoding.md R77). -/
def Script.wr (r : Reg) (v : Word) : List HostOp := [.wr (regOffset r) 32 v]
/-- `rd NAME` (30_encoding.md R77). -/
def Script.rd (r : Reg) : List HostOp := [.rd (regOffset r) 32]
/-- `cmdw v` (30_encoding.md R77). -/
def Script.cmdw (v : Word) : List HostOp := Script.wr .cmd v
/-- `cmd MNEMONIC` (30_encoding.md R77). -/
def Script.cmd (i : Instr) : List HostOp := Script.cmdw (encode i)
/-- `run MNEMONIC`: `cmd MNEMONIC` then `wait` (30_encoding.md R78). -/
def Script.run (i : Instr) : List HostOp := Script.cmd i ++ [.wait]
/-- `load CH[a], b0, ..., bm` (30_encoding.md R78). -/
def Script.loadCh : Nat → List Byte → List HostOp
  | _, [] => []
  | a, b :: bs => .wbCh a b :: Script.loadCh (a + 1) bs
/-- `load PM[a], b0, ..., bm` (30_encoding.md R78). -/
def Script.loadPm : Nat → List Byte → List HostOp
  | _, [] => []
  | a, b :: bs => .wbPm a b :: Script.loadPm (a + 1) bs
/-- `loadbits BM[a], t0 ... tm` (30_encoding.md R78). -/
def Script.loadBits : Nat → List Bit → List HostOp
  | _, [] => []
  | a, t :: ts => .wbit a t :: Script.loadBits (a + 1) ts
/-- `fill CH[a, a + n), f(i)` (30_encoding.md R78). -/
def Script.fillCh (f : Nat → Byte) (a n : Nat) : List HostOp := (List.range' a n).map fun i => .wbCh i (f i)
/-- `geometry W, H` (30_encoding.md R78). -/
def Script.geometry (w h : Word) : List HostOp := Script.wr .width w ++ Script.wr .height h
/-- The host's part of Embed on samples in stream order: load, run EMBED, read `CH[0, m)` back
(43_embed_extract.md R178). -/
def Script.embed (w h : Word) (samples payload : List Byte) : List HostOp :=
  Script.loadCh 0 samples ++ Script.geometry w h ++ Script.loadPm 0 payload ++
    Script.wr .plen (BitVec.ofNat 32 payload.length) ++ Script.run .embed ++ (List.range samples.length).map .rbCh
/-- The host's part of Extract on samples in stream order: load, run EXTRACT, read the results, `PM[0, m)` among them
(43_embed_extract.md R178). -/
def Script.extract (w h : Word) (samples : List Byte) (m : Nat) : List HostOp :=
  Script.loadCh 0 samples ++ Script.geometry w h ++ Script.run .extract ++ Script.rd .status ++ Script.rd .rlen ++
    (List.range m).map .rbPm
/-- The script as the host's moves, in program order (20_memory.md R60). -/
def Script.moves (ops : List HostOp) : List Move := ops.map .host

end Sys2Proof.Machine
end

