-- ==== Sys2Proof/Safety.lean ====
section
/-! DEFINITION. What counts as a sound state and as a command whose operands are in place, in the terms the statements use. -/

namespace Sys2Proof.Machine

/-- Every cell of `[a, a + n)` holds a value. -/
def Memory.holds {α : Type} (m : Memory α) (a : Nat) : Nat → Bool
  | 0 => true
  | n + 1 => (m.cell a).isSome && Memory.holds m (a + 1) n

/-- The LSBs of the elements `[a, a + n)`, for a run of cells that hold values (an empty cell counts as 0 here; the
statements ask that the cells hold values). -/
def Memory.lsbs (m : Memory Byte) (a : Nat) : Nat → List Bit
  | 0 => []
  | n + 1 => ((m.cell a).map lsb).getD false :: Memory.lsbs m (a + 1) n

/-- The header value in the LSBs of stream elements `[0, 32)` (42_length_header.md R150). -/
def State.header (s : State) : Nat := hdrValue (s.ch.lsbs 0 hdrBitCount)

/-- The three memories are in canonical form and list no cell outside their size (10_state.md R39). -/
abbrev State.MemoriesOk (s : State) : Prop :=
  (s.ch.wf = true ∧ s.ch.below s.params.chmemSize = true) ∧
  (s.pm.wf = true ∧ s.pm.below s.params.pmemSize = true) ∧
  (s.bm.wf = true ∧ s.bm.below s.params.bitmemBits = true)

/-- The lifecycle's shape (60_exceptions.md R200, R201; 10_state.md R25, R40): CUR holds a value exactly while BUSY = 1,
BUSY and DONE are never both 1, and CODE is 0 unless DONE = 1. -/
abbrev State.LifecycleOk (s : State) : Prop :=
  s.busy = s.cur.isSome ∧ (s.busy = true → s.done = false) ∧ (s.done = false → s.code = .ok)

/-- The ranges of the result registers (10_state.md R34, R35). -/
abbrev State.ResultsOk (s : State) : Prop :=
  s.pixcnt.toNat ≤ 65535 * 65535 ∧ -32 ≤ s.avail.toInt ∧ s.avail.toInt ≤ 12884508643 ∧
  s.rlen.toNat ≤ s.params.bitmemBits

/-- The invariant of the machine: legal parameters (00_scope.md R9), sound memories, lifecycle and results. -/
abbrev State.Inv (s : State) : Prop :=
  s.params.ok = true ∧ s.MemoriesOk ∧ s.LifecycleOk ∧ s.ResultsOk

/-- Every cell the command reads holds a value (30_encoding.md R74, column reads; 70_reset_and_hazards.md R233). A command
whose checks end it first reads no cell (60_exceptions.md R209). UNPACK's trailing cells are not read (40_bit_packer.md R107).
[DEDUCED, log 19, safe] -/
def operandsHold (i : Instr) (s : State) : Bool :=
  match i with
  | .capacity | .validate => true
  | .pack => decide (s.plen.toNat > s.params.pmemSize) || s.pm.holds 0 s.plen.toNat
  | .unpack => decide (s.nbits.toNat > s.params.bitmemBits) || s.bm.holds 0 (8 * (s.nbits.toNat / 8))
  | .lsbWrite | .lsbRead => !s.geometryOk || decide (s.idx.toNat ≥ s.streamLen) || s.ch.holds s.idx.toNat 1
  | .hdrEncode | .hdrDecode => !s.geometryOk || decide (s.streamLen < 32) || s.ch.holds 0 32
  | .embed =>
    !s.geometryOk || decide (8 * s.plen.toNat + 32 > s.streamLen) ||
      (s.pm.holds 0 s.plen.toNat && s.ch.holds 0 (32 + 8 * s.plen.toNat))
  | .extract =>
    !s.geometryOk || decide (s.streamLen < 32) ||
      (s.ch.holds 0 32 && (!plausible s.header s.streamLen || s.ch.holds 32 s.header))

/-- STATUS and CUR as a command that finishes with `c` leaves them, written out (60_exceptions.md R201). -/
def State.completed (s : State) (c : Code) : State :=
  { s with cur := none, busy := false, done := true, code := c }

/-- The checks a command makes before it reads a cell, first to last (the table of 60_exceptions.md R209): the code of
the first that ends the command, if one does. The plausibility of a header is not among them: it needs cells.
[DEDUCED, log 20, safe] -/
def checkCode (i : Instr) (s : State) : Option Code :=
  let L := 3 * s.width.toNat * s.height.toNat
  match i with
  | .capacity | .validate => none
  | .pack => if s.plen.toNat > s.params.pmemSize then some .outOfRange else none
  | .unpack => if s.nbits.toNat > 8 * s.params.pmemSize then some .outOfRange else none
  | .lsbWrite | .lsbRead =>
    if L > s.params.chmemSize then some .badGeometry
    else if s.idx.toNat ≥ L then some .outOfRange else none
  | .hdrEncode =>
    if L > s.params.chmemSize then some .badGeometry
    else if L < 32 then some .outOfRange else none
  | .hdrDecode | .extract =>
    if L > s.params.chmemSize then some .badGeometry
    else if L < 32 then some .noMessage else none
  | .embed =>
    if L > s.params.chmemSize then some .badGeometry
    else if (8 * s.plen.toNat : Int) > (L : Int) - 32 then some .capacityExceeded else none

/-- A host operation that breaks a host duty, so that the model gives it no step (60_exceptions.md R207). A write at
a reserved offset in flight is one (92_eei_decisions.md D14). [DEDUCED, log 10, safe] -/
def breaksHostDuty (s : State) : HostOp → Prop
  | .wr off bits _ => bits ≠ 32 ∨ off.toNat % 4 ≠ 0 ∨ s.busy = true
  | .rd off bits => bits ≠ 32 ∨ off.toNat % 4 ≠ 0
  | .wbCh i _ => s.params.chmemSize ≤ i ∨ s.busy = true
  | .rbCh i => s.params.chmemSize ≤ i
  | .wbPm k _ => s.params.pmemSize ≤ k ∨ s.busy = true
  | .rbPm k => s.params.pmemSize ≤ k
  | .wbit j _ => 8 * s.params.pmemSize ≤ j ∨ s.busy = true
  | .rbit j => 8 * s.params.pmemSize ≤ j
  | .wait => False

end Sys2Proof.Machine
end

