-- ==== Sys2Proof/Certificates/Slice0/Obligations.lean ====
section
/-! DEFINITION. The statements about the machine, one Prop each. `L` stands for `3 * W * H` (10_state.md R27). -/

open Sys2Proof Sys2Proof.Machine

/-! ## Encoding -/

/-- 30_encoding.md R73: the ten command words of the opcode map and its six reserved rows, written out. -/
def Obligations.OpcodeMapWordsDecode : Prop :=
  decode 0x00000001#32 = .ok .capacity ∧ decode 0x00000002#32 = .ok .pack ∧
  decode 0x00000003#32 = .ok .unpack ∧ decode 0x00000004#32 = .ok .validate ∧
  decode 0x00000005#32 = .ok .lsbWrite ∧ decode 0x00000006#32 = .ok .lsbRead ∧
  decode 0x00000007#32 = .ok .hdrEncode ∧ decode 0x00000008#32 = .ok .hdrDecode ∧
  decode 0x00000009#32 = .ok .embed ∧ decode 0x0000000A#32 = .ok .extract ∧
  decode 0x00000000#32 = .error .reservedOpcode ∧ decode 0x0000000B#32 = .error .reservedOpcode ∧
  decode 0x0000000C#32 = .error .reservedOpcode ∧ decode 0x0000000D#32 = .error .reservedOpcode ∧
  decode 0x0000000E#32 = .error .reservedOpcode ∧ decode 0x0000000F#32 = .error .reservedOpcode

/-- 30_encoding.md R72, R73, R75: every command's word decodes to it, and no other word does. -/
def Obligations.DecodeInvertsEncodeAndNoOtherWordDecodes : Prop :=
  ∀ i : Instr, i.wf = true → decode (encode i) = .ok i ∧ ∀ w : Word, decode w = .ok i → w = encode i

/-- 30_encoding.md R75: a word is illegal exactly when OPC is 0 or 11 to 15 or RSVD is not zero; every other word is one
of the ten commands; an illegal command in flight does nothing but finish with ILLEGAL_COMMAND. -/
def Obligations.IllegalWordsFinishWithIllegalCommand : Prop :=
  (∀ w : Word, (∃ e, decode w = .error e) ↔ (w.toNat % 16 = 0 ∨ 11 ≤ w.toNat % 16 ∨ w.toNat / 16 ≠ 0)) ∧
  (∀ w : Word, (∃ e, decode w = .error e) ∨ ∃ i, w = encode i) ∧
  (∀ (s : State) (w : Word), s.cur = some w → (w.toNat % 16 = 0 ∨ 11 ≤ w.toNat % 16 ∨ w.toNat / 16 ≠ 0) →
    blockTurn s = .next (s.completed .illegalCommand))

/-! ## Lifecycle -/

/-- 60_exceptions.md R202: the block's step is the whole command that `decode(CUR)` names, from the state as it stands, or
`finish(ILLEGAL_COMMAND)`: when the outside world has nothing left to do, when it is the block's turn, and while the host
waits. Whose turn it is comes from the model's own list of moves (logs 3 and 12, DESIGN CHOICE). -/
def Obligations.StepRunsTheDecodedCommand : Prop :=
  ∀ (s : State) (w : Word), s.cur = some w →
    (∀ i, decode w = .ok i →
      (s.moves = [] → step s = exec i s) ∧
      (∀ ms, s.moves = .block :: ms → step s = exec i { s with moves := ms }) ∧
      (∀ ms, s.moves = .host .wait :: ms → s.busy = true → step s = exec i s)) ∧
    (∀ e, decode w = .error e →
      (s.moves = [] → step s = .next (s.completed .illegalCommand)) ∧
      (∀ ms, s.moves = .block :: ms → step s = .next ({ s with moves := ms }.completed .illegalCommand)) ∧
      (∀ ms, s.moves = .host .wait :: ms → s.busy = true → step s = .next (s.completed .illegalCommand)))

/-- 60_exceptions.md R200: what a CMD write does while BUSY = 0, and that it is refused while BUSY = 1. The write
is the first of the model's own list of moves (log 3, DESIGN CHOICE). -/
def Obligations.CmdWriteStartsTheCommand : Prop :=
  ∀ (s : State) (w : Word) (ms : List Move), s.moves = .host (.wr 0x00#8 32 w) :: ms →
    (s.busy = false →
      step s = .next { s with moves := ms, cur := some w, busy := true, done := false, code := .ok }) ∧
    (s.busy = true → step s = .refused .writeWhileBusy)

/-- 60_exceptions.md R201: every command that completes leaves BUSY 0, DONE 1, no command in flight; and an idle block
keeps STATUS until a CMD write or a reset, whatever else the model's list of moves (log 3, DESIGN CHOICE) holds. -/
def Obligations.CompletionSetsStatusAndStatusHolds : Prop :=
  (∀ (i : Instr) (s t : State), exec i s = .next t →
    t.cur = none ∧ t.busy = false ∧ t.done = true ∧ t.code ≠ .illegalCommand) ∧
  (∀ s t : State, s.cur = none → s.busy = false → step s = .next t →
    (∀ ms, s.moves ≠ .reset :: ms) → (∀ w ms, s.moves ≠ .host (.wr 0x00#8 32 w) :: ms) →
    t.cur = none ∧ t.busy = false ∧ t.done = s.done ∧ t.code = s.code)

/-- 60_exceptions.md R204, R209: the first check that fails ends the command with its code and, for an error code,
with no effect but STATUS; a command whose checks pass ends with OK, or with NO_MESSAGE where it decodes a header; and a
fault arises only where every check that reads no cell has passed. The one check that needs cells, the plausibility of a
header, is not in `checkCode`: an empty header cell faults before it (log 20, DEDUCED). The last clause, on an illegal word,
takes the block's turn from an empty list of moves, the model's own (log 3, DESIGN CHOICE). -/
def Obligations.ChecksComeFirstAndErrorsHaveNoEffect : Prop :=
  (∀ (i : Instr) (s : State) (c : Code), checkCode i s = some c → c ≠ .noMessage → exec i s = .next (s.completed c)) ∧
  (∀ s : State, checkCode .hdrDecode s = some .noMessage →
    exec .hdrDecode s = .next ({ s with hdrval := 0#32 }.completed .noMessage)) ∧
  (∀ s : State, checkCode .extract s = some .noMessage →
    exec .extract s = .next ({ s with hdrval := 0#32, rlen := 0#32 }.completed .noMessage)) ∧
  (∀ (i : Instr) (s t : State), checkCode i s = none → exec i s = .next t →
    t.code = .ok ∨ (t.code = .noMessage ∧ (i = .hdrDecode ∨ i = .extract))) ∧
  (∀ (i : Instr) (s : State) (f : Fault), exec i s = .fault f → checkCode i s = none) ∧
  (∀ (s : State) (w : Word) (e : Illegal), s.cur = some w → s.moves = [] → decode w = .error e →
    step s = .next (s.completed .illegalCommand))

/-- 10_state.md R38: each command writes the registers and memories of its row and STATUS, and nothing else; with a code
other than OK or NO_MESSAGE it writes nothing but STATUS. -/
def Obligations.EachCommandWritesOnlyItsRow : Prop :=
  ∀ s t : State,
    (exec .capacity s = .next t → t =
      { s with pixcnt := t.pixcnt, availLo := t.availLo, availHi := t.availHi, maxb := t.maxb }.completed t.code) ∧
    (exec .validate s = .next t → t = { s with valid := t.valid }.completed t.code) ∧
    (exec .pack s = .next t → t = { s with rlen := t.rlen, bm := t.bm }.completed t.code) ∧
    (exec .unpack s = .next t → t = { s with rlen := t.rlen, pm := t.pm }.completed t.code) ∧
    (exec .lsbWrite s = .next t → t = { s with ch := t.ch }.completed t.code) ∧
    (exec .lsbRead s = .next t → t = { s with bitio := t.bitio }.completed t.code) ∧
    (exec .hdrEncode s = .next t → t = { s with ch := t.ch }.completed t.code) ∧
    (exec .hdrDecode s = .next t → t = { s with hdrval := t.hdrval }.completed t.code) ∧
    (exec .embed s = .next t → t = { s with ch := t.ch }.completed t.code) ∧
    (exec .extract s = .next t → t = { s with rlen := t.rlen, hdrval := t.hdrval, pm := t.pm }.completed t.code) ∧
    (∀ i, exec i s = .next t → t.code ≠ .ok → t.code ≠ .noMessage → t = s.completed t.code)

/-- 60_exceptions.md R206, 20_memory.md R56, 70_reset_and_hazards.md R233, 30_encoding.md R74: a command completes exactly
when every cell it reads holds a value, where UNPACK does not read its trailing `NBITS mod 8` cells, as 40_bit_packer.md
R107 and 93_implementation_defined.md U18 say, though R74's row lists them (log 19, DEDUCED); otherwise the
step faults, and the fault is UninitRead of a cell inside its memory that holds none. -/
def Obligations.CommandsFaultExactlyOnUnwrittenOperands : Prop :=
  ∀ (i : Instr) (s : State), s.params.ok = true →
    ((∃ t, exec i s = .next t) ↔ operandsHold i s = true) ∧
    (operandsHold i s = false → ∃ f, exec i s = .fault f) ∧
    (∀ f, exec i s = .fault f →
      (∃ j, j < s.params.chmemSize ∧ s.ch.cell j = none ∧ f = .uninitRead .ch j) ∨
      (∃ j, j < s.params.pmemSize ∧ s.pm.cell j = none ∧ f = .uninitRead .pm j) ∨
      (∃ j, j < 8 * s.params.pmemSize ∧ s.bm.cell j = none ∧ f = .uninitRead .bm j))

/-- 10_state.md R41, R25: a command's result depends on the registers and memories alone: STATUS, CUR and the host's side
do not enter it, and the host's side is carried through. -/
def Obligations.CommandsDependOnRegistersAndMemoriesAlone : Prop :=
  ∀ (i : Instr) (s : State) (w : Option Word) (b d : Bool) (c : Code) (ms : List Move) (se : List HostRead) (n : Nat),
    (∀ t, exec i s = .next t →
      exec i { s with cur := w, busy := b, done := d, code := c, moves := ms, seen := se, draws := n } =
        .next { t with moves := ms, seen := se, draws := n }) ∧
    (∀ f, exec i s = .fault f →
      exec i { s with cur := w, busy := b, done := d, code := c, moves := ms, seen := se, draws := n } = .fault f)

/-- A command run twice with no write between leaves the state one run leaves. The spec says so of PACK (40_bit_packer.md
R105), HDR_DECODE (42_length_header.md R156) and EXTRACT (43_embed_extract.md R175), and of LSB_WRITE that the second bit
stays (41_channel_reader_writer.md R132); of the others it follows from their own rules: CAPACITY R100, UNPACK R107, VALIDATE
R110, LSB_READ R134, HDR_ENCODE R152, EMBED R170. -/
def Obligations.RepeatingACommandChangesNothing : Prop :=
  ∀ (i : Instr) (s t : State), s.Inv → exec i s = .next t → exec i t = .next t

/-- 60_exceptions.md R202, R206, R207, 70_reset_and_hazards.md R238: after finitely many steps, at most one more than the
moves the outside world has left, a command in flight has left flight (BUSY 0), or the run has ended in the fault UninitRead,
or in the refusal of one of those moves that breaks a host duty; so where no move left breaks one, it is one of the first two.
That the list of moves is finite, and that a broken duty refuses the whole step, are the model's choices (logs 3 and 14, DESIGN
CHOICE). -/
def Obligations.CommandInFlightEndsWithinTheMovesLeft : Prop :=
  ∀ s : State, s.Inv → s.busy = true →
    (∃ k, k ≤ s.moves.length + 1 ∧
      ((∃ t : State, Host.Core.run Sys2Proof.core k s = .next t ∧ t.busy = false) ∨
       (∃ sp i, Host.Core.run Sys2Proof.core k s = .fault (Fault.uninitRead sp i)) ∨
       (∃ (r : Refusal) (op : HostOp), Host.Core.run Sys2Proof.core k s = .refused r ∧ .host op ∈ s.moves ∧
          breaksHostDuty s op))) ∧
    ((∀ op, .host op ∈ s.moves → ¬ breaksHostDuty s op) →
      ∃ k, k ≤ s.moves.length + 1 ∧
        ((∃ t : State, Host.Core.run Sys2Proof.core k s = .next t ∧ t.busy = false) ∨
         ∃ sp i, Host.Core.run Sys2Proof.core k s = .fault (Fault.uninitRead sp i)))

/-- 30_encoding.md R77, R78, 70_reset_and_hazards.md R237: the host's `run MNEMONIC` on an idle block is the CMD write, the
command, and the `wait` that ends once BUSY = 0, over the model's own list of moves (logs 3 and 12, DESIGN CHOICE). -/
def Obligations.HostRunOfACommandExecutesIt : Prop :=
  ∀ (i : Instr) (s t : State) (ms : List Move), s.busy = false → s.moves = Script.moves (Script.run i) ++ ms →
    exec i { s with moves := .host .wait :: ms, cur := some (encode i), busy := true, done := false, code := .ok } = .next t →
    Host.Core.run Sys2Proof.core 3 s = .next { t with moves := ms }

/-! ## Reset and invariants -/

/-- 10_state.md R42: the state right after reset (the values the spec gives). -/
def Obligations.ResetLeavesZeroRegistersAndEmptyMemories : Prop :=
  State.reset.cur = none ∧ State.reset.busy = false ∧ State.reset.done = false ∧ State.reset.code = .ok ∧
  (∀ r : Reg, State.reset.regWord r = 0#32) ∧
  (∀ i, State.reset.ch.cell i = none) ∧ (∀ i, State.reset.pm.cell i = none) ∧ (∀ i, State.reset.bm.cell i = none)

/-- 70_reset_and_hazards.md R230, R232: the reset input, from any state, with a command in flight too, is one step to the
reset values; the parameters and the host's own side stay (log 16). -/
def Obligations.ResetInputAbandonsTheCommand : Prop :=
  ∀ (s : State) (ms : List Move), s.moves = .reset :: ms →
    ∃ t, step s = .next t ∧ t.cur = none ∧ t.busy = false ∧ t.done = false ∧ t.code = .ok ∧
      (∀ r : Reg, t.regWord r = 0#32) ∧
      (∀ i, t.ch.cell i = none) ∧ (∀ i, t.pm.cell i = none) ∧ (∀ i, t.bm.cell i = none) ∧
      t.params = s.params ∧ t.moves = ms ∧ t.seen = s.seen ∧ t.draws = s.draws

/-- The invariant holds at reset. The parameters of State.reset are the model's choice (log 1). -/
def Obligations.ResetMeetsTheInvariant : Prop := State.reset.Inv

/-- 00_scope.md R9, 10_state.md R25, R34, R35, R39, R40: every step keeps the invariant: canonical memories inside their
sizes, the lifecycle's shape, the result registers in their ranges; and no step changes the parameters. -/
def Obligations.EveryStepKeepsTheInvariant : Prop :=
  ∀ s t : State, s.Inv → step s = .next t → t.Inv ∧ t.params = s.params

/-! ## The host's port

The host's operation is the first of the model's own list of moves, and what a read returned is the head of its own list
`seen`: logs 3 and 6, DESIGN CHOICE, in every statement of this section. -/

/-- 10_state.md R25, 70_reset_and_hazards.md R236: a read of STATUS, idle or in flight, gives BUSY, DONE and CODE in their
places and zero elsewhere, and has no side effect. -/
def Obligations.StatusReadsItsFields : Prop :=
  ∀ (s : State) (ms : List Move), s.moves = .host (.rd 0x04#8 32) :: ms →
    ∃ v : Word, step s = .next { s with moves := ms, seen := .word v :: s.seen } ∧
      v.getLsbD 0 = s.busy ∧ v.getLsbD 1 = s.done ∧ v.getLsbD 2 = false ∧ v.getLsbD 3 = false ∧
      (v.toNat / 16 % 16 = match s.code with
        | .ok => 0 | .capacityExceeded => 1 | .noMessage => 2 | .badGeometry => 3 | .outOfRange => 4
        | .illegalCommand => 5) ∧
      v.toNat / 256 = 0

/-- 10_state.md R23, R26, R31, R36, R37, 20_memory.md R58: what a host read of each register but STATUS, and of a reserved
offset, returns while BUSY = 0; the read has no side effect. -/
def Obligations.IdleReadsReturnTheRegisters : Prop :=
  ∀ (s : State) (ms : List Move) (off : BitVec 8) (v : Word), s.busy = false → s.moves = .host (.rd off 32) :: ms →
    ((off, v) ∈ [(0x00#8, 0#32), (0x08#8, s.width.setWidth 32), (0x0C#8, s.height.setWidth 32), (0x10#8, s.plen),
        (0x14#8, s.nbits), (0x18#8, s.idx), (0x1C#8, if s.bitio then 1#32 else 0#32), (0x20#8, s.hdrval),
        (0x24#8, s.maxb), (0x28#8, s.pixcnt), (0x2C#8, s.availLo), (0x30#8, s.availHi), (0x34#8, s.rlen),
        (0x38#8, if s.valid then 1#32 else 0#32)] ∨
      (off.toNat % 4 = 0 ∧ 0x3C ≤ off.toNat ∧ v = 0#32)) →
    step s = .next { s with moves := ms, seen := .word v :: s.seen }

/-- 10_state.md R23, R26, R31, R33, R37, 20_memory.md R58: what a host write of `v` leaves while BUSY = 0, for every
register but CMD and for a reserved offset. -/
def Obligations.IdleWritesStoreTheFields : Prop :=
  ∀ (s : State) (ms : List Move) (off : BitVec 8) (v : Word), s.busy = false → s.moves = .host (.wr off 32 v) :: ms →
    (off = 0x08#8 → step s = .next { s with moves := ms, width := v.extractLsb' 0 16 }) ∧
    (off = 0x0C#8 → step s = .next { s with moves := ms, height := v.extractLsb' 0 16 }) ∧
    (off = 0x10#8 → step s = .next { s with moves := ms, plen := v }) ∧
    (off = 0x14#8 → step s = .next { s with moves := ms, nbits := v }) ∧
    (off = 0x18#8 → step s = .next { s with moves := ms, idx := v }) ∧
    (off = 0x1C#8 → step s = .next { s with moves := ms, bitio := v.getLsbD 0 }) ∧
    (off = 0x20#8 → step s = .next { s with moves := ms, hdrval := v }) ∧
    (off = 0x24#8 → step s = .next { s with moves := ms, maxb := v }) ∧
    (off ∈ [0x04#8, 0x28#8, 0x2C#8, 0x30#8, 0x34#8, 0x38#8] ∨ (off.toNat % 4 = 0 ∧ 0x3C ≤ off.toNat) →
      step s = .next { s with moves := ms })

/-- 60_exceptions.md R207: the model gives no step exactly to a host operation that breaks a host duty; no command and no
reset is ever refused. That the whole step is refused is the model's choice (log 14, DESIGN CHOICE); that a write at a reserved
offset in flight is among them is read from 92_eei_decisions.md D14 (log 10, DEDUCED). -/
def Obligations.StepsAreRefusedExactlyForBrokenHostDuties : Prop :=
  ∀ s : State, (∃ r, step s = .refused r) ↔ ∃ op ms, s.moves = .host op :: ms ∧ breaksHostDuty s op

/-- 70_reset_and_hazards.md R236: host reads while a command is in flight. CMD and reserved offsets read 0; any other
register but STATUS and any memory cell is a fresh free draw, of which nothing is said (log 7); the block is unchanged. -/
def Obligations.ReadsInFlightAreZeroOrFreeDraws : Prop :=
  ∀ (s : State) (ms : List Move), s.busy = true →
    (∀ off : BitVec 8, s.moves = .host (.rd off 32) :: ms →
      (off = 0x00#8 ∨ (off.toNat % 4 = 0 ∧ 0x3C ≤ off.toNat) →
        step s = .next { s with moves := ms, seen := .word 0#32 :: s.seen }) ∧
      (off.toNat % 4 = 0 → 0x08 ≤ off.toNat → off.toNat ≤ 0x38 → step s =
        .next { s with moves := ms, seen := .word (Config.freeWord s.draws) :: s.seen, draws := s.draws + 1 })) ∧
    (∀ i, i < s.params.chmemSize → s.moves = .host (.rbCh i) :: ms → step s =
      .next { s with moves := ms, seen := .byte (Config.freeByte s.draws) :: s.seen, draws := s.draws + 1 }) ∧
    (∀ i, i < s.params.pmemSize → s.moves = .host (.rbPm i) :: ms → step s =
      .next { s with moves := ms, seen := .byte (Config.freeByte s.draws) :: s.seen, draws := s.draws + 1 }) ∧
    (∀ i, i < 8 * s.params.pmemSize → s.moves = .host (.rbit i) :: ms → step s =
      .next { s with moves := ms, seen := .bit (Config.freeBit s.draws) :: s.seen, draws := s.draws + 1 })

/-- 20_memory.md R58, R60, 60_exceptions.md R206: host reads of memory while BUSY = 0. A cell that holds a value returns
it; one that holds none returns a fresh free draw (log 7) and still holds none, since the memories are unchanged. -/
def Obligations.IdleMemoryReadsReturnTheCell : Prop :=
  ∀ (s : State) (ms : List Move) (i : Nat), s.busy = false →
    (i < s.params.chmemSize → s.moves = .host (.rbCh i) :: ms →
      (∀ b, s.ch.cell i = some b → step s = .next { s with moves := ms, seen := .byte b :: s.seen }) ∧
      (s.ch.cell i = none → step s =
        .next { s with moves := ms, seen := .byte (Config.freeByte s.draws) :: s.seen, draws := s.draws + 1 })) ∧
    (i < s.params.pmemSize → s.moves = .host (.rbPm i) :: ms →
      (∀ b, s.pm.cell i = some b → step s = .next { s with moves := ms, seen := .byte b :: s.seen }) ∧
      (s.pm.cell i = none → step s =
        .next { s with moves := ms, seen := .byte (Config.freeByte s.draws) :: s.seen, draws := s.draws + 1 })) ∧
    (i < 8 * s.params.pmemSize → s.moves = .host (.rbit i) :: ms →
      (∀ b, s.bm.cell i = some b → step s = .next { s with moves := ms, seen := .bit b :: s.seen }) ∧
      (s.bm.cell i = none → step s =
        .next { s with moves := ms, seen := .bit (Config.freeBit s.draws) :: s.seen, draws := s.draws + 1 }))

/-- 20_memory.md R50, R60: a host write of a cell while BUSY = 0 sets that cell, leaves every other cell of that memory,
and changes nothing else. -/
def Obligations.IdleMemoryWritesSetOneCell : Prop :=
  ∀ (s : State) (ms : List Move) (i : Nat), s.busy = false →
    (∀ v, i < s.params.chmemSize → s.moves = .host (.wbCh i v) :: ms →
      ∃ t, step s = .next t ∧ t = { s with moves := ms, ch := t.ch } ∧
        t.ch.cell i = some v ∧ ∀ j, j ≠ i → t.ch.cell j = s.ch.cell j) ∧
    (∀ v, i < s.params.pmemSize → s.moves = .host (.wbPm i v) :: ms →
      ∃ t, step s = .next t ∧ t = { s with moves := ms, pm := t.pm } ∧
        t.pm.cell i = some v ∧ ∀ j, j ≠ i → t.pm.cell j = s.pm.cell j) ∧
    (∀ v, i < 8 * s.params.pmemSize → s.moves = .host (.wbit i v) :: ms →
      ∃ t, step s = .next t ∧ t = { s with moves := ms, bm := t.bm } ∧
        t.bm.cell i = some v ∧ ∀ j, j ≠ i → t.bm.cell j = s.bm.cell j)

/-! ## LSB_bit_packer -/

/-- 40_bit_packer.md R100, R101: CAPACITY always finishes OK; PIXCNT, AVAIL and MAXB hold the exact integers, MAXB the floor
quotient; nothing else but STATUS changes. -/
def Obligations.CapacityIsExact : Prop :=
  decode 0x00000001#32 = .ok .capacity ∧
  ∀ s : State, ∃ t, exec .capacity s = .next t ∧
    t = { s with pixcnt := t.pixcnt, availLo := t.availLo, availHi := t.availHi, maxb := t.maxb }.completed .ok ∧
    t.pixcnt.toNat = s.width.toNat * s.height.toNat ∧
    (t.availHi ++ t.availLo).toInt = (s.width.toNat : Int) * s.height.toNat * 3 - 32 ∧
    8 * t.maxb.toInt ≤ (s.width.toNat : Int) * s.height.toNat * 3 - 32 ∧
    (s.width.toNat : Int) * s.height.toNat * 3 - 32 < 8 * t.maxb.toInt + 8

/-- 40_bit_packer.md R103, R104: PACK. Bit `7 - j` of byte `k` goes to bit cell `8*k + j`; RLEN is the number of bits;
OUT_OF_RANGE when PLEN is above PMEM_SIZE; the fault when a byte it reads holds no value. -/
def Obligations.PackExpandsBytesMsbFirst : Prop :=
  decode 0x00000002#32 = .ok .pack ∧
  ∀ s : State, s.params.ok = true →
    (s.params.pmemSize < s.plen.toNat → exec .pack s = .next (s.completed .outOfRange)) ∧
    (s.plen.toNat ≤ s.params.pmemSize → (∀ k, k < s.plen.toNat → (s.pm.cell k).isSome = true) →
      ∃ t, exec .pack s = .next t ∧ t = { s with rlen := t.rlen, bm := t.bm }.completed .ok ∧
        t.rlen.toNat = 8 * s.plen.toNat ∧
        (∀ k b, k < s.plen.toNat → s.pm.cell k = some b → ∀ j, j < 8 → t.bm.cell (8 * k + j) = some (b.getLsbD (7 - j))) ∧
        (∀ j, 8 * s.plen.toNat ≤ j → t.bm.cell j = s.bm.cell j)) ∧
    (s.plen.toNat ≤ s.params.pmemSize → (∃ k, k < s.plen.toNat ∧ s.pm.cell k = none) →
      ∃ k, k < s.plen.toNat ∧ s.pm.cell k = none ∧ exec .pack s = .fault (.uninitRead .pm k))

/-- 40_bit_packer.md R106, R107: UNPACK. Byte `k` is bits `8*k` to `8*k + 7`, first bit most significant; the trailing
`NBITS mod 8` cells are not read; RLEN is the number of bytes; OUT_OF_RANGE above BITMEM_BITS; the fault on an empty cell. -/
def Obligations.UnpackPacksWholeGroups : Prop :=
  decode 0x00000003#32 = .ok .unpack ∧
  ∀ s : State, s.params.ok = true →
    (8 * s.params.pmemSize < s.nbits.toNat → exec .unpack s = .next (s.completed .outOfRange)) ∧
    (s.nbits.toNat ≤ 8 * s.params.pmemSize → (∀ j, j < 8 * (s.nbits.toNat / 8) → (s.bm.cell j).isSome = true) →
      ∃ t, exec .unpack s = .next t ∧ t = { s with rlen := t.rlen, pm := t.pm }.completed .ok ∧
        t.rlen.toNat = s.nbits.toNat / 8 ∧
        (∀ k, k < s.nbits.toNat / 8 → ∃ b, t.pm.cell k = some b ∧
          ∀ j, j < 8 → s.bm.cell (8 * k + j) = some (b.getLsbD (7 - j))) ∧
        (∀ k, s.nbits.toNat / 8 ≤ k → t.pm.cell k = s.pm.cell k)) ∧
    (s.nbits.toNat ≤ 8 * s.params.pmemSize → (∃ j, j < 8 * (s.nbits.toNat / 8) ∧ s.bm.cell j = none) →
      ∃ j, j < 8 * (s.nbits.toNat / 8) ∧ s.bm.cell j = none ∧ exec .unpack s = .fault (.uninitRead .bm j))

/-- 40_bit_packer.md R108: PACK then UNPACK of the bits it produced, whatever payload memory held in between, restores the
payload; UNPACK then PACK of the bytes it produced, whatever bit memory held in between, restores the bits it read. -/
def Obligations.PackAndUnpackRoundTrip : Prop :=
  (∀ (s t : State) (m : Memory Byte), s.params.ok = true → exec .pack s = .next t → t.code = .ok →
    ∃ u, exec .unpack { t with nbits := t.rlen, pm := m } = .next u ∧ u.code = .ok ∧ u.rlen = s.plen ∧
      ∀ k, k < s.plen.toNat → u.pm.cell k = s.pm.cell k) ∧
  (∀ (s t : State) (m : Memory Bit), s.params.ok = true → exec .unpack s = .next t → t.code = .ok →
    ∃ u, exec .pack { t with plen := t.rlen, bm := m } = .next u ∧ u.code = .ok ∧
      u.rlen.toNat = 8 * (s.nbits.toNat / 8) ∧ ∀ j, j < 8 * (s.nbits.toNat / 8) → u.bm.cell j = s.bm.cell j)

/-- 40_bit_packer.md R110: VALIDATE compares PLEN and MAXB as integers, always finishes OK and writes VALID alone. -/
def Obligations.ValidateComparesIntegers : Prop :=
  decode 0x00000004#32 = .ok .validate ∧
  ∀ s : State, ∃ t, exec .validate s = .next t ∧ t = { s with valid := t.valid }.completed .ok ∧
    (t.valid = true ↔ (s.plen.toNat : Int) ≤ s.maxb.toInt)

/-- 40_bit_packer.md R102, R111: after CAPACITY, VALIDATE says 1 exactly when EMBED with the same operands, on a carrier that
fits channel memory, does not finish with CAPACITY_EXCEEDED. -/
def Obligations.ValidateAgreesWithEmbed : Prop :=
  ∀ s t u : State, 3 * s.width.toNat * s.height.toNat ≤ s.params.chmemSize →
    exec .capacity s = .next t → exec .validate t = .next u →
    (u.valid = true ↔ ¬ ∃ v, exec .embed u = .next v ∧ v.code = .capacityExceeded)

/-! ## LSB_channel_reader_writer -/

/-- 41_channel_reader_writer.md R130, R131: LSB_WRITE: BAD_GEOMETRY, then OUT_OF_RANGE, then the element's LSB replaced by
BITIO.BIT with its upper bits and every other cell unchanged; the fault where the element holds no value. -/
def Obligations.LsbWriteReplacesOneLsb : Prop :=
  decode 0x00000005#32 = .ok .lsbWrite ∧
  ∀ (s : State) (L : Nat), L = 3 * s.width.toNat * s.height.toNat →
    (s.params.chmemSize < L → exec .lsbWrite s = .next (s.completed .badGeometry)) ∧
    (L ≤ s.params.chmemSize → L ≤ s.idx.toNat → exec .lsbWrite s = .next (s.completed .outOfRange)) ∧
    (L ≤ s.params.chmemSize → s.idx.toNat < L →
      (∀ b, s.ch.cell s.idx.toNat = some b →
        ∃ t b', exec .lsbWrite s = .next t ∧ t = { s with ch := t.ch }.completed .ok ∧
          t.ch.cell s.idx.toNat = some b' ∧ b' = (b &&& 0xFE#8) ||| (if s.bitio then 1#8 else 0#8) ∧
          b'.getLsbD 0 = s.bitio ∧ b' &&& 0xFE#8 = b &&& 0xFE#8 ∧
          ∀ j, j ≠ s.idx.toNat → t.ch.cell j = s.ch.cell j) ∧
      (s.ch.cell s.idx.toNat = none → exec .lsbWrite s = .fault (.uninitRead .ch s.idx.toNat)))

/-- 41_channel_reader_writer.md R134: LSB_READ: BAD_GEOMETRY, then OUT_OF_RANGE, then BITIO.BIT is the element's LSB and
nothing else but STATUS changes; the fault where the element holds no value. -/
def Obligations.LsbReadReturnsTheLsb : Prop :=
  decode 0x00000006#32 = .ok .lsbRead ∧
  ∀ (s : State) (L : Nat), L = 3 * s.width.toNat * s.height.toNat →
    (s.params.chmemSize < L → exec .lsbRead s = .next (s.completed .badGeometry)) ∧
    (L ≤ s.params.chmemSize → L ≤ s.idx.toNat → exec .lsbRead s = .next (s.completed .outOfRange)) ∧
    (L ≤ s.params.chmemSize → s.idx.toNat < L →
      (∀ b, s.ch.cell s.idx.toNat = some b → exec .lsbRead s = .next ({ s with bitio := b.getLsbD 0 }.completed .ok)) ∧
      (s.ch.cell s.idx.toNat = none → exec .lsbRead s = .fault (.uninitRead .ch s.idx.toNat)))

/-- 41_channel_reader_writer.md R132, R136: LSB_READ after an OK LSB_WRITE of the same IDX returns the written bit,
whatever BITIO held in between; of two LSB_WRITEs of one IDX the second bit stays. -/
def Obligations.LsbReadAfterWriteReturnsTheBit : Prop :=
  ∀ (s t : State) (x y : Bool), exec .lsbWrite s = .next t → t.code = .ok →
    (∃ u, exec .lsbRead { t with bitio := x } = .next u ∧ u.code = .ok ∧ u.bitio = s.bitio) ∧
    (∃ u v, exec .lsbWrite { t with bitio := x } = .next u ∧ u.code = .ok ∧
      exec .lsbRead { u with bitio := y } = .next v ∧ v.code = .ok ∧ v.bitio = x)

/-! ## The length header -/

/-- 42_length_header.md R150, R152, R153: HDR_ENCODE: BAD_GEOMETRY, then OUT_OF_RANGE when `L < 32`, then element `i` of
`[0, 32)` carries bit `31 - i` of HDRVAL in its LSB, upper bits and other cells unchanged; the fault on an empty cell. -/
def Obligations.HdrEncodeWritesTheHeaderBits : Prop :=
  decode 0x00000007#32 = .ok .hdrEncode ∧
  ∀ (s : State) (L : Nat), L = 3 * s.width.toNat * s.height.toNat →
    (s.params.chmemSize < L → exec .hdrEncode s = .next (s.completed .badGeometry)) ∧
    (L ≤ s.params.chmemSize → L < 32 → exec .hdrEncode s = .next (s.completed .outOfRange)) ∧
    (L ≤ s.params.chmemSize → 32 ≤ L → (∀ i, i < 32 → (s.ch.cell i).isSome = true) →
      ∃ t, exec .hdrEncode s = .next t ∧ t = { s with ch := t.ch }.completed .ok ∧
        (∀ i b, i < 32 → s.ch.cell i = some b → ∃ b', t.ch.cell i = some b' ∧
          b'.getLsbD 0 = s.hdrval.getLsbD (31 - i) ∧ b' &&& 0xFE#8 = b &&& 0xFE#8) ∧
        (∀ i, 32 ≤ i → t.ch.cell i = s.ch.cell i)) ∧
    (L ≤ s.params.chmemSize → 32 ≤ L → (∃ i, i < 32 ∧ s.ch.cell i = none) →
      ∃ i, i < 32 ∧ s.ch.cell i = none ∧ exec .hdrEncode s = .fault (.uninitRead .ch i))

/-- 42_length_header.md R150, R154, R155: HDR_DECODE: BAD_GEOMETRY, then NO_MESSAGE with HDRVAL 0 when `L < 32`, then HDRVAL
is the value `n` whose bit `31 - i` is the LSB of element `i`, with OK when `n` is plausible and NO_MESSAGE otherwise; no
cell is written; the fault on an empty cell. -/
def Obligations.HdrDecodeReadsAndJudgesTheHeader : Prop :=
  decode 0x00000008#32 = .ok .hdrDecode ∧
  ∀ (s : State) (L : Nat), L = 3 * s.width.toNat * s.height.toNat →
    (s.params.chmemSize < L → exec .hdrDecode s = .next (s.completed .badGeometry)) ∧
    (L ≤ s.params.chmemSize → L < 32 →
      exec .hdrDecode s = .next ({ s with hdrval := 0#32 }.completed .noMessage)) ∧
    (∀ n : Nat, L ≤ s.params.chmemSize → 32 ≤ L → n < 2 ^ 32 →
      (∀ i, i < 32 → (s.ch.cell i).map (fun b => b.getLsbD 0) = some (n.testBit (31 - i))) →
      (n ≠ 0 → (n : Int) ≤ (L : Int) - 32 →
        exec .hdrDecode s = .next ({ s with hdrval := BitVec.ofNat 32 n }.completed .ok)) ∧
      (n = 0 ∨ (n : Int) > (L : Int) - 32 →
        exec .hdrDecode s = .next ({ s with hdrval := BitVec.ofNat 32 n }.completed .noMessage))) ∧
    (L ≤ s.params.chmemSize → 32 ≤ L → (∃ i, i < 32 ∧ s.ch.cell i = none) →
      ∃ i, i < 32 ∧ s.ch.cell i = none ∧ exec .hdrDecode s = .fault (.uninitRead .ch i))

/-- 42_length_header.md R156: HDR_DECODE after an OK HDR_ENCODE gives the encoded value back, whatever HDRVAL held in
between, with OK when it is plausible and NO_MESSAGE otherwise. -/
def Obligations.HdrDecodeAfterEncodeReturnsTheValue : Prop :=
  ∀ (s t : State) (x : Word), exec .hdrEncode s = .next t → t.code = .ok →
    ∃ u, exec .hdrDecode { t with hdrval := x } = .next u ∧ u.hdrval = s.hdrval ∧
      (u.code = if s.hdrval ≠ 0#32 ∧ s.hdrval.toNat + 32 ≤ 3 * s.width.toNat * s.height.toNat then .ok else .noMessage)

/-! ## EMBED and EXTRACT -/

/-- 43_embed_extract.md R170, R171, R173: EMBED: BAD_GEOMETRY, then CAPACITY_EXCEEDED when `8 * PLEN > L - 32` as integers, then
the header `8 * PLEN` in `[0, 32)` and the payload bits, most significant first, in `[32, 32 + 8 * PLEN)`, LSBs only; every
other cell, payload memory, bit memory and every register but STATUS unchanged; the fault on an empty cell. -/
def Obligations.EmbedWritesHeaderAndPayload : Prop :=
  decode 0x00000009#32 = .ok .embed ∧
  ∀ (s : State) (L : Nat), L = 3 * s.width.toNat * s.height.toNat → s.params.ok = true →
    (s.params.chmemSize < L → exec .embed s = .next (s.completed .badGeometry)) ∧
    (L ≤ s.params.chmemSize → (8 * s.plen.toNat : Int) > (L : Int) - 32 →
      exec .embed s = .next (s.completed .capacityExceeded)) ∧
    (L ≤ s.params.chmemSize → (8 * s.plen.toNat : Int) ≤ (L : Int) - 32 →
      (∀ k, k < s.plen.toNat → (s.pm.cell k).isSome = true) →
      (∀ i, i < 32 + 8 * s.plen.toNat → (s.ch.cell i).isSome = true) →
      ∃ t, exec .embed s = .next t ∧ t = { s with ch := t.ch }.completed .ok ∧
        (∀ i b, i < 32 → s.ch.cell i = some b → ∃ b', t.ch.cell i = some b' ∧
          b'.getLsbD 0 = (8 * s.plen.toNat).testBit (31 - i) ∧ b' &&& 0xFE#8 = b &&& 0xFE#8) ∧
        (∀ k j p b, k < s.plen.toNat → j < 8 → s.pm.cell k = some p → s.ch.cell (32 + 8 * k + j) = some b →
          ∃ b', t.ch.cell (32 + 8 * k + j) = some b' ∧
            b'.getLsbD 0 = p.getLsbD (7 - j) ∧ b' &&& 0xFE#8 = b &&& 0xFE#8) ∧
        (∀ i, 32 + 8 * s.plen.toNat ≤ i → t.ch.cell i = s.ch.cell i)) ∧
    (L ≤ s.params.chmemSize → (8 * s.plen.toNat : Int) ≤ (L : Int) - 32 →
      ((∃ k, k < s.plen.toNat ∧ s.pm.cell k = none) ∨ (∃ i, i < 32 + 8 * s.plen.toNat ∧ s.ch.cell i = none)) →
      (∃ k, k < s.plen.toNat ∧ s.pm.cell k = none ∧ exec .embed s = .fault (.uninitRead .pm k)) ∨
      (∃ i, i < 32 + 8 * s.plen.toNat ∧ s.ch.cell i = none ∧ exec .embed s = .fault (.uninitRead .ch i)))

/-- 43_embed_extract.md R172: EMBED of an empty payload on a carrier that fits and has `L >= 33` clears the LSBs of
`CH[0, 32)` and finishes OK; a later EXTRACT finishes with NO_MESSAGE, RLEN 0 and no cell written. -/
def Obligations.EmptyPayloadEmbedsAsNoMessage : Prop :=
  ∀ s : State, s.params.ok = true → s.plen = 0#32 → 33 ≤ 3 * s.width.toNat * s.height.toNat →
    3 * s.width.toNat * s.height.toNat ≤ s.params.chmemSize → (∀ i, i < 32 → (s.ch.cell i).isSome = true) →
    ∃ t u, exec .embed s = .next t ∧ t.code = .ok ∧
      (∀ i, i < 32 → (t.ch.cell i).map (fun b => b.getLsbD 0) = some false) ∧
      (∀ i, 32 ≤ i → t.ch.cell i = s.ch.cell i) ∧
      exec .extract t = .next u ∧ u = { t with hdrval := 0#32, rlen := 0#32 }.completed .noMessage

/-- 43_embed_extract.md R174: EXTRACT: BAD_GEOMETRY; NO_MESSAGE with HDRVAL 0 and RLEN 0 when `L < 32`; NO_MESSAGE with HDRVAL
the decoded header and RLEN 0 when it is implausible; otherwise byte `k` of the payload is the LSBs of elements `32 + 8*k` to
`32 + 8*k + 7`, first most significant, in `PM[0, n div 8)`, RLEN that count, every other cell unchanged; the fault on an
empty cell, those of the dropped tail included. -/
def Obligations.ExtractReadsHeaderAndPayload : Prop :=
  decode 0x0000000A#32 = .ok .extract ∧
  ∀ (s : State) (L : Nat), L = 3 * s.width.toNat * s.height.toNat → s.params.ok = true →
    (s.params.chmemSize < L → exec .extract s = .next (s.completed .badGeometry)) ∧
    (L ≤ s.params.chmemSize → L < 32 →
      exec .extract s = .next ({ s with hdrval := 0#32, rlen := 0#32 }.completed .noMessage)) ∧
    (∀ n : Nat, L ≤ s.params.chmemSize → 32 ≤ L → n < 2 ^ 32 →
      (∀ i, i < 32 → (s.ch.cell i).map (fun b => b.getLsbD 0) = some (n.testBit (31 - i))) →
      (n = 0 ∨ (n : Int) > (L : Int) - 32 →
        exec .extract s = .next ({ s with hdrval := BitVec.ofNat 32 n, rlen := 0#32 }.completed .noMessage)) ∧
      (n ≠ 0 → (n : Int) ≤ (L : Int) - 32 → (∀ i, i < n → (s.ch.cell (32 + i)).isSome = true) →
        ∃ t, exec .extract s = .next t ∧
          t = { s with hdrval := BitVec.ofNat 32 n, rlen := BitVec.ofNat 32 (n / 8), pm := t.pm }.completed .ok ∧
          (∀ k, k < n / 8 → ∃ p, t.pm.cell k = some p ∧ ∀ j, j < 8 →
            (s.ch.cell (32 + 8 * k + j)).map (fun b => b.getLsbD 0) = some (p.getLsbD (7 - j))) ∧
          (∀ k, n / 8 ≤ k → t.pm.cell k = s.pm.cell k)) ∧
      (n ≠ 0 → (n : Int) ≤ (L : Int) - 32 → (∃ i, i < n ∧ s.ch.cell (32 + i) = none) →
        ∃ i, i < n ∧ s.ch.cell (32 + i) = none ∧ exec .extract s = .fault (.uninitRead .ch (32 + i)))) ∧
    (L ≤ s.params.chmemSize → 32 ≤ L → (∃ i, i < 32 ∧ s.ch.cell i = none) →
      ∃ i, i < 32 ∧ s.ch.cell i = none ∧ exec .extract s = .fault (.uninitRead .ch i))

/-- 43_embed_extract.md R176: EXTRACT after an OK EMBED of at least one byte gives the payload back, whatever payload
memory, HDRVAL and RLEN held in between. -/
def Obligations.ExtractAfterEmbedReturnsThePayload : Prop :=
  ∀ (s t : State) (m : Memory Byte) (x y : Word), s.params.ok = true → 1 ≤ s.plen.toNat →
    exec .embed s = .next t → t.code = .ok →
    ∃ u, exec .extract { t with pm := m, hdrval := x, rlen := y } = .next u ∧ u.code = .ok ∧
      u.hdrval.toNat = 8 * s.plen.toNat ∧ u.rlen = s.plen ∧
      (∀ k, k < s.plen.toNat → u.pm.cell k = s.pm.cell k) ∧ (∀ k, s.plen.toNat ≤ k → u.pm.cell k = m.cell k)

/-- 43_embed_extract.md R177: EXTRACT on a carrier that fits, every cell of whose stream holds a value, finishes with OK or
NO_MESSAGE, never with an error code and never with a fault. -/
def Obligations.ExtractOnAWrittenCarrierNeverFails : Prop :=
  ∀ s : State, s.params.ok = true → 3 * s.width.toNat * s.height.toNat ≤ s.params.chmemSize →
    (∀ i, i < 3 * s.width.toNat * s.height.toNat → (s.ch.cell i).isSome = true) →
    ∃ t, exec .extract s = .next t ∧ (t.code = .ok ∨ t.code = .noMessage)

/-! ## Whole-machine rules of channel memory -/

/-- 20_memory.md R51, R52, 43_embed_extract.md R171: no command changes bits `[7:1]` of a stream element, gives a value to
an empty cell or takes one away, or writes a cell at or beyond `L`. -/
def Obligations.CommandsChangeOnlyStreamLsbs : Prop :=
  ∀ (i : Instr) (s t : State) (j : Nat), exec i s = .next t →
    (∀ b, s.ch.cell j = some b → ∃ b', t.ch.cell j = some b' ∧ b' &&& 0xFE#8 = b &&& 0xFE#8) ∧
    (s.ch.cell j = none → t.ch.cell j = none) ∧
    (3 * s.width.toNat * s.height.toNat ≤ j → t.ch.cell j = s.ch.cell j)

/-- 20_memory.md R51: `(y * W + x) * 3 + c` numbers the samples of a carrier from 0 to `L - 1`, each once. -/
def Obligations.StreamIndexNumbersEachSampleOnce : Prop :=
  ∀ s : State,
    (∀ y x c, y < s.height.toNat → x < s.width.toNat → c < 3 →
      streamIndex s.width.toNat y x c = (y * s.width.toNat + x) * 3 + c ∧
      streamIndex s.width.toNat y x c < 3 * s.width.toNat * s.height.toNat) ∧
    (∀ i, i < 3 * s.width.toNat * s.height.toNat →
      ∃ y x c, y < s.height.toNat ∧ x < s.width.toNat ∧ c < 3 ∧ streamIndex s.width.toNat y x c = i ∧
        ∀ y' x' c', y' < s.height.toNat → x' < s.width.toNat → c' < 3 → streamIndex s.width.toNat y' x' c' = i →
          y' = y ∧ x' = x ∧ c' = c)

/-- 20_memory.md R51: cells `[L, CHMEM_SIZE)` are read by no command: a channel memory that agrees with this one on
`[0, L)` gives the same outcome, the same registers and other memories, the same stream, and its own cells beyond `L`. -/
def Obligations.CellsBeyondTheStreamDoNotMatter : Prop :=
  ∀ (i : Instr) (s : State) (m : Memory Byte) (L : Nat), L = 3 * s.width.toNat * s.height.toNat →
    (∀ j, j < L → m.cell j = s.ch.cell j) →
    (∀ t, exec i s = .next t → ∃ m', exec i { s with ch := m } = .next { t with ch := m' } ∧
      (∀ j, j < L → m'.cell j = t.ch.cell j) ∧ (∀ j, L ≤ j → m'.cell j = m.cell j)) ∧
    (∀ f, exec i s = .fault f → exec i { s with ch := m } = .fault f)
end

