-- ==== Sys2Proof/Laws/Bits.lean ====
section
/-! SUPPORT. Laws of bit sequences: length, digits, and the two round trips (40_bit_packer.md R108; 42_length_header.md R150). -/

namespace Sys2Proof.Machine

@[simp] theorem lsb_setlsb (b : Byte) (t : Bit) : lsb (setlsb b t) = t := by revert b t; decide

@[simp] theorem setlsb_lsb (b : Byte) : setlsb b (lsb b) = b := by revert b; decide

@[simp] theorem setlsb_setlsb (b : Byte) (t u : Bit) : setlsb (setlsb b t) u = setlsb b u := by revert b t u; decide

@[simp] theorem setlsb_upper (b : Byte) (t : Bit) : setlsb b t &&& 0xFE#8 = b &&& 0xFE#8 := by revert b t; decide

/-- `setlsb` in the spec's own operators (00_scope.md R13). -/
theorem setlsb_eq (b : Byte) (t : Bit) : setlsb b t = (b &&& 0xFE#8) ||| (if t then 1#8 else 0#8) := by revert b t; decide

theorem setlsb_getLsbD (b : Byte) (t : Bit) : (setlsb b t).getLsbD 0 = t := lsb_setlsb b t

@[simp] theorem msbBits_length (w v : Nat) : (msbBits w v).length = w := by
  induction w with
  | zero => rfl
  | succ w ih => simp [msbBits, ih]

theorem msbBits_getElem? (w v i : Nat) (h : i < w) : (msbBits w v)[i]? = some (v.testBit (w - 1 - i)) := by
  induction w generalizing i with
  | zero => omega
  | succ w ih =>
    cases i with
    | zero => simp [msbBits]
    | succ i =>
      simp only [msbBits, List.getElem?_cons_succ]
      rw [ih i (by omega)]
      congr 2; omega

theorem msbValue_lt (B : List Bit) : msbValue B < 2 ^ B.length := by
  induction B with
  | nil => simp [msbValue]
  | cons t ts ih =>
    simp only [msbValue, List.length_cons, pow_succ]
    cases t
    · simp; omega
    · simp; omega

theorem msbValue_msbBits (w v : Nat) : msbValue (msbBits w v) = v % 2 ^ w := by
  induction w with
  | zero => simp [msbBits, msbValue, Nat.mod_one]
  | succ w ih =>
    simp only [msbBits, msbValue, msbBits_length, ih]
    rw [Nat.mod_pow_succ, Nat.testBit_eq_decide_div_mod_eq]
    rcases Nat.mod_two_eq_zero_or_one (v / 2 ^ w) with h | h
    · simp [h]
    · simp [h]; omega

theorem msbBits_mod (w v : Nat) : msbBits w (v % 2 ^ w) = msbBits w v := by
  apply List.ext_getElem?
  intro i
  by_cases h : i < w
  · rw [msbBits_getElem? _ _ _ h, msbBits_getElem? _ _ _ h, Nat.testBit_mod_two_pow]
    simp; omega
  · rw [List.getElem?_eq_none (by simpa using h), List.getElem?_eq_none (by simpa using h)]

theorem msbBits_msbValue (B : List Bit) : msbBits B.length (msbValue B) = B := by
  induction B with
  | nil => rfl
  | cons t ts ih =>
    have hlt := msbValue_lt ts
    have hmod : msbValue (t :: ts) % 2 ^ ts.length = msbValue ts := by
      simp only [msbValue]
      rw [Nat.mul_add_mod_self_right]
      exact Nat.mod_eq_of_lt hlt
    have hbit : (msbValue (t :: ts)).testBit ts.length = t := by
      simp only [msbValue]
      rw [Nat.testBit_eq_decide_div_mod_eq, Nat.add_comm,
        Nat.add_mul_div_right _ _ (Nat.two_pow_pos _), Nat.div_eq_of_lt hlt]
      cases t <;> simp
    simp only [List.length_cons, msbBits, hbit]
    rw [← msbBits_mod, hmod, ih]

theorem testBit_msbValue (B : List Bit) (i : Nat) (h : i < B.length) :
    B[i]? = some ((msbValue B).testBit (B.length - 1 - i)) := by
  conv_lhs => rw [← msbBits_msbValue B]
  exact msbBits_getElem? _ _ _ h

@[simp] theorem bytesToBits_length (P : List Byte) : (bytesToBits P).length = 8 * P.length := by
  induction P with
  | nil => rfl
  | cons b bs ih => simp [bytesToBits, ih]; omega

/-- `bytes_to_bits(P)[8*k + j] = P[k][7 - j]` (40_bit_packer.md R103). -/
theorem bytesToBits_getElem? (P : List Byte) (k j : Nat) (b : Byte) (hk : P[k]? = some b) (hj : j < 8) :
    (bytesToBits P)[8 * k + j]? = some (b.getLsbD (7 - j)) := by
  induction P generalizing k with
  | nil => simp at hk
  | cons c cs ih =>
    cases k with
    | zero =>
      simp only [List.getElem?_cons_zero, Option.some.injEq] at hk
      subst hk
      rw [bytesToBits, List.getElem?_append_left (by simp; omega), Nat.mul_zero, Nat.zero_add, msbBits_getElem? _ _ _ hj]
      rfl
    | succ k =>
      rw [bytesToBits, List.getElem?_append_right (by simp; omega)]
      simp only [msbBits_length]
      rw [show 8 * (k + 1) + j - 8 = 8 * k + j from by omega]
      exact ih k (by simpa using hk)

/-- The eight digits of a byte give the byte back. -/
theorem bitsToBytes_group (b : Byte) (rest : List Bit) :
    bitsToBytes (msbBits 8 b.toNat ++ rest) = b :: bitsToBytes rest := by
  have h := msbValue_msbBits 8 b.toNat
  simp only [msbBits, List.cons_append, List.nil_append, bitsToBytes] at h ⊢
  rw [h, Nat.mod_eq_of_lt b.isLt, BitVec.ofNat_toNat, BitVec.setWidth_eq]

/-- `bits_to_bytes(bytes_to_bits(P)) = P` with any incomplete tail dropped (40_bit_packer.md R106, R108). -/
theorem bitsToBytes_bytesToBits_append (P : List Byte) (rest : List Bit) :
    bitsToBytes (bytesToBits P ++ rest) = P ++ bitsToBytes rest := by
  induction P with
  | nil => rfl
  | cons b bs ih => rw [bytesToBits, List.append_assoc, bitsToBytes_group, ih, List.cons_append]

/-- `bits_to_bytes(bytes_to_bits(P)) = P` (40_bit_packer.md R108). -/
@[simp] theorem bitsToBytes_bytesToBits (P : List Byte) : bitsToBytes (bytesToBits P) = P := by
  simpa [bitsToBytes] using bitsToBytes_bytesToBits_append P []

theorem bitsToBytes_of_short (B : List Bit) (h : B.length < 8) : bitsToBytes B = [] := by
  match B with
  | [] | [_] | [_, _] | [_, _, _] | [_, _, _, _] | [_, _, _, _, _] | [_, _, _, _, _, _] | [_, _, _, _, _, _, _] => rfl
  | _ :: _ :: _ :: _ :: _ :: _ :: _ :: _ :: _ => simp at h; omega

/-- A sequence of at least 8 bits is the digits of a byte, then the rest. -/
theorem exists_group (B : List Bit) (h : 8 ≤ B.length) :
    ∃ (b : Byte) (rest : List Bit), B = msbBits 8 b.toNat ++ rest := by
  refine ⟨BitVec.ofNat 8 (msbValue (B.take 8)), B.drop 8, ?_⟩
  have hl : (B.take 8).length = 8 := by simp; omega
  have := msbBits_msbValue (B.take 8)
  rw [hl] at this
  rw [BitVec.toNat_ofNat, msbBits_mod, this, List.take_append_drop]

/-- `bytes_to_bits(bits_to_bytes(B)) = B[0, 8 * (m div 8))` (40_bit_packer.md R108). -/
theorem bytesToBits_bitsToBytes (B : List Bit) : bytesToBits (bitsToBytes B) = B.take (8 * (B.length / 8)) := by
  induction hn : B.length using Nat.strongRecOn generalizing B with
  | ind n ih =>
    by_cases h : B.length < 8
    · rw [bitsToBytes_of_short B h, ← hn, Nat.div_eq_of_lt h]; rfl
    · obtain ⟨b, rest, rfl⟩ := exists_group B (by omega)
      rw [bitsToBytes_group, bytesToBits, ih rest.length (by simp at hn; omega) rest rfl]
      have : 8 * (n / 8) = 8 + 8 * (rest.length / 8) := by simp at hn; omega
      rw [this, List.take_append, msbBits_length,
        List.take_of_length_le (l := msbBits 8 b.toNat) (by rw [msbBits_length]; omega), Nat.add_sub_cancel_left]

@[simp] theorem bitsToBytes_length (B : List Bit) : (bitsToBytes B).length = B.length / 8 := by
  have := congrArg List.length (bytesToBits_bitsToBytes B)
  simp only [bytesToBits_length, List.length_take] at this
  omega

/-- Bit `7 - j` of byte `k` is bit `8*k + j` of the sequence (40_bit_packer.md R106). -/
theorem bitsToBytes_bit (B : List Bit) (k j : Nat) (b : Byte) (hk : (bitsToBytes B)[k]? = some b) (hj : j < 8) :
    B[8 * k + j]? = some (b.getLsbD (7 - j)) := by
  have h := bytesToBits_getElem? (bitsToBytes B) k j b hk hj
  rw [bytesToBits_bitsToBytes] at h
  have hlt : 8 * k + j < 8 * (B.length / 8) := by
    have := (List.getElem?_eq_some_iff.mp hk).1
    rw [bitsToBytes_length] at this; omega
  rwa [List.getElem?_take, if_pos hlt] at h

@[simp] theorem hdrBits_length (n : Nat) : (hdrBits n).length = 32 := by simp [hdrBits]

theorem hdrBits_getElem? (n i : Nat) (h : i < 32) : (hdrBits n)[i]? = some (n.testBit (31 - i)) := by
  rw [hdrBits, hdrBitCount, msbBits_getElem? _ _ _ h]

/-- `hdr_value(hdr_bits(n)) = n` for every `n` in `[0, 2^32)` (42_length_header.md R150). -/
theorem hdrValue_hdrBits (n : Nat) (h : n < 2 ^ 32) : hdrValue (hdrBits n) = n := by
  rw [hdrValue, hdrBits, msbValue_msbBits]
  exact Nat.mod_eq_of_lt h

end Sys2Proof.Machine
end

