-- ==== Sys2Proof/Laws/Memory.lean ====
section
/-! SUPPORT. Laws of memories: read after write, the canonical form is kept, and equal reads make equal memories. -/

namespace Sys2Proof.Machine

variable {α : Type}

/-- A cell reads as the value written to it, and every other cell as before (20_memory.md R60). -/
theorem Memory.cell_put (m : Memory α) (i j : Nat) (v : α) :
    (m.put i v).cell j = if j = i then some v else m.cell j := by
  induction m with
  | nil => simp [Memory.put, Memory.cell]
  | cons c m ih =>
    obtain ⟨k, x⟩ := c
    simp only [Memory.put]
    split
    · simp only [Memory.cell]
    · split
      · subst k; simp only [Memory.cell]; split <;> simp_all
      · simp only [Memory.cell, ih]
        split <;> split <;> first | rfl | (exfalso; omega)

@[simp] theorem Memory.cell_put_same (m : Memory α) (i : Nat) (v : α) : (m.put i v).cell i = some v := by
  simp [Memory.cell_put]

theorem Memory.cell_put_other (m : Memory α) (i j : Nat) (v : α) (h : j ≠ i) : (m.put i v).cell j = m.cell j := by
  simp [Memory.cell_put, h]

theorem Memory.risingFrom_mono (m : Memory α) (lo lo' : Nat) (h : lo' ≤ lo) (hm : m.risingFrom lo = true) :
    m.risingFrom lo' = true := by
  cases m with
  | nil => rfl
  | cons c m => simp_all [Memory.risingFrom]; omega

theorem Memory.risingFrom_put (m : Memory α) (lo i : Nat) (v : α) (hi : lo ≤ i) (hm : m.risingFrom lo = true) :
    (m.put i v).risingFrom lo = true := by
  induction m generalizing lo with
  | nil => simpa [Memory.put, Memory.risingFrom] using hi
  | cons c m ih =>
    obtain ⟨k, x⟩ := c
    simp only [Memory.risingFrom, Bool.and_eq_true, decide_eq_true_eq] at hm
    simp only [Memory.put]
    split
    · simp only [Memory.risingFrom, Bool.and_eq_true, decide_eq_true_eq]; exact ⟨hi, by omega, hm.2⟩
    · split
      · subst k; simp only [Memory.risingFrom, Bool.and_eq_true, decide_eq_true_eq]; exact hm
      · simp only [Memory.risingFrom, Bool.and_eq_true, decide_eq_true_eq]
        exact ⟨hm.1, ih _ (by omega) hm.2⟩

/-- A write keeps the canonical form. -/
@[simp] theorem Memory.wf_put (m : Memory α) (i : Nat) (v : α) (h : m.wf = true) : (m.put i v).wf = true :=
  Memory.risingFrom_put m 0 i v (Nat.zero_le i) h

/-- A write inside the memory lists no cell outside it. -/
theorem Memory.below_put (m : Memory α) (i size : Nat) (v : α) (hi : i < size) (h : m.below size = true) :
    (m.put i v).below size = true := by
  induction m with
  | nil => simpa [Memory.put, Memory.below] using hi
  | cons c m ih =>
    obtain ⟨k, x⟩ := c
    simp only [Memory.below, List.all_cons, Bool.and_eq_true, decide_eq_true_eq] at h ih ⊢
    simp only [Memory.put]
    split
    · simp only [List.all_cons, Bool.and_eq_true, decide_eq_true_eq]; exact ⟨hi, h⟩
    · split
      · simp only [List.all_cons, Bool.and_eq_true, decide_eq_true_eq]; exact ⟨hi, h.2⟩
      · simp only [List.all_cons, Bool.and_eq_true, decide_eq_true_eq]; exact ⟨h.1, ih h.2⟩

theorem Memory.cell_none_of_risingFrom (m : Memory α) (lo i : Nat) (hm : m.risingFrom lo = true) (hi : i < lo) :
    m.cell i = none := by
  induction m generalizing lo with
  | nil => rfl
  | cons c m ih =>
    obtain ⟨k, x⟩ := c
    simp only [Memory.risingFrom, Bool.and_eq_true, decide_eq_true_eq] at hm
    rw [Memory.cell, if_neg (by omega), ih (k + 1) hm.2 (by omega)]

/-- A memory lists nothing outside its size, so such a cell reads as no value. -/
theorem Memory.cell_none_of_below (m : Memory α) (size i : Nat) (h : m.below size = true) (hi : size ≤ i) :
    m.cell i = none := by
  induction m with
  | nil => rfl
  | cons c m ih =>
    obtain ⟨k, x⟩ := c
    simp only [Memory.below, List.all_cons, Bool.and_eq_true, decide_eq_true_eq] at h ih
    rw [Memory.cell, if_neg (by omega), ih h.2]

theorem Memory.ext_risingFrom (m m' : Memory α) (lo : Nat) (h : m.risingFrom lo = true) (h' : m'.risingFrom lo = true)
    (hc : ∀ i, m.cell i = m'.cell i) : m = m' := by
  induction m generalizing m' lo with
  | nil =>
    cases m' with
    | nil => rfl
    | cons c m' => have := hc c.1; simp [Memory.cell] at this
  | cons c m ih =>
    obtain ⟨k, x⟩ := c
    cases m' with
    | nil => have := hc k; simp [Memory.cell] at this
    | cons c' m' =>
      obtain ⟨k', x'⟩ := c'
      simp only [Memory.risingFrom, Bool.and_eq_true, decide_eq_true_eq] at h h'
      have hk : k = k' := by
        rcases Nat.lt_trichotomy k k' with hlt | heq | hlt
        · have := hc k
          rw [Memory.cell, if_pos rfl, Memory.cell, if_neg (by omega),
            Memory.cell_none_of_risingFrom m' (k' + 1) k h'.2 (by omega)] at this
          cases this
        · exact heq
        · have := hc k'
          rw [Memory.cell, if_neg (by omega), Memory.cell_none_of_risingFrom m (k + 1) k' h.2 (by omega),
            Memory.cell, if_pos rfl] at this
          cases this
      subst hk
      have hx : x = x' := by have := hc k; simpa [Memory.cell] using this
      subst hx
      congr 1
      refine ih m' (k + 1) h.2 h'.2 fun i => ?_
      have := hc i
      simp only [Memory.cell] at this
      split at this
      · subst i
        rw [Memory.cell_none_of_risingFrom m _ k h.2 (by omega), Memory.cell_none_of_risingFrom m' _ k h'.2 (by omega)]
      · exact this

/-- Memories in canonical form that read alike everywhere are equal. -/
theorem Memory.ext_cell (m m' : Memory α) (h : m.wf = true) (h' : m'.wf = true) (hc : ∀ i, m.cell i = m'.cell i) :
    m = m' :=
  Memory.ext_risingFrom m m' 0 h h' hc

theorem Memory.holds_iff (m : Memory α) (a n : Nat) :
    m.holds a n = true ↔ ∀ i, a ≤ i → i < a + n → ∃ x, m.cell i = some x := by
  induction n generalizing a with
  | zero => simp [Memory.holds]; intros; omega
  | succ n ih =>
    simp only [Memory.holds, Bool.and_eq_true, ih, Option.isSome_iff_exists]
    constructor
    · rintro ⟨h0, h⟩ i h1 h2
      rcases Nat.eq_or_lt_of_le h1 with rfl | hlt
      · exact h0
      · exact h i (by omega) (by omega)
    · intro h
      exact ⟨h a (by omega) (by omega), fun i h1 h2 => h i (by omega) (by omega)⟩

theorem Memory.holds_iff_isSome (m : Memory α) (a n : Nat) :
    m.holds a n = true ↔ ∀ i, i < n → (m.cell (a + i)).isSome = true := by
  rw [Memory.holds_iff]
  constructor
  · intro h i hi
    obtain ⟨x, hx⟩ := h (a + i) (by omega) (by omega)
    simp [hx]
  · intro h i h1 h2
    have := h (i - a) (by omega)
    rw [show a + (i - a) = i by omega] at this
    exact Option.isSome_iff_exists.mp this

theorem Memory.holds_congr {m m' : Memory α} {a n : Nat} (h : ∀ i, a ≤ i → i < a + n → m'.cell i = m.cell i) :
    m'.holds a n = m.holds a n := by
  induction n generalizing a with
  | zero => rfl
  | succ n ih =>
    simp only [Memory.holds, h a (by omega) (by omega)]
    rw [ih fun i h1 h2 => h i (by omega) (by omega)]

/-- Writing the value a cell holds leaves the memory as it is. -/
theorem Memory.put_same (m : Memory α) (i : Nat) (v : α) (hw : m.wf = true) (h : m.cell i = some v) : m.put i v = m :=
  Memory.ext_cell _ _ (Memory.wf_put _ _ _ hw) hw fun j => by rw [Memory.cell_put]; split <;> simp_all

@[simp] theorem Memory.lsbs_length (m : Memory Byte) (a n : Nat) : (m.lsbs a n).length = n := by
  induction n generalizing a with
  | zero => rfl
  | succ n ih => simp [Memory.lsbs, ih]

theorem Memory.lsbs_getElem? (m : Memory Byte) (a n t : Nat) (b : Byte) (ht : t < n) (hb : m.cell (a + t) = some b) :
    (m.lsbs a n)[t]? = some (lsb b) := by
  induction n generalizing a t with
  | zero => omega
  | succ n ih =>
    cases t with
    | zero => simp_all [Memory.lsbs]
    | succ t =>
      simp only [Memory.lsbs, List.getElem?_cons_succ]
      exact ih (a + 1) t (by omega) (by rw [← hb]; congr 1; omega)

/-- Two memories that agree on a run have the same LSBs there. -/
theorem Memory.lsbs_congr (m m' : Memory Byte) (a n : Nat) (h : ∀ i, a ≤ i → i < a + n → m.cell i = m'.cell i) :
    m.lsbs a n = m'.lsbs a n := by
  induction n generalizing a with
  | zero => rfl
  | succ n ih => simp only [Memory.lsbs]; rw [h a (by omega) (by omega), ih (a + 1) fun i h1 h2 => h i (by omega) (by omega)]

end Sys2Proof.Machine
end

