-- ==== Sys2Proof/Laws/State.lean ====
section
/-! SUPPORT. One lemma per field per update of State, true by rfl, and the derived readings (stream length, header, AVAIL), so that no proof unfolds a record update. -/

namespace Sys2Proof.Machine

variable (s : State)

@[simp] theorem State.withWidth_params (v : BitVec 16) : (s.withWidth v).params = s.params := rfl
@[simp] theorem State.withWidth_cur (v : BitVec 16) : (s.withWidth v).cur = s.cur := rfl
@[simp] theorem State.withWidth_busy (v : BitVec 16) : (s.withWidth v).busy = s.busy := rfl
@[simp] theorem State.withWidth_done (v : BitVec 16) : (s.withWidth v).done = s.done := rfl
@[simp] theorem State.withWidth_code (v : BitVec 16) : (s.withWidth v).code = s.code := rfl
@[simp] theorem State.withWidth_width (v : BitVec 16) : (s.withWidth v).width = v := rfl
@[simp] theorem State.withWidth_height (v : BitVec 16) : (s.withWidth v).height = s.height := rfl
@[simp] theorem State.withWidth_plen (v : BitVec 16) : (s.withWidth v).plen = s.plen := rfl
@[simp] theorem State.withWidth_nbits (v : BitVec 16) : (s.withWidth v).nbits = s.nbits := rfl
@[simp] theorem State.withWidth_idx (v : BitVec 16) : (s.withWidth v).idx = s.idx := rfl
@[simp] theorem State.withWidth_bitio (v : BitVec 16) : (s.withWidth v).bitio = s.bitio := rfl
@[simp] theorem State.withWidth_hdrval (v : BitVec 16) : (s.withWidth v).hdrval = s.hdrval := rfl
@[simp] theorem State.withWidth_maxb (v : BitVec 16) : (s.withWidth v).maxb = s.maxb := rfl
@[simp] theorem State.withWidth_pixcnt (v : BitVec 16) : (s.withWidth v).pixcnt = s.pixcnt := rfl
@[simp] theorem State.withWidth_availLo (v : BitVec 16) : (s.withWidth v).availLo = s.availLo := rfl
@[simp] theorem State.withWidth_availHi (v : BitVec 16) : (s.withWidth v).availHi = s.availHi := rfl
@[simp] theorem State.withWidth_rlen (v : BitVec 16) : (s.withWidth v).rlen = s.rlen := rfl
@[simp] theorem State.withWidth_valid (v : BitVec 16) : (s.withWidth v).valid = s.valid := rfl
@[simp] theorem State.withWidth_ch (v : BitVec 16) : (s.withWidth v).ch = s.ch := rfl
@[simp] theorem State.withWidth_pm (v : BitVec 16) : (s.withWidth v).pm = s.pm := rfl
@[simp] theorem State.withWidth_bm (v : BitVec 16) : (s.withWidth v).bm = s.bm := rfl
@[simp] theorem State.withWidth_moves (v : BitVec 16) : (s.withWidth v).moves = s.moves := rfl
@[simp] theorem State.withWidth_seen (v : BitVec 16) : (s.withWidth v).seen = s.seen := rfl
@[simp] theorem State.withWidth_draws (v : BitVec 16) : (s.withWidth v).draws = s.draws := rfl
@[simp] theorem State.withWidth_header (v : BitVec 16) : (s.withWidth v).header = s.header := rfl
@[simp] theorem State.withWidth_avail (v : BitVec 16) : (s.withWidth v).avail = s.avail := rfl

@[simp] theorem State.withHeight_params (v : BitVec 16) : (s.withHeight v).params = s.params := rfl
@[simp] theorem State.withHeight_cur (v : BitVec 16) : (s.withHeight v).cur = s.cur := rfl
@[simp] theorem State.withHeight_busy (v : BitVec 16) : (s.withHeight v).busy = s.busy := rfl
@[simp] theorem State.withHeight_done (v : BitVec 16) : (s.withHeight v).done = s.done := rfl
@[simp] theorem State.withHeight_code (v : BitVec 16) : (s.withHeight v).code = s.code := rfl
@[simp] theorem State.withHeight_width (v : BitVec 16) : (s.withHeight v).width = s.width := rfl
@[simp] theorem State.withHeight_height (v : BitVec 16) : (s.withHeight v).height = v := rfl
@[simp] theorem State.withHeight_plen (v : BitVec 16) : (s.withHeight v).plen = s.plen := rfl
@[simp] theorem State.withHeight_nbits (v : BitVec 16) : (s.withHeight v).nbits = s.nbits := rfl
@[simp] theorem State.withHeight_idx (v : BitVec 16) : (s.withHeight v).idx = s.idx := rfl
@[simp] theorem State.withHeight_bitio (v : BitVec 16) : (s.withHeight v).bitio = s.bitio := rfl
@[simp] theorem State.withHeight_hdrval (v : BitVec 16) : (s.withHeight v).hdrval = s.hdrval := rfl
@[simp] theorem State.withHeight_maxb (v : BitVec 16) : (s.withHeight v).maxb = s.maxb := rfl
@[simp] theorem State.withHeight_pixcnt (v : BitVec 16) : (s.withHeight v).pixcnt = s.pixcnt := rfl
@[simp] theorem State.withHeight_availLo (v : BitVec 16) : (s.withHeight v).availLo = s.availLo := rfl
@[simp] theorem State.withHeight_availHi (v : BitVec 16) : (s.withHeight v).availHi = s.availHi := rfl
@[simp] theorem State.withHeight_rlen (v : BitVec 16) : (s.withHeight v).rlen = s.rlen := rfl
@[simp] theorem State.withHeight_valid (v : BitVec 16) : (s.withHeight v).valid = s.valid := rfl
@[simp] theorem State.withHeight_ch (v : BitVec 16) : (s.withHeight v).ch = s.ch := rfl
@[simp] theorem State.withHeight_pm (v : BitVec 16) : (s.withHeight v).pm = s.pm := rfl
@[simp] theorem State.withHeight_bm (v : BitVec 16) : (s.withHeight v).bm = s.bm := rfl
@[simp] theorem State.withHeight_moves (v : BitVec 16) : (s.withHeight v).moves = s.moves := rfl
@[simp] theorem State.withHeight_seen (v : BitVec 16) : (s.withHeight v).seen = s.seen := rfl
@[simp] theorem State.withHeight_draws (v : BitVec 16) : (s.withHeight v).draws = s.draws := rfl
@[simp] theorem State.withHeight_header (v : BitVec 16) : (s.withHeight v).header = s.header := rfl
@[simp] theorem State.withHeight_avail (v : BitVec 16) : (s.withHeight v).avail = s.avail := rfl

@[simp] theorem State.withPlen_params (v : Word) : (s.withPlen v).params = s.params := rfl
@[simp] theorem State.withPlen_cur (v : Word) : (s.withPlen v).cur = s.cur := rfl
@[simp] theorem State.withPlen_busy (v : Word) : (s.withPlen v).busy = s.busy := rfl
@[simp] theorem State.withPlen_done (v : Word) : (s.withPlen v).done = s.done := rfl
@[simp] theorem State.withPlen_code (v : Word) : (s.withPlen v).code = s.code := rfl
@[simp] theorem State.withPlen_width (v : Word) : (s.withPlen v).width = s.width := rfl
@[simp] theorem State.withPlen_height (v : Word) : (s.withPlen v).height = s.height := rfl
@[simp] theorem State.withPlen_plen (v : Word) : (s.withPlen v).plen = v := rfl
@[simp] theorem State.withPlen_nbits (v : Word) : (s.withPlen v).nbits = s.nbits := rfl
@[simp] theorem State.withPlen_idx (v : Word) : (s.withPlen v).idx = s.idx := rfl
@[simp] theorem State.withPlen_bitio (v : Word) : (s.withPlen v).bitio = s.bitio := rfl
@[simp] theorem State.withPlen_hdrval (v : Word) : (s.withPlen v).hdrval = s.hdrval := rfl
@[simp] theorem State.withPlen_maxb (v : Word) : (s.withPlen v).maxb = s.maxb := rfl
@[simp] theorem State.withPlen_pixcnt (v : Word) : (s.withPlen v).pixcnt = s.pixcnt := rfl
@[simp] theorem State.withPlen_availLo (v : Word) : (s.withPlen v).availLo = s.availLo := rfl
@[simp] theorem State.withPlen_availHi (v : Word) : (s.withPlen v).availHi = s.availHi := rfl
@[simp] theorem State.withPlen_rlen (v : Word) : (s.withPlen v).rlen = s.rlen := rfl
@[simp] theorem State.withPlen_valid (v : Word) : (s.withPlen v).valid = s.valid := rfl
@[simp] theorem State.withPlen_ch (v : Word) : (s.withPlen v).ch = s.ch := rfl
@[simp] theorem State.withPlen_pm (v : Word) : (s.withPlen v).pm = s.pm := rfl
@[simp] theorem State.withPlen_bm (v : Word) : (s.withPlen v).bm = s.bm := rfl
@[simp] theorem State.withPlen_moves (v : Word) : (s.withPlen v).moves = s.moves := rfl
@[simp] theorem State.withPlen_seen (v : Word) : (s.withPlen v).seen = s.seen := rfl
@[simp] theorem State.withPlen_draws (v : Word) : (s.withPlen v).draws = s.draws := rfl
@[simp] theorem State.withPlen_streamLen (v : Word) : (s.withPlen v).streamLen = s.streamLen := rfl
@[simp] theorem State.withPlen_header (v : Word) : (s.withPlen v).header = s.header := rfl
@[simp] theorem State.withPlen_avail (v : Word) : (s.withPlen v).avail = s.avail := rfl

@[simp] theorem State.withNbits_params (v : Word) : (s.withNbits v).params = s.params := rfl
@[simp] theorem State.withNbits_cur (v : Word) : (s.withNbits v).cur = s.cur := rfl
@[simp] theorem State.withNbits_busy (v : Word) : (s.withNbits v).busy = s.busy := rfl
@[simp] theorem State.withNbits_done (v : Word) : (s.withNbits v).done = s.done := rfl
@[simp] theorem State.withNbits_code (v : Word) : (s.withNbits v).code = s.code := rfl
@[simp] theorem State.withNbits_width (v : Word) : (s.withNbits v).width = s.width := rfl
@[simp] theorem State.withNbits_height (v : Word) : (s.withNbits v).height = s.height := rfl
@[simp] theorem State.withNbits_plen (v : Word) : (s.withNbits v).plen = s.plen := rfl
@[simp] theorem State.withNbits_nbits (v : Word) : (s.withNbits v).nbits = v := rfl
@[simp] theorem State.withNbits_idx (v : Word) : (s.withNbits v).idx = s.idx := rfl
@[simp] theorem State.withNbits_bitio (v : Word) : (s.withNbits v).bitio = s.bitio := rfl
@[simp] theorem State.withNbits_hdrval (v : Word) : (s.withNbits v).hdrval = s.hdrval := rfl
@[simp] theorem State.withNbits_maxb (v : Word) : (s.withNbits v).maxb = s.maxb := rfl
@[simp] theorem State.withNbits_pixcnt (v : Word) : (s.withNbits v).pixcnt = s.pixcnt := rfl
@[simp] theorem State.withNbits_availLo (v : Word) : (s.withNbits v).availLo = s.availLo := rfl
@[simp] theorem State.withNbits_availHi (v : Word) : (s.withNbits v).availHi = s.availHi := rfl
@[simp] theorem State.withNbits_rlen (v : Word) : (s.withNbits v).rlen = s.rlen := rfl
@[simp] theorem State.withNbits_valid (v : Word) : (s.withNbits v).valid = s.valid := rfl
@[simp] theorem State.withNbits_ch (v : Word) : (s.withNbits v).ch = s.ch := rfl
@[simp] theorem State.withNbits_pm (v : Word) : (s.withNbits v).pm = s.pm := rfl
@[simp] theorem State.withNbits_bm (v : Word) : (s.withNbits v).bm = s.bm := rfl
@[simp] theorem State.withNbits_moves (v : Word) : (s.withNbits v).moves = s.moves := rfl
@[simp] theorem State.withNbits_seen (v : Word) : (s.withNbits v).seen = s.seen := rfl
@[simp] theorem State.withNbits_draws (v : Word) : (s.withNbits v).draws = s.draws := rfl
@[simp] theorem State.withNbits_streamLen (v : Word) : (s.withNbits v).streamLen = s.streamLen := rfl
@[simp] theorem State.withNbits_header (v : Word) : (s.withNbits v).header = s.header := rfl
@[simp] theorem State.withNbits_avail (v : Word) : (s.withNbits v).avail = s.avail := rfl

@[simp] theorem State.withIdx_params (v : Word) : (s.withIdx v).params = s.params := rfl
@[simp] theorem State.withIdx_cur (v : Word) : (s.withIdx v).cur = s.cur := rfl
@[simp] theorem State.withIdx_busy (v : Word) : (s.withIdx v).busy = s.busy := rfl
@[simp] theorem State.withIdx_done (v : Word) : (s.withIdx v).done = s.done := rfl
@[simp] theorem State.withIdx_code (v : Word) : (s.withIdx v).code = s.code := rfl
@[simp] theorem State.withIdx_width (v : Word) : (s.withIdx v).width = s.width := rfl
@[simp] theorem State.withIdx_height (v : Word) : (s.withIdx v).height = s.height := rfl
@[simp] theorem State.withIdx_plen (v : Word) : (s.withIdx v).plen = s.plen := rfl
@[simp] theorem State.withIdx_nbits (v : Word) : (s.withIdx v).nbits = s.nbits := rfl
@[simp] theorem State.withIdx_idx (v : Word) : (s.withIdx v).idx = v := rfl
@[simp] theorem State.withIdx_bitio (v : Word) : (s.withIdx v).bitio = s.bitio := rfl
@[simp] theorem State.withIdx_hdrval (v : Word) : (s.withIdx v).hdrval = s.hdrval := rfl
@[simp] theorem State.withIdx_maxb (v : Word) : (s.withIdx v).maxb = s.maxb := rfl
@[simp] theorem State.withIdx_pixcnt (v : Word) : (s.withIdx v).pixcnt = s.pixcnt := rfl
@[simp] theorem State.withIdx_availLo (v : Word) : (s.withIdx v).availLo = s.availLo := rfl
@[simp] theorem State.withIdx_availHi (v : Word) : (s.withIdx v).availHi = s.availHi := rfl
@[simp] theorem State.withIdx_rlen (v : Word) : (s.withIdx v).rlen = s.rlen := rfl
@[simp] theorem State.withIdx_valid (v : Word) : (s.withIdx v).valid = s.valid := rfl
@[simp] theorem State.withIdx_ch (v : Word) : (s.withIdx v).ch = s.ch := rfl
@[simp] theorem State.withIdx_pm (v : Word) : (s.withIdx v).pm = s.pm := rfl
@[simp] theorem State.withIdx_bm (v : Word) : (s.withIdx v).bm = s.bm := rfl
@[simp] theorem State.withIdx_moves (v : Word) : (s.withIdx v).moves = s.moves := rfl
@[simp] theorem State.withIdx_seen (v : Word) : (s.withIdx v).seen = s.seen := rfl
@[simp] theorem State.withIdx_draws (v : Word) : (s.withIdx v).draws = s.draws := rfl
@[simp] theorem State.withIdx_streamLen (v : Word) : (s.withIdx v).streamLen = s.streamLen := rfl
@[simp] theorem State.withIdx_header (v : Word) : (s.withIdx v).header = s.header := rfl
@[simp] theorem State.withIdx_avail (v : Word) : (s.withIdx v).avail = s.avail := rfl

@[simp] theorem State.withBitio_params (v : Bit) : (s.withBitio v).params = s.params := rfl
@[simp] theorem State.withBitio_cur (v : Bit) : (s.withBitio v).cur = s.cur := rfl
@[simp] theorem State.withBitio_busy (v : Bit) : (s.withBitio v).busy = s.busy := rfl
@[simp] theorem State.withBitio_done (v : Bit) : (s.withBitio v).done = s.done := rfl
@[simp] theorem State.withBitio_code (v : Bit) : (s.withBitio v).code = s.code := rfl
@[simp] theorem State.withBitio_width (v : Bit) : (s.withBitio v).width = s.width := rfl
@[simp] theorem State.withBitio_height (v : Bit) : (s.withBitio v).height = s.height := rfl
@[simp] theorem State.withBitio_plen (v : Bit) : (s.withBitio v).plen = s.plen := rfl
@[simp] theorem State.withBitio_nbits (v : Bit) : (s.withBitio v).nbits = s.nbits := rfl
@[simp] theorem State.withBitio_idx (v : Bit) : (s.withBitio v).idx = s.idx := rfl
@[simp] theorem State.withBitio_bitio (v : Bit) : (s.withBitio v).bitio = v := rfl
@[simp] theorem State.withBitio_hdrval (v : Bit) : (s.withBitio v).hdrval = s.hdrval := rfl
@[simp] theorem State.withBitio_maxb (v : Bit) : (s.withBitio v).maxb = s.maxb := rfl
@[simp] theorem State.withBitio_pixcnt (v : Bit) : (s.withBitio v).pixcnt = s.pixcnt := rfl
@[simp] theorem State.withBitio_availLo (v : Bit) : (s.withBitio v).availLo = s.availLo := rfl
@[simp] theorem State.withBitio_availHi (v : Bit) : (s.withBitio v).availHi = s.availHi := rfl
@[simp] theorem State.withBitio_rlen (v : Bit) : (s.withBitio v).rlen = s.rlen := rfl
@[simp] theorem State.withBitio_valid (v : Bit) : (s.withBitio v).valid = s.valid := rfl
@[simp] theorem State.withBitio_ch (v : Bit) : (s.withBitio v).ch = s.ch := rfl
@[simp] theorem State.withBitio_pm (v : Bit) : (s.withBitio v).pm = s.pm := rfl
@[simp] theorem State.withBitio_bm (v : Bit) : (s.withBitio v).bm = s.bm := rfl
@[simp] theorem State.withBitio_moves (v : Bit) : (s.withBitio v).moves = s.moves := rfl
@[simp] theorem State.withBitio_seen (v : Bit) : (s.withBitio v).seen = s.seen := rfl
@[simp] theorem State.withBitio_draws (v : Bit) : (s.withBitio v).draws = s.draws := rfl
@[simp] theorem State.withBitio_streamLen (v : Bit) : (s.withBitio v).streamLen = s.streamLen := rfl
@[simp] theorem State.withBitio_header (v : Bit) : (s.withBitio v).header = s.header := rfl
@[simp] theorem State.withBitio_avail (v : Bit) : (s.withBitio v).avail = s.avail := rfl

@[simp] theorem State.withHdrval_params (v : Word) : (s.withHdrval v).params = s.params := rfl
@[simp] theorem State.withHdrval_cur (v : Word) : (s.withHdrval v).cur = s.cur := rfl
@[simp] theorem State.withHdrval_busy (v : Word) : (s.withHdrval v).busy = s.busy := rfl
@[simp] theorem State.withHdrval_done (v : Word) : (s.withHdrval v).done = s.done := rfl
@[simp] theorem State.withHdrval_code (v : Word) : (s.withHdrval v).code = s.code := rfl
@[simp] theorem State.withHdrval_width (v : Word) : (s.withHdrval v).width = s.width := rfl
@[simp] theorem State.withHdrval_height (v : Word) : (s.withHdrval v).height = s.height := rfl
@[simp] theorem State.withHdrval_plen (v : Word) : (s.withHdrval v).plen = s.plen := rfl
@[simp] theorem State.withHdrval_nbits (v : Word) : (s.withHdrval v).nbits = s.nbits := rfl
@[simp] theorem State.withHdrval_idx (v : Word) : (s.withHdrval v).idx = s.idx := rfl
@[simp] theorem State.withHdrval_bitio (v : Word) : (s.withHdrval v).bitio = s.bitio := rfl
@[simp] theorem State.withHdrval_hdrval (v : Word) : (s.withHdrval v).hdrval = v := rfl
@[simp] theorem State.withHdrval_maxb (v : Word) : (s.withHdrval v).maxb = s.maxb := rfl
@[simp] theorem State.withHdrval_pixcnt (v : Word) : (s.withHdrval v).pixcnt = s.pixcnt := rfl
@[simp] theorem State.withHdrval_availLo (v : Word) : (s.withHdrval v).availLo = s.availLo := rfl
@[simp] theorem State.withHdrval_availHi (v : Word) : (s.withHdrval v).availHi = s.availHi := rfl
@[simp] theorem State.withHdrval_rlen (v : Word) : (s.withHdrval v).rlen = s.rlen := rfl
@[simp] theorem State.withHdrval_valid (v : Word) : (s.withHdrval v).valid = s.valid := rfl
@[simp] theorem State.withHdrval_ch (v : Word) : (s.withHdrval v).ch = s.ch := rfl
@[simp] theorem State.withHdrval_pm (v : Word) : (s.withHdrval v).pm = s.pm := rfl
@[simp] theorem State.withHdrval_bm (v : Word) : (s.withHdrval v).bm = s.bm := rfl
@[simp] theorem State.withHdrval_moves (v : Word) : (s.withHdrval v).moves = s.moves := rfl
@[simp] theorem State.withHdrval_seen (v : Word) : (s.withHdrval v).seen = s.seen := rfl
@[simp] theorem State.withHdrval_draws (v : Word) : (s.withHdrval v).draws = s.draws := rfl
@[simp] theorem State.withHdrval_streamLen (v : Word) : (s.withHdrval v).streamLen = s.streamLen := rfl
@[simp] theorem State.withHdrval_header (v : Word) : (s.withHdrval v).header = s.header := rfl
@[simp] theorem State.withHdrval_avail (v : Word) : (s.withHdrval v).avail = s.avail := rfl

@[simp] theorem State.withMaxb_params (v : Word) : (s.withMaxb v).params = s.params := rfl
@[simp] theorem State.withMaxb_cur (v : Word) : (s.withMaxb v).cur = s.cur := rfl
@[simp] theorem State.withMaxb_busy (v : Word) : (s.withMaxb v).busy = s.busy := rfl
@[simp] theorem State.withMaxb_done (v : Word) : (s.withMaxb v).done = s.done := rfl
@[simp] theorem State.withMaxb_code (v : Word) : (s.withMaxb v).code = s.code := rfl
@[simp] theorem State.withMaxb_width (v : Word) : (s.withMaxb v).width = s.width := rfl
@[simp] theorem State.withMaxb_height (v : Word) : (s.withMaxb v).height = s.height := rfl
@[simp] theorem State.withMaxb_plen (v : Word) : (s.withMaxb v).plen = s.plen := rfl
@[simp] theorem State.withMaxb_nbits (v : Word) : (s.withMaxb v).nbits = s.nbits := rfl
@[simp] theorem State.withMaxb_idx (v : Word) : (s.withMaxb v).idx = s.idx := rfl
@[simp] theorem State.withMaxb_bitio (v : Word) : (s.withMaxb v).bitio = s.bitio := rfl
@[simp] theorem State.withMaxb_hdrval (v : Word) : (s.withMaxb v).hdrval = s.hdrval := rfl
@[simp] theorem State.withMaxb_maxb (v : Word) : (s.withMaxb v).maxb = v := rfl
@[simp] theorem State.withMaxb_pixcnt (v : Word) : (s.withMaxb v).pixcnt = s.pixcnt := rfl
@[simp] theorem State.withMaxb_availLo (v : Word) : (s.withMaxb v).availLo = s.availLo := rfl
@[simp] theorem State.withMaxb_availHi (v : Word) : (s.withMaxb v).availHi = s.availHi := rfl
@[simp] theorem State.withMaxb_rlen (v : Word) : (s.withMaxb v).rlen = s.rlen := rfl
@[simp] theorem State.withMaxb_valid (v : Word) : (s.withMaxb v).valid = s.valid := rfl
@[simp] theorem State.withMaxb_ch (v : Word) : (s.withMaxb v).ch = s.ch := rfl
@[simp] theorem State.withMaxb_pm (v : Word) : (s.withMaxb v).pm = s.pm := rfl
@[simp] theorem State.withMaxb_bm (v : Word) : (s.withMaxb v).bm = s.bm := rfl
@[simp] theorem State.withMaxb_moves (v : Word) : (s.withMaxb v).moves = s.moves := rfl
@[simp] theorem State.withMaxb_seen (v : Word) : (s.withMaxb v).seen = s.seen := rfl
@[simp] theorem State.withMaxb_draws (v : Word) : (s.withMaxb v).draws = s.draws := rfl
@[simp] theorem State.withMaxb_streamLen (v : Word) : (s.withMaxb v).streamLen = s.streamLen := rfl
@[simp] theorem State.withMaxb_header (v : Word) : (s.withMaxb v).header = s.header := rfl
@[simp] theorem State.withMaxb_avail (v : Word) : (s.withMaxb v).avail = s.avail := rfl

@[simp] theorem State.withPixcnt_params (v : Word) : (s.withPixcnt v).params = s.params := rfl
@[simp] theorem State.withPixcnt_cur (v : Word) : (s.withPixcnt v).cur = s.cur := rfl
@[simp] theorem State.withPixcnt_busy (v : Word) : (s.withPixcnt v).busy = s.busy := rfl
@[simp] theorem State.withPixcnt_done (v : Word) : (s.withPixcnt v).done = s.done := rfl
@[simp] theorem State.withPixcnt_code (v : Word) : (s.withPixcnt v).code = s.code := rfl
@[simp] theorem State.withPixcnt_width (v : Word) : (s.withPixcnt v).width = s.width := rfl
@[simp] theorem State.withPixcnt_height (v : Word) : (s.withPixcnt v).height = s.height := rfl
@[simp] theorem State.withPixcnt_plen (v : Word) : (s.withPixcnt v).plen = s.plen := rfl
@[simp] theorem State.withPixcnt_nbits (v : Word) : (s.withPixcnt v).nbits = s.nbits := rfl
@[simp] theorem State.withPixcnt_idx (v : Word) : (s.withPixcnt v).idx = s.idx := rfl
@[simp] theorem State.withPixcnt_bitio (v : Word) : (s.withPixcnt v).bitio = s.bitio := rfl
@[simp] theorem State.withPixcnt_hdrval (v : Word) : (s.withPixcnt v).hdrval = s.hdrval := rfl
@[simp] theorem State.withPixcnt_maxb (v : Word) : (s.withPixcnt v).maxb = s.maxb := rfl
@[simp] theorem State.withPixcnt_pixcnt (v : Word) : (s.withPixcnt v).pixcnt = v := rfl
@[simp] theorem State.withPixcnt_availLo (v : Word) : (s.withPixcnt v).availLo = s.availLo := rfl
@[simp] theorem State.withPixcnt_availHi (v : Word) : (s.withPixcnt v).availHi = s.availHi := rfl
@[simp] theorem State.withPixcnt_rlen (v : Word) : (s.withPixcnt v).rlen = s.rlen := rfl
@[simp] theorem State.withPixcnt_valid (v : Word) : (s.withPixcnt v).valid = s.valid := rfl
@[simp] theorem State.withPixcnt_ch (v : Word) : (s.withPixcnt v).ch = s.ch := rfl
@[simp] theorem State.withPixcnt_pm (v : Word) : (s.withPixcnt v).pm = s.pm := rfl
@[simp] theorem State.withPixcnt_bm (v : Word) : (s.withPixcnt v).bm = s.bm := rfl
@[simp] theorem State.withPixcnt_moves (v : Word) : (s.withPixcnt v).moves = s.moves := rfl
@[simp] theorem State.withPixcnt_seen (v : Word) : (s.withPixcnt v).seen = s.seen := rfl
@[simp] theorem State.withPixcnt_draws (v : Word) : (s.withPixcnt v).draws = s.draws := rfl
@[simp] theorem State.withPixcnt_streamLen (v : Word) : (s.withPixcnt v).streamLen = s.streamLen := rfl
@[simp] theorem State.withPixcnt_header (v : Word) : (s.withPixcnt v).header = s.header := rfl
@[simp] theorem State.withPixcnt_avail (v : Word) : (s.withPixcnt v).avail = s.avail := rfl

@[simp] theorem State.withRlen_params (v : Word) : (s.withRlen v).params = s.params := rfl
@[simp] theorem State.withRlen_cur (v : Word) : (s.withRlen v).cur = s.cur := rfl
@[simp] theorem State.withRlen_busy (v : Word) : (s.withRlen v).busy = s.busy := rfl
@[simp] theorem State.withRlen_done (v : Word) : (s.withRlen v).done = s.done := rfl
@[simp] theorem State.withRlen_code (v : Word) : (s.withRlen v).code = s.code := rfl
@[simp] theorem State.withRlen_width (v : Word) : (s.withRlen v).width = s.width := rfl
@[simp] theorem State.withRlen_height (v : Word) : (s.withRlen v).height = s.height := rfl
@[simp] theorem State.withRlen_plen (v : Word) : (s.withRlen v).plen = s.plen := rfl
@[simp] theorem State.withRlen_nbits (v : Word) : (s.withRlen v).nbits = s.nbits := rfl
@[simp] theorem State.withRlen_idx (v : Word) : (s.withRlen v).idx = s.idx := rfl
@[simp] theorem State.withRlen_bitio (v : Word) : (s.withRlen v).bitio = s.bitio := rfl
@[simp] theorem State.withRlen_hdrval (v : Word) : (s.withRlen v).hdrval = s.hdrval := rfl
@[simp] theorem State.withRlen_maxb (v : Word) : (s.withRlen v).maxb = s.maxb := rfl
@[simp] theorem State.withRlen_pixcnt (v : Word) : (s.withRlen v).pixcnt = s.pixcnt := rfl
@[simp] theorem State.withRlen_availLo (v : Word) : (s.withRlen v).availLo = s.availLo := rfl
@[simp] theorem State.withRlen_availHi (v : Word) : (s.withRlen v).availHi = s.availHi := rfl
@[simp] theorem State.withRlen_rlen (v : Word) : (s.withRlen v).rlen = v := rfl
@[simp] theorem State.withRlen_valid (v : Word) : (s.withRlen v).valid = s.valid := rfl
@[simp] theorem State.withRlen_ch (v : Word) : (s.withRlen v).ch = s.ch := rfl
@[simp] theorem State.withRlen_pm (v : Word) : (s.withRlen v).pm = s.pm := rfl
@[simp] theorem State.withRlen_bm (v : Word) : (s.withRlen v).bm = s.bm := rfl
@[simp] theorem State.withRlen_moves (v : Word) : (s.withRlen v).moves = s.moves := rfl
@[simp] theorem State.withRlen_seen (v : Word) : (s.withRlen v).seen = s.seen := rfl
@[simp] theorem State.withRlen_draws (v : Word) : (s.withRlen v).draws = s.draws := rfl
@[simp] theorem State.withRlen_streamLen (v : Word) : (s.withRlen v).streamLen = s.streamLen := rfl
@[simp] theorem State.withRlen_header (v : Word) : (s.withRlen v).header = s.header := rfl
@[simp] theorem State.withRlen_avail (v : Word) : (s.withRlen v).avail = s.avail := rfl

@[simp] theorem State.withValid_params (v : Bool) : (s.withValid v).params = s.params := rfl
@[simp] theorem State.withValid_cur (v : Bool) : (s.withValid v).cur = s.cur := rfl
@[simp] theorem State.withValid_busy (v : Bool) : (s.withValid v).busy = s.busy := rfl
@[simp] theorem State.withValid_done (v : Bool) : (s.withValid v).done = s.done := rfl
@[simp] theorem State.withValid_code (v : Bool) : (s.withValid v).code = s.code := rfl
@[simp] theorem State.withValid_width (v : Bool) : (s.withValid v).width = s.width := rfl
@[simp] theorem State.withValid_height (v : Bool) : (s.withValid v).height = s.height := rfl
@[simp] theorem State.withValid_plen (v : Bool) : (s.withValid v).plen = s.plen := rfl
@[simp] theorem State.withValid_nbits (v : Bool) : (s.withValid v).nbits = s.nbits := rfl
@[simp] theorem State.withValid_idx (v : Bool) : (s.withValid v).idx = s.idx := rfl
@[simp] theorem State.withValid_bitio (v : Bool) : (s.withValid v).bitio = s.bitio := rfl
@[simp] theorem State.withValid_hdrval (v : Bool) : (s.withValid v).hdrval = s.hdrval := rfl
@[simp] theorem State.withValid_maxb (v : Bool) : (s.withValid v).maxb = s.maxb := rfl
@[simp] theorem State.withValid_pixcnt (v : Bool) : (s.withValid v).pixcnt = s.pixcnt := rfl
@[simp] theorem State.withValid_availLo (v : Bool) : (s.withValid v).availLo = s.availLo := rfl
@[simp] theorem State.withValid_availHi (v : Bool) : (s.withValid v).availHi = s.availHi := rfl
@[simp] theorem State.withValid_rlen (v : Bool) : (s.withValid v).rlen = s.rlen := rfl
@[simp] theorem State.withValid_valid (v : Bool) : (s.withValid v).valid = v := rfl
@[simp] theorem State.withValid_ch (v : Bool) : (s.withValid v).ch = s.ch := rfl
@[simp] theorem State.withValid_pm (v : Bool) : (s.withValid v).pm = s.pm := rfl
@[simp] theorem State.withValid_bm (v : Bool) : (s.withValid v).bm = s.bm := rfl
@[simp] theorem State.withValid_moves (v : Bool) : (s.withValid v).moves = s.moves := rfl
@[simp] theorem State.withValid_seen (v : Bool) : (s.withValid v).seen = s.seen := rfl
@[simp] theorem State.withValid_draws (v : Bool) : (s.withValid v).draws = s.draws := rfl
@[simp] theorem State.withValid_streamLen (v : Bool) : (s.withValid v).streamLen = s.streamLen := rfl
@[simp] theorem State.withValid_header (v : Bool) : (s.withValid v).header = s.header := rfl
@[simp] theorem State.withValid_avail (v : Bool) : (s.withValid v).avail = s.avail := rfl

@[simp] theorem State.withCh_params (v : Memory Byte) : (s.withCh v).params = s.params := rfl
@[simp] theorem State.withCh_cur (v : Memory Byte) : (s.withCh v).cur = s.cur := rfl
@[simp] theorem State.withCh_busy (v : Memory Byte) : (s.withCh v).busy = s.busy := rfl
@[simp] theorem State.withCh_done (v : Memory Byte) : (s.withCh v).done = s.done := rfl
@[simp] theorem State.withCh_code (v : Memory Byte) : (s.withCh v).code = s.code := rfl
@[simp] theorem State.withCh_width (v : Memory Byte) : (s.withCh v).width = s.width := rfl
@[simp] theorem State.withCh_height (v : Memory Byte) : (s.withCh v).height = s.height := rfl
@[simp] theorem State.withCh_plen (v : Memory Byte) : (s.withCh v).plen = s.plen := rfl
@[simp] theorem State.withCh_nbits (v : Memory Byte) : (s.withCh v).nbits = s.nbits := rfl
@[simp] theorem State.withCh_idx (v : Memory Byte) : (s.withCh v).idx = s.idx := rfl
@[simp] theorem State.withCh_bitio (v : Memory Byte) : (s.withCh v).bitio = s.bitio := rfl
@[simp] theorem State.withCh_hdrval (v : Memory Byte) : (s.withCh v).hdrval = s.hdrval := rfl
@[simp] theorem State.withCh_maxb (v : Memory Byte) : (s.withCh v).maxb = s.maxb := rfl
@[simp] theorem State.withCh_pixcnt (v : Memory Byte) : (s.withCh v).pixcnt = s.pixcnt := rfl
@[simp] theorem State.withCh_availLo (v : Memory Byte) : (s.withCh v).availLo = s.availLo := rfl
@[simp] theorem State.withCh_availHi (v : Memory Byte) : (s.withCh v).availHi = s.availHi := rfl
@[simp] theorem State.withCh_rlen (v : Memory Byte) : (s.withCh v).rlen = s.rlen := rfl
@[simp] theorem State.withCh_valid (v : Memory Byte) : (s.withCh v).valid = s.valid := rfl
@[simp] theorem State.withCh_ch (v : Memory Byte) : (s.withCh v).ch = v := rfl
@[simp] theorem State.withCh_pm (v : Memory Byte) : (s.withCh v).pm = s.pm := rfl
@[simp] theorem State.withCh_bm (v : Memory Byte) : (s.withCh v).bm = s.bm := rfl
@[simp] theorem State.withCh_moves (v : Memory Byte) : (s.withCh v).moves = s.moves := rfl
@[simp] theorem State.withCh_seen (v : Memory Byte) : (s.withCh v).seen = s.seen := rfl
@[simp] theorem State.withCh_draws (v : Memory Byte) : (s.withCh v).draws = s.draws := rfl
@[simp] theorem State.withCh_streamLen (v : Memory Byte) : (s.withCh v).streamLen = s.streamLen := rfl
@[simp] theorem State.withCh_avail (v : Memory Byte) : (s.withCh v).avail = s.avail := rfl

@[simp] theorem State.withPm_params (v : Memory Byte) : (s.withPm v).params = s.params := rfl
@[simp] theorem State.withPm_cur (v : Memory Byte) : (s.withPm v).cur = s.cur := rfl
@[simp] theorem State.withPm_busy (v : Memory Byte) : (s.withPm v).busy = s.busy := rfl
@[simp] theorem State.withPm_done (v : Memory Byte) : (s.withPm v).done = s.done := rfl
@[simp] theorem State.withPm_code (v : Memory Byte) : (s.withPm v).code = s.code := rfl
@[simp] theorem State.withPm_width (v : Memory Byte) : (s.withPm v).width = s.width := rfl
@[simp] theorem State.withPm_height (v : Memory Byte) : (s.withPm v).height = s.height := rfl
@[simp] theorem State.withPm_plen (v : Memory Byte) : (s.withPm v).plen = s.plen := rfl
@[simp] theorem State.withPm_nbits (v : Memory Byte) : (s.withPm v).nbits = s.nbits := rfl
@[simp] theorem State.withPm_idx (v : Memory Byte) : (s.withPm v).idx = s.idx := rfl
@[simp] theorem State.withPm_bitio (v : Memory Byte) : (s.withPm v).bitio = s.bitio := rfl
@[simp] theorem State.withPm_hdrval (v : Memory Byte) : (s.withPm v).hdrval = s.hdrval := rfl
@[simp] theorem State.withPm_maxb (v : Memory Byte) : (s.withPm v).maxb = s.maxb := rfl
@[simp] theorem State.withPm_pixcnt (v : Memory Byte) : (s.withPm v).pixcnt = s.pixcnt := rfl
@[simp] theorem State.withPm_availLo (v : Memory Byte) : (s.withPm v).availLo = s.availLo := rfl
@[simp] theorem State.withPm_availHi (v : Memory Byte) : (s.withPm v).availHi = s.availHi := rfl
@[simp] theorem State.withPm_rlen (v : Memory Byte) : (s.withPm v).rlen = s.rlen := rfl
@[simp] theorem State.withPm_valid (v : Memory Byte) : (s.withPm v).valid = s.valid := rfl
@[simp] theorem State.withPm_ch (v : Memory Byte) : (s.withPm v).ch = s.ch := rfl
@[simp] theorem State.withPm_pm (v : Memory Byte) : (s.withPm v).pm = v := rfl
@[simp] theorem State.withPm_bm (v : Memory Byte) : (s.withPm v).bm = s.bm := rfl
@[simp] theorem State.withPm_moves (v : Memory Byte) : (s.withPm v).moves = s.moves := rfl
@[simp] theorem State.withPm_seen (v : Memory Byte) : (s.withPm v).seen = s.seen := rfl
@[simp] theorem State.withPm_draws (v : Memory Byte) : (s.withPm v).draws = s.draws := rfl
@[simp] theorem State.withPm_streamLen (v : Memory Byte) : (s.withPm v).streamLen = s.streamLen := rfl
@[simp] theorem State.withPm_header (v : Memory Byte) : (s.withPm v).header = s.header := rfl
@[simp] theorem State.withPm_avail (v : Memory Byte) : (s.withPm v).avail = s.avail := rfl

@[simp] theorem State.withBm_params (v : Memory Bit) : (s.withBm v).params = s.params := rfl
@[simp] theorem State.withBm_cur (v : Memory Bit) : (s.withBm v).cur = s.cur := rfl
@[simp] theorem State.withBm_busy (v : Memory Bit) : (s.withBm v).busy = s.busy := rfl
@[simp] theorem State.withBm_done (v : Memory Bit) : (s.withBm v).done = s.done := rfl
@[simp] theorem State.withBm_code (v : Memory Bit) : (s.withBm v).code = s.code := rfl
@[simp] theorem State.withBm_width (v : Memory Bit) : (s.withBm v).width = s.width := rfl
@[simp] theorem State.withBm_height (v : Memory Bit) : (s.withBm v).height = s.height := rfl
@[simp] theorem State.withBm_plen (v : Memory Bit) : (s.withBm v).plen = s.plen := rfl
@[simp] theorem State.withBm_nbits (v : Memory Bit) : (s.withBm v).nbits = s.nbits := rfl
@[simp] theorem State.withBm_idx (v : Memory Bit) : (s.withBm v).idx = s.idx := rfl
@[simp] theorem State.withBm_bitio (v : Memory Bit) : (s.withBm v).bitio = s.bitio := rfl
@[simp] theorem State.withBm_hdrval (v : Memory Bit) : (s.withBm v).hdrval = s.hdrval := rfl
@[simp] theorem State.withBm_maxb (v : Memory Bit) : (s.withBm v).maxb = s.maxb := rfl
@[simp] theorem State.withBm_pixcnt (v : Memory Bit) : (s.withBm v).pixcnt = s.pixcnt := rfl
@[simp] theorem State.withBm_availLo (v : Memory Bit) : (s.withBm v).availLo = s.availLo := rfl
@[simp] theorem State.withBm_availHi (v : Memory Bit) : (s.withBm v).availHi = s.availHi := rfl
@[simp] theorem State.withBm_rlen (v : Memory Bit) : (s.withBm v).rlen = s.rlen := rfl
@[simp] theorem State.withBm_valid (v : Memory Bit) : (s.withBm v).valid = s.valid := rfl
@[simp] theorem State.withBm_ch (v : Memory Bit) : (s.withBm v).ch = s.ch := rfl
@[simp] theorem State.withBm_pm (v : Memory Bit) : (s.withBm v).pm = s.pm := rfl
@[simp] theorem State.withBm_bm (v : Memory Bit) : (s.withBm v).bm = v := rfl
@[simp] theorem State.withBm_moves (v : Memory Bit) : (s.withBm v).moves = s.moves := rfl
@[simp] theorem State.withBm_seen (v : Memory Bit) : (s.withBm v).seen = s.seen := rfl
@[simp] theorem State.withBm_draws (v : Memory Bit) : (s.withBm v).draws = s.draws := rfl
@[simp] theorem State.withBm_streamLen (v : Memory Bit) : (s.withBm v).streamLen = s.streamLen := rfl
@[simp] theorem State.withBm_header (v : Memory Bit) : (s.withBm v).header = s.header := rfl
@[simp] theorem State.withBm_avail (v : Memory Bit) : (s.withBm v).avail = s.avail := rfl

@[simp] theorem State.withMoves_params (v : List Move) : (s.withMoves v).params = s.params := rfl
@[simp] theorem State.withMoves_cur (v : List Move) : (s.withMoves v).cur = s.cur := rfl
@[simp] theorem State.withMoves_busy (v : List Move) : (s.withMoves v).busy = s.busy := rfl
@[simp] theorem State.withMoves_done (v : List Move) : (s.withMoves v).done = s.done := rfl
@[simp] theorem State.withMoves_code (v : List Move) : (s.withMoves v).code = s.code := rfl
@[simp] theorem State.withMoves_width (v : List Move) : (s.withMoves v).width = s.width := rfl
@[simp] theorem State.withMoves_height (v : List Move) : (s.withMoves v).height = s.height := rfl
@[simp] theorem State.withMoves_plen (v : List Move) : (s.withMoves v).plen = s.plen := rfl
@[simp] theorem State.withMoves_nbits (v : List Move) : (s.withMoves v).nbits = s.nbits := rfl
@[simp] theorem State.withMoves_idx (v : List Move) : (s.withMoves v).idx = s.idx := rfl
@[simp] theorem State.withMoves_bitio (v : List Move) : (s.withMoves v).bitio = s.bitio := rfl
@[simp] theorem State.withMoves_hdrval (v : List Move) : (s.withMoves v).hdrval = s.hdrval := rfl
@[simp] theorem State.withMoves_maxb (v : List Move) : (s.withMoves v).maxb = s.maxb := rfl
@[simp] theorem State.withMoves_pixcnt (v : List Move) : (s.withMoves v).pixcnt = s.pixcnt := rfl
@[simp] theorem State.withMoves_availLo (v : List Move) : (s.withMoves v).availLo = s.availLo := rfl
@[simp] theorem State.withMoves_availHi (v : List Move) : (s.withMoves v).availHi = s.availHi := rfl
@[simp] theorem State.withMoves_rlen (v : List Move) : (s.withMoves v).rlen = s.rlen := rfl
@[simp] theorem State.withMoves_valid (v : List Move) : (s.withMoves v).valid = s.valid := rfl
@[simp] theorem State.withMoves_ch (v : List Move) : (s.withMoves v).ch = s.ch := rfl
@[simp] theorem State.withMoves_pm (v : List Move) : (s.withMoves v).pm = s.pm := rfl
@[simp] theorem State.withMoves_bm (v : List Move) : (s.withMoves v).bm = s.bm := rfl
@[simp] theorem State.withMoves_moves (v : List Move) : (s.withMoves v).moves = v := rfl
@[simp] theorem State.withMoves_seen (v : List Move) : (s.withMoves v).seen = s.seen := rfl
@[simp] theorem State.withMoves_draws (v : List Move) : (s.withMoves v).draws = s.draws := rfl
@[simp] theorem State.withMoves_streamLen (v : List Move) : (s.withMoves v).streamLen = s.streamLen := rfl
@[simp] theorem State.withMoves_header (v : List Move) : (s.withMoves v).header = s.header := rfl
@[simp] theorem State.withMoves_avail (v : List Move) : (s.withMoves v).avail = s.avail := rfl

@[simp] theorem State.withAvail_params (v : BitVec 64) : (s.withAvail v).params = s.params := rfl
@[simp] theorem State.withAvail_cur (v : BitVec 64) : (s.withAvail v).cur = s.cur := rfl
@[simp] theorem State.withAvail_busy (v : BitVec 64) : (s.withAvail v).busy = s.busy := rfl
@[simp] theorem State.withAvail_done (v : BitVec 64) : (s.withAvail v).done = s.done := rfl
@[simp] theorem State.withAvail_code (v : BitVec 64) : (s.withAvail v).code = s.code := rfl
@[simp] theorem State.withAvail_width (v : BitVec 64) : (s.withAvail v).width = s.width := rfl
@[simp] theorem State.withAvail_height (v : BitVec 64) : (s.withAvail v).height = s.height := rfl
@[simp] theorem State.withAvail_plen (v : BitVec 64) : (s.withAvail v).plen = s.plen := rfl
@[simp] theorem State.withAvail_nbits (v : BitVec 64) : (s.withAvail v).nbits = s.nbits := rfl
@[simp] theorem State.withAvail_idx (v : BitVec 64) : (s.withAvail v).idx = s.idx := rfl
@[simp] theorem State.withAvail_bitio (v : BitVec 64) : (s.withAvail v).bitio = s.bitio := rfl
@[simp] theorem State.withAvail_hdrval (v : BitVec 64) : (s.withAvail v).hdrval = s.hdrval := rfl
@[simp] theorem State.withAvail_maxb (v : BitVec 64) : (s.withAvail v).maxb = s.maxb := rfl
@[simp] theorem State.withAvail_pixcnt (v : BitVec 64) : (s.withAvail v).pixcnt = s.pixcnt := rfl
@[simp] theorem State.withAvail_availLo (v : BitVec 64) : (s.withAvail v).availLo = v.extractLsb' 0 32 := rfl
@[simp] theorem State.withAvail_availHi (v : BitVec 64) : (s.withAvail v).availHi = v.extractLsb' 32 32 := rfl
@[simp] theorem State.withAvail_rlen (v : BitVec 64) : (s.withAvail v).rlen = s.rlen := rfl
@[simp] theorem State.withAvail_valid (v : BitVec 64) : (s.withAvail v).valid = s.valid := rfl
@[simp] theorem State.withAvail_ch (v : BitVec 64) : (s.withAvail v).ch = s.ch := rfl
@[simp] theorem State.withAvail_pm (v : BitVec 64) : (s.withAvail v).pm = s.pm := rfl
@[simp] theorem State.withAvail_bm (v : BitVec 64) : (s.withAvail v).bm = s.bm := rfl
@[simp] theorem State.withAvail_moves (v : BitVec 64) : (s.withAvail v).moves = s.moves := rfl
@[simp] theorem State.withAvail_seen (v : BitVec 64) : (s.withAvail v).seen = s.seen := rfl
@[simp] theorem State.withAvail_draws (v : BitVec 64) : (s.withAvail v).draws = s.draws := rfl
@[simp] theorem State.withAvail_streamLen (v : BitVec 64) : (s.withAvail v).streamLen = s.streamLen := rfl
@[simp] theorem State.withAvail_header (v : BitVec 64) : (s.withAvail v).header = s.header := rfl

@[simp] theorem State.saw_params (v : HostRead) : (s.saw v).params = s.params := rfl
@[simp] theorem State.saw_cur (v : HostRead) : (s.saw v).cur = s.cur := rfl
@[simp] theorem State.saw_busy (v : HostRead) : (s.saw v).busy = s.busy := rfl
@[simp] theorem State.saw_done (v : HostRead) : (s.saw v).done = s.done := rfl
@[simp] theorem State.saw_code (v : HostRead) : (s.saw v).code = s.code := rfl
@[simp] theorem State.saw_width (v : HostRead) : (s.saw v).width = s.width := rfl
@[simp] theorem State.saw_height (v : HostRead) : (s.saw v).height = s.height := rfl
@[simp] theorem State.saw_plen (v : HostRead) : (s.saw v).plen = s.plen := rfl
@[simp] theorem State.saw_nbits (v : HostRead) : (s.saw v).nbits = s.nbits := rfl
@[simp] theorem State.saw_idx (v : HostRead) : (s.saw v).idx = s.idx := rfl
@[simp] theorem State.saw_bitio (v : HostRead) : (s.saw v).bitio = s.bitio := rfl
@[simp] theorem State.saw_hdrval (v : HostRead) : (s.saw v).hdrval = s.hdrval := rfl
@[simp] theorem State.saw_maxb (v : HostRead) : (s.saw v).maxb = s.maxb := rfl
@[simp] theorem State.saw_pixcnt (v : HostRead) : (s.saw v).pixcnt = s.pixcnt := rfl
@[simp] theorem State.saw_availLo (v : HostRead) : (s.saw v).availLo = s.availLo := rfl
@[simp] theorem State.saw_availHi (v : HostRead) : (s.saw v).availHi = s.availHi := rfl
@[simp] theorem State.saw_rlen (v : HostRead) : (s.saw v).rlen = s.rlen := rfl
@[simp] theorem State.saw_valid (v : HostRead) : (s.saw v).valid = s.valid := rfl
@[simp] theorem State.saw_ch (v : HostRead) : (s.saw v).ch = s.ch := rfl
@[simp] theorem State.saw_pm (v : HostRead) : (s.saw v).pm = s.pm := rfl
@[simp] theorem State.saw_bm (v : HostRead) : (s.saw v).bm = s.bm := rfl
@[simp] theorem State.saw_moves (v : HostRead) : (s.saw v).moves = s.moves := rfl
@[simp] theorem State.saw_seen (v : HostRead) : (s.saw v).seen = v :: s.seen := rfl
@[simp] theorem State.saw_draws (v : HostRead) : (s.saw v).draws = s.draws := rfl
@[simp] theorem State.saw_streamLen (v : HostRead) : (s.saw v).streamLen = s.streamLen := rfl
@[simp] theorem State.saw_header (v : HostRead) : (s.saw v).header = s.header := rfl
@[simp] theorem State.saw_avail (v : HostRead) : (s.saw v).avail = s.avail := rfl

@[simp] theorem State.drew_params : (s.drew).params = s.params := rfl
@[simp] theorem State.drew_cur : (s.drew).cur = s.cur := rfl
@[simp] theorem State.drew_busy : (s.drew).busy = s.busy := rfl
@[simp] theorem State.drew_done : (s.drew).done = s.done := rfl
@[simp] theorem State.drew_code : (s.drew).code = s.code := rfl
@[simp] theorem State.drew_width : (s.drew).width = s.width := rfl
@[simp] theorem State.drew_height : (s.drew).height = s.height := rfl
@[simp] theorem State.drew_plen : (s.drew).plen = s.plen := rfl
@[simp] theorem State.drew_nbits : (s.drew).nbits = s.nbits := rfl
@[simp] theorem State.drew_idx : (s.drew).idx = s.idx := rfl
@[simp] theorem State.drew_bitio : (s.drew).bitio = s.bitio := rfl
@[simp] theorem State.drew_hdrval : (s.drew).hdrval = s.hdrval := rfl
@[simp] theorem State.drew_maxb : (s.drew).maxb = s.maxb := rfl
@[simp] theorem State.drew_pixcnt : (s.drew).pixcnt = s.pixcnt := rfl
@[simp] theorem State.drew_availLo : (s.drew).availLo = s.availLo := rfl
@[simp] theorem State.drew_availHi : (s.drew).availHi = s.availHi := rfl
@[simp] theorem State.drew_rlen : (s.drew).rlen = s.rlen := rfl
@[simp] theorem State.drew_valid : (s.drew).valid = s.valid := rfl
@[simp] theorem State.drew_ch : (s.drew).ch = s.ch := rfl
@[simp] theorem State.drew_pm : (s.drew).pm = s.pm := rfl
@[simp] theorem State.drew_bm : (s.drew).bm = s.bm := rfl
@[simp] theorem State.drew_moves : (s.drew).moves = s.moves := rfl
@[simp] theorem State.drew_seen : (s.drew).seen = s.seen := rfl
@[simp] theorem State.drew_draws : (s.drew).draws = s.draws + 1 := rfl
@[simp] theorem State.drew_streamLen : (s.drew).streamLen = s.streamLen := rfl
@[simp] theorem State.drew_header : (s.drew).header = s.header := rfl
@[simp] theorem State.drew_avail : (s.drew).avail = s.avail := rfl

@[simp] theorem State.started_params (w : Word) : (s.started w).params = s.params := rfl
@[simp] theorem State.started_cur (w : Word) : (s.started w).cur = some w := rfl
@[simp] theorem State.started_busy (w : Word) : (s.started w).busy = true := rfl
@[simp] theorem State.started_done (w : Word) : (s.started w).done = false := rfl
@[simp] theorem State.started_code (w : Word) : (s.started w).code = .ok := rfl
@[simp] theorem State.started_width (w : Word) : (s.started w).width = s.width := rfl
@[simp] theorem State.started_height (w : Word) : (s.started w).height = s.height := rfl
@[simp] theorem State.started_plen (w : Word) : (s.started w).plen = s.plen := rfl
@[simp] theorem State.started_nbits (w : Word) : (s.started w).nbits = s.nbits := rfl
@[simp] theorem State.started_idx (w : Word) : (s.started w).idx = s.idx := rfl
@[simp] theorem State.started_bitio (w : Word) : (s.started w).bitio = s.bitio := rfl
@[simp] theorem State.started_hdrval (w : Word) : (s.started w).hdrval = s.hdrval := rfl
@[simp] theorem State.started_maxb (w : Word) : (s.started w).maxb = s.maxb := rfl
@[simp] theorem State.started_pixcnt (w : Word) : (s.started w).pixcnt = s.pixcnt := rfl
@[simp] theorem State.started_availLo (w : Word) : (s.started w).availLo = s.availLo := rfl
@[simp] theorem State.started_availHi (w : Word) : (s.started w).availHi = s.availHi := rfl
@[simp] theorem State.started_rlen (w : Word) : (s.started w).rlen = s.rlen := rfl
@[simp] theorem State.started_valid (w : Word) : (s.started w).valid = s.valid := rfl
@[simp] theorem State.started_ch (w : Word) : (s.started w).ch = s.ch := rfl
@[simp] theorem State.started_pm (w : Word) : (s.started w).pm = s.pm := rfl
@[simp] theorem State.started_bm (w : Word) : (s.started w).bm = s.bm := rfl
@[simp] theorem State.started_moves (w : Word) : (s.started w).moves = s.moves := rfl
@[simp] theorem State.started_seen (w : Word) : (s.started w).seen = s.seen := rfl
@[simp] theorem State.started_draws (w : Word) : (s.started w).draws = s.draws := rfl
@[simp] theorem State.started_streamLen (w : Word) : (s.started w).streamLen = s.streamLen := rfl
@[simp] theorem State.started_header (w : Word) : (s.started w).header = s.header := rfl
@[simp] theorem State.started_avail (w : Word) : (s.started w).avail = s.avail := rfl

@[simp] theorem State.finished_params (c : Code) : (s.finished c).params = s.params := rfl
@[simp] theorem State.finished_cur (c : Code) : (s.finished c).cur = none := rfl
@[simp] theorem State.finished_busy (c : Code) : (s.finished c).busy = false := rfl
@[simp] theorem State.finished_done (c : Code) : (s.finished c).done = true := rfl
@[simp] theorem State.finished_code (c : Code) : (s.finished c).code = c := rfl
@[simp] theorem State.finished_width (c : Code) : (s.finished c).width = s.width := rfl
@[simp] theorem State.finished_height (c : Code) : (s.finished c).height = s.height := rfl
@[simp] theorem State.finished_plen (c : Code) : (s.finished c).plen = s.plen := rfl
@[simp] theorem State.finished_nbits (c : Code) : (s.finished c).nbits = s.nbits := rfl
@[simp] theorem State.finished_idx (c : Code) : (s.finished c).idx = s.idx := rfl
@[simp] theorem State.finished_bitio (c : Code) : (s.finished c).bitio = s.bitio := rfl
@[simp] theorem State.finished_hdrval (c : Code) : (s.finished c).hdrval = s.hdrval := rfl
@[simp] theorem State.finished_maxb (c : Code) : (s.finished c).maxb = s.maxb := rfl
@[simp] theorem State.finished_pixcnt (c : Code) : (s.finished c).pixcnt = s.pixcnt := rfl
@[simp] theorem State.finished_availLo (c : Code) : (s.finished c).availLo = s.availLo := rfl
@[simp] theorem State.finished_availHi (c : Code) : (s.finished c).availHi = s.availHi := rfl
@[simp] theorem State.finished_rlen (c : Code) : (s.finished c).rlen = s.rlen := rfl
@[simp] theorem State.finished_valid (c : Code) : (s.finished c).valid = s.valid := rfl
@[simp] theorem State.finished_ch (c : Code) : (s.finished c).ch = s.ch := rfl
@[simp] theorem State.finished_pm (c : Code) : (s.finished c).pm = s.pm := rfl
@[simp] theorem State.finished_bm (c : Code) : (s.finished c).bm = s.bm := rfl
@[simp] theorem State.finished_moves (c : Code) : (s.finished c).moves = s.moves := rfl
@[simp] theorem State.finished_seen (c : Code) : (s.finished c).seen = s.seen := rfl
@[simp] theorem State.finished_draws (c : Code) : (s.finished c).draws = s.draws := rfl
@[simp] theorem State.finished_streamLen (c : Code) : (s.finished c).streamLen = s.streamLen := rfl
@[simp] theorem State.finished_header (c : Code) : (s.finished c).header = s.header := rfl
@[simp] theorem State.finished_avail (c : Code) : (s.finished c).avail = s.avail := rfl

@[simp] theorem State.afterReset_params : (s.afterReset).params = s.params := rfl
@[simp] theorem State.afterReset_cur : (s.afterReset).cur = none := rfl
@[simp] theorem State.afterReset_busy : (s.afterReset).busy = false := rfl
@[simp] theorem State.afterReset_done : (s.afterReset).done = false := rfl
@[simp] theorem State.afterReset_code : (s.afterReset).code = .ok := rfl
@[simp] theorem State.afterReset_width : (s.afterReset).width = 0#16 := rfl
@[simp] theorem State.afterReset_height : (s.afterReset).height = 0#16 := rfl
@[simp] theorem State.afterReset_plen : (s.afterReset).plen = 0#32 := rfl
@[simp] theorem State.afterReset_nbits : (s.afterReset).nbits = 0#32 := rfl
@[simp] theorem State.afterReset_idx : (s.afterReset).idx = 0#32 := rfl
@[simp] theorem State.afterReset_bitio : (s.afterReset).bitio = false := rfl
@[simp] theorem State.afterReset_hdrval : (s.afterReset).hdrval = 0#32 := rfl
@[simp] theorem State.afterReset_maxb : (s.afterReset).maxb = 0#32 := rfl
@[simp] theorem State.afterReset_pixcnt : (s.afterReset).pixcnt = 0#32 := rfl
@[simp] theorem State.afterReset_availLo : (s.afterReset).availLo = 0#32 := rfl
@[simp] theorem State.afterReset_availHi : (s.afterReset).availHi = 0#32 := rfl
@[simp] theorem State.afterReset_rlen : (s.afterReset).rlen = 0#32 := rfl
@[simp] theorem State.afterReset_valid : (s.afterReset).valid = false := rfl
@[simp] theorem State.afterReset_ch : (s.afterReset).ch = [] := rfl
@[simp] theorem State.afterReset_pm : (s.afterReset).pm = [] := rfl
@[simp] theorem State.afterReset_bm : (s.afterReset).bm = [] := rfl
@[simp] theorem State.afterReset_moves : (s.afterReset).moves = s.moves := rfl
@[simp] theorem State.afterReset_seen : (s.afterReset).seen = s.seen := rfl
@[simp] theorem State.afterReset_draws : (s.afterReset).draws = s.draws := rfl

/-- AVAIL reads back as the 64-bit value written (10_state.md R34). -/
@[simp] theorem State.withAvail_avail (v : BitVec 64) : (s.withAvail v).avail = v := by
  apply BitVec.eq_of_getLsbD_eq
  intro i hi
  simp only [State.avail, State.withAvail_availHi, State.withAvail_availLo, BitVec.getLsbD_append,
    BitVec.getLsbD_extractLsb']
  split
  · simp_all
  · rw [show 32 + (i - 32) = i by omega]; simp; intro; omega

end Sys2Proof.Machine
end

