-- ==== Sys2Proof/Laws/Ops.lean ====
section
/-! SUPPORT. One lemma per shared operation that says everything it can do. -/

namespace Sys2Proof.Machine

variable {α : Type}

@[simp] theorem attempt_error (f : Fault) (k : α → Result) : attempt (.error f) k = .fault f := rfl
@[simp] theorem attempt_ok (x : α) (k : α → Result) : attempt (.ok x) k = k x := rfl

/-- A command goes on to a next state only with a value. -/
theorem attempt_next {r : Except Fault α} {k : α → Result} {t : State} :
    attempt r k = .next t ↔ ∃ x, r = .ok x ∧ k x = .next t := by
  cases r <;> simp

/-- A command ends in a fault where the access faults or where what follows does. -/
theorem attempt_fault {r : Except Fault α} {k : α → Result} {f : Fault} :
    attempt r k = .fault f ↔ r = .error f ∨ ∃ x, r = .ok x ∧ k x = .fault f := by
  cases r <;> simp

theorem attempt_refused {r : Except Fault α} {k : α → Result} {q : Refusal} :
    attempt r k = .refused q ↔ ∃ x, r = .ok x ∧ k x = .refused q := by
  cases r <;> simp

@[simp] theorem finish_next (c : Code) (s t : State) : finish c s = .next t ↔ t = s.finished c := by
  simp [finish, eq_comm]

@[simp] theorem finish_ne_fault (c : Code) (s : State) (f : Fault) : finish c s ≠ .fault f := by simp [finish]

@[simp] theorem finish_ne_refused (c : Code) (s : State) (q : Refusal) : finish c s ≠ .refused q := by simp [finish]

/-- A read of one cell: the value it holds, the fault `uninitRead` where it holds none, `outsideMemory` outside. -/
theorem readCell_ok {sp : Space} {size : Nat} {m : Memory α} {i : Nat} {x : α} :
    readCell sp size m i = .ok x ↔ i < size ∧ m.cell i = some x := by
  unfold readCell
  split
  · cases m.cell i <;> simp_all
  · simp_all

theorem readCell_error {sp : Space} {size : Nat} {m : Memory α} {i : Nat} {f : Fault} :
    readCell sp size m i = .error f ↔
      (i < size ∧ m.cell i = none ∧ f = .uninitRead sp i) ∨ (size ≤ i ∧ f = .outsideMemory sp i) := by
  unfold readCell
  split
  · cases m.cell i <;> simp_all [eq_comm]
  · simp_all [eq_comm]

theorem writeCell_ok {sp : Space} {size : Nat} {m m' : Memory α} {i : Nat} {v : α} :
    writeCell sp size m i v = .ok m' ↔ i < size ∧ m' = m.put i v := by
  unfold writeCell
  split <;> simp_all [eq_comm]

theorem writeCell_error {sp : Space} {size : Nat} {m : Memory α} {i : Nat} {v : α} {f : Fault} :
    writeCell sp size m i v = .error f ↔ size ≤ i ∧ f = .outsideMemory sp i := by
  unfold writeCell
  split <;> simp_all [eq_comm]

/-- A run of reads answers the values of its cells, in order. -/
theorem readRun_ok {sp : Space} {size : Nat} {m : Memory α} {a n : Nat} {xs : List α} :
    readRun sp size m a n = .ok xs ↔
      xs.length = n ∧ ∀ t, t < n → a + t < size ∧ m.cell (a + t) = xs[t]? := by
  induction n generalizing a xs with
  | zero => cases xs <;> simp [readRun]
  | succ n ih =>
    cases hc : readCell sp size m a with
    | error f =>
      simp only [readRun, hc, reduceCtorEq, false_iff]
      rintro ⟨hl, h⟩
      have h0 := h 0 (by omega)
      rw [List.getElem?_eq_getElem (by omega)] at h0
      have := (readCell_ok (sp := sp)).mpr h0
      simp_all
    | ok x =>
      have hx := readCell_ok.mp hc
      cases hr : readRun sp size m (a + 1) n with
      | error f =>
        simp only [readRun, hc, hr, reduceCtorEq, false_iff]
        rintro ⟨hl, h⟩
        have := (ih (a := a + 1) (xs := xs.tail)).mpr ⟨by simp; omega, fun t ht => by
          have := h (t + 1) (by omega)
          rw [List.getElem?_tail, show a + 1 + t = a + (t + 1) by omega]; exact this⟩
        simp_all
      | ok ys =>
        obtain ⟨hyl, hy⟩ := ih.mp hr
        simp only [readRun, hc, hr, Except.ok.injEq]
        constructor
        · rintro rfl
          refine ⟨by simp [hyl], fun t ht => ?_⟩
          cases t with
          | zero => simpa using hx
          | succ t =>
            have := hy t (by omega)
            rw [List.getElem?_cons_succ, show a + (t + 1) = a + 1 + t by omega]; exact this
        · rintro ⟨hl, h⟩
          apply List.ext_getElem?
          intro t
          by_cases ht : t < n + 1
          · cases t with
            | zero => rw [List.getElem?_cons_zero, ← hx.2]; exact (h 0 (by omega)).2
            | succ t =>
              rw [List.getElem?_cons_succ, ← (hy t (by omega)).2, ← (h (t + 1) ht).2]
              congr 1; omega
          · rw [List.getElem?_eq_none (by simp; omega), List.getElem?_eq_none (by omega)]

/-- A run of reads faults at the first of its cells that cannot be read. -/
theorem readRun_error {sp : Space} {size : Nat} {m : Memory α} {a n : Nat} {f : Fault}
    (h : readRun sp size m a n = .error f) :
    ∃ t, t < n ∧ ((a + t < size ∧ m.cell (a + t) = none ∧ f = .uninitRead sp (a + t)) ∨
      (size ≤ a + t ∧ f = .outsideMemory sp (a + t))) := by
  induction n generalizing a with
  | zero => simp [readRun] at h
  | succ n ih =>
    simp only [readRun] at h
    split at h
    · rename_i hc
      cases h
      exact ⟨0, by omega, by simpa using readCell_error.mp hc⟩
    · split at h
      · rename_i hr
        cases h
        obtain ⟨t, ht, h⟩ := ih hr
        exact ⟨t + 1, by omega, by rw [show a + (t + 1) = a + 1 + t by omega]; exact h⟩
      · cases h

/-- A run of reads inside the memory succeeds exactly where every cell holds a value. -/
theorem readRun_total {sp : Space} {size : Nat} {m : Memory α} {a n : Nat} (hs : a + n ≤ size) :
    (∃ xs, readRun sp size m a n = .ok xs) ↔ m.holds a n = true := by
  rw [Memory.holds_iff]
  constructor
  · rintro ⟨xs, h⟩ i h1 h2
    obtain ⟨hl, h⟩ := readRun_ok.mp h
    have := (h (i - a) (by omega)).2
    rw [show a + (i - a) = i by omega, List.getElem?_eq_getElem (by omega)] at this
    exact ⟨_, this⟩
  · intro h
    cases hr : readRun sp size m a n with
    | ok xs => exact ⟨xs, rfl⟩
    | error f =>
      obtain ⟨t, ht, h' | h'⟩ := readRun_error hr
      · obtain ⟨x, hx⟩ := h (a + t) (by omega) (by omega)
        simp [hx] at h'
      · omega

/-- A run of writes inside the memory succeeds; it sets its own cells and leaves every other. -/
theorem writeRun_total (sp : Space) (size : Nat) (m : Memory α) (a : Nat) (xs : List α) (hs : a + xs.length ≤ size) :
    ∃ m', writeRun sp size m a xs = .ok m' ∧
      ∀ i, m'.cell i = if a ≤ i ∧ i < a + xs.length then xs[i - a]? else m.cell i := by
  induction xs generalizing m a with
  | nil => exact ⟨m, rfl, fun i => by rw [if_neg]; simp⟩
  | cons x xs ih =>
    simp only [List.length_cons] at hs
    obtain ⟨m', h1, h2⟩ := ih (m.put a x) (a + 1) (by omega)
    refine ⟨m', ?_, fun i => ?_⟩
    · simp only [writeRun, writeCell_ok.mpr ⟨show a < size by omega, rfl⟩, h1]
    · rw [h2, Memory.cell_put]
      simp only [List.length_cons]
      by_cases hi : i = a
      · subst hi; simp
      · by_cases hr : a + 1 ≤ i ∧ i < a + 1 + xs.length
        · rw [if_pos hr, if_pos (by omega), show i - a = (i - (a + 1)) + 1 by omega, List.getElem?_cons_succ]
        · rw [if_neg hr, if_neg hi, if_neg (by omega)]

theorem writeRun_error {sp : Space} {size : Nat} {m : Memory α} {a : Nat} {xs : List α} {f : Fault}
    (h : writeRun sp size m a xs = .error f) : size < a + xs.length := by
  by_contra hn
  obtain ⟨m', h', _⟩ := writeRun_total sp size m a xs (by omega)
  simp [h] at h'

/-- A run of writes keeps the canonical form and lists no cell outside the memory. -/
theorem writeRun_wf {sp : Space} {size : Nat} {m m' : Memory α} {a : Nat} {xs : List α}
    (h : writeRun sp size m a xs = .ok m') (hw : m.wf = true) (hb : m.below size = true) :
    m'.wf = true ∧ m'.below size = true := by
  induction xs generalizing m a with
  | nil => cases h; exact ⟨hw, hb⟩
  | cons x xs ih =>
    simp only [writeRun] at h
    split at h
    · cases h
    · rename_i m₁ hm
      obtain ⟨hlt, rfl⟩ := writeCell_ok.mp hm
      exact ih h (Memory.wf_put _ _ _ hw) (Memory.below_put _ _ _ _ hlt hb)

/-- What a run of writes that succeeds has done to every cell. -/
theorem writeRun_cell {sp : Space} {size : Nat} {m m' : Memory α} {a : Nat} {xs : List α}
    (h : writeRun sp size m a xs = .ok m') (i : Nat) :
    m'.cell i = if a ≤ i ∧ i < a + xs.length then xs[i - a]? else m.cell i := by
  induction xs generalizing m a with
  | nil => cases h; rw [if_neg]; simp
  | cons x xs ih =>
    simp only [writeRun] at h
    split at h
    · cases h
    · rename_i m₁ hm
      obtain ⟨hlt, rfl⟩ := writeCell_ok.mp hm
      rw [ih h, Memory.cell_put]
      simp only [List.length_cons]
      by_cases hi : i = a
      · subst hi; simp
      · by_cases hr : a + 1 ≤ i ∧ i < a + 1 + xs.length
        · rw [if_pos hr, if_pos (by omega), show i - a = (i - (a + 1)) + 1 by omega, List.getElem?_cons_succ]
        · rw [if_neg hr, if_neg hi, if_neg (by omega)]

/-- `write_lsbs` that succeeds sets the LSB of each of its elements, keeps their upper bits and leaves every other cell
(41_channel_reader_writer.md R130, R133, R136). -/
theorem writeLsbs_cell {size : Nat} {m m' : Memory Byte} {a : Nat} {B : List Bit}
    (h : writeLsbs size m a B = .ok m') (i : Nat) :
    (i < a ∨ a + B.length ≤ i → m'.cell i = m.cell i) ∧
    (∀ t, i = a + t → t < B.length → i < size ∧
      ∃ b u, m.cell i = some b ∧ B[t]? = some u ∧ m'.cell i = some (setlsb b u)) := by
  induction B generalizing m a with
  | nil => cases h; exact ⟨fun _ => rfl, fun t _ ht => by simp at ht⟩
  | cons u us ih =>
    simp only [writeLsbs] at h
    split at h
    · cases h
    · rename_i b hb
      split at h
      · cases h
      · rename_i m₁ hm
        obtain ⟨hlt, rfl⟩ := writeCell_ok.mp hm
        obtain ⟨ho, hi⟩ := ih h
        have hb' := (readCell_ok.mp hb).2
        simp only [List.length_cons]
        constructor
        · intro hr
          rw [ho (by omega), Memory.cell_put_other _ _ _ _ (by omega)]
        · intro t hit ht
          cases t with
          | zero =>
            subst hit
            exact ⟨hlt, b, u, hb', rfl, by rw [ho (by omega)]; simp⟩
          | succ t =>
            obtain ⟨h1, b', u', h2, h3, h4⟩ := hi t (by omega) (by omega)
            rw [Memory.cell_put_other _ _ _ _ (by omega)] at h2
            exact ⟨h1, b', u', h2, by simpa using h3, h4⟩

/-- `write_lsbs` inside the memory succeeds exactly where every element holds a value. -/
theorem writeLsbs_total {size : Nat} {m : Memory Byte} {a : Nat} {B : List Bit} (hs : a + B.length ≤ size) :
    (∃ m', writeLsbs size m a B = .ok m') ↔ m.holds a B.length = true := by
  rw [Memory.holds_iff]
  constructor
  · rintro ⟨m', h⟩ i h1 h2
    obtain ⟨-, b, u, hb, -⟩ := (writeLsbs_cell h i).2 (i - a) (by omega) (by omega)
    exact ⟨b, hb⟩
  · intro h
    induction B generalizing m a with
    | nil => exact ⟨m, rfl⟩
    | cons u us ih =>
      simp only [List.length_cons] at hs h
      obtain ⟨b, hb⟩ := h a (by omega) (by omega)
      simp only [writeLsbs, readCell_ok.mpr ⟨show a < size by omega, hb⟩,
        writeCell_ok.mpr ⟨show a < size by omega, rfl⟩]
      refine ih (by omega) fun i h1 h2 => ?_
      rw [Memory.cell_put_other _ _ _ _ (by omega)]
      exact h i (by omega) (by omega)

/-- `write_lsbs` faults at the first of its elements that cannot be read. -/
theorem writeLsbs_error {size : Nat} {m : Memory Byte} {a : Nat} {B : List Bit} {f : Fault}
    (h : writeLsbs size m a B = .error f) :
    ∃ t, t < B.length ∧ ((a + t < size ∧ m.cell (a + t) = none ∧ f = .uninitRead .ch (a + t)) ∨
      (size ≤ a + t ∧ f = .outsideMemory .ch (a + t))) := by
  induction B generalizing m a with
  | nil => cases h
  | cons u us ih =>
    simp only [writeLsbs] at h
    split at h
    · rename_i hc
      cases h
      exact ⟨0, by simp, by simpa using readCell_error.mp hc⟩
    · rename_i b hb
      have hlt := (readCell_ok.mp hb).1
      split at h
      · rename_i hm
        have := (writeCell_error.mp hm).1
        omega
      · rename_i m₁ hm
        obtain ⟨-, rfl⟩ := writeCell_ok.mp hm
        obtain ⟨t, ht, h⟩ := ih h
        rw [Memory.cell_put_other _ _ _ _ (by omega), show a + 1 + t = a + (t + 1) by omega] at h
        exact ⟨t + 1, by simp; omega, h⟩

theorem writeLsbs_wf {size : Nat} {m m' : Memory Byte} {a : Nat} {B : List Bit}
    (h : writeLsbs size m a B = .ok m') (hw : m.wf = true) (hb : m.below size = true) :
    m'.wf = true ∧ m'.below size = true := by
  induction B generalizing m a with
  | nil => cases h; exact ⟨hw, hb⟩
  | cons u us ih =>
    simp only [writeLsbs] at h
    split at h
    · cases h
    · split at h
      · cases h
      · rename_i m₁ hm
        obtain ⟨hlt, rfl⟩ := writeCell_ok.mp hm
        exact ih h (Memory.wf_put _ _ _ hw) (Memory.below_put _ _ _ _ hlt hb)

/-- `read_lsbs` answers the LSBs of its elements (41_channel_reader_writer.md R135). -/
theorem readLsbs_ok {size : Nat} {m : Memory Byte} {a n : Nat} {B : List Bit} (h : readLsbs size m a n = .ok B) :
    B = m.lsbs a n ∧ m.holds a n = true := by
  unfold readLsbs at h
  split at h
  · cases h
  · rename_i bs hr
    cases h
    obtain ⟨hl, hc⟩ := readRun_ok.mp hr
    constructor
    · apply List.ext_getElem?
      intro t
      by_cases ht : t < n
      · have := (hc t ht).2
        rw [List.getElem?_eq_getElem (by omega)] at this
        rw [Memory.lsbs_getElem? m a n t _ ht this, List.getElem?_map, List.getElem?_eq_getElem (by omega)]
        rfl
      · rw [List.getElem?_eq_none (by simp; omega), List.getElem?_eq_none (by simp; omega)]
    · rw [Memory.holds_iff]
      intro i h1 h2
      have := (hc (i - a) (by omega)).2
      rw [show a + (i - a) = i by omega, List.getElem?_eq_getElem (by omega)] at this
      exact ⟨_, this⟩

/-- `read_lsbs` inside the memory, with every element holding a value. -/
theorem readLsbs_of_holds {size : Nat} {m : Memory Byte} {a n : Nat} (hs : a + n ≤ size) (h : m.holds a n = true) :
    readLsbs size m a n = .ok (m.lsbs a n) := by
  obtain ⟨xs, hx⟩ := (readRun_total (sp := .ch) hs).mpr h
  have : readLsbs size m a n = .ok (xs.map lsb) := by simp [readLsbs, hx]
  rw [this, (readLsbs_ok this).1]

theorem readLsbs_error {size : Nat} {m : Memory Byte} {a n : Nat} {f : Fault} (h : readLsbs size m a n = .error f) :
    ∃ t, t < n ∧ ((a + t < size ∧ m.cell (a + t) = none ∧ f = .uninitRead .ch (a + t)) ∨
      (size ≤ a + t ∧ f = .outsideMemory .ch (a + t))) := by
  unfold readLsbs at h
  split at h
  · rename_i hr
    cases h
    exact readRun_error hr
  · cases h

/-- After `write_lsbs(a, B)`, `read_lsbs(a, m)` is `B` (41_channel_reader_writer.md R136). -/
theorem lsbs_writeLsbs {size : Nat} {m m' : Memory Byte} {a : Nat} {B : List Bit}
    (h : writeLsbs size m a B = .ok m') : m'.lsbs a B.length = B := by
  apply List.ext_getElem?
  intro t
  by_cases ht : t < B.length
  · obtain ⟨-, b, u, -, hu, hc⟩ := (writeLsbs_cell h (a + t)).2 t rfl ht
    rw [Memory.lsbs_getElem? m' a _ t _ ht hc, hu, lsb_setlsb]
  · rw [List.getElem?_eq_none (by simp; omega), List.getElem?_eq_none (by omega)]

/-- A run of reads that succeeds finds a value in every cell. -/
theorem holds_of_readRun {sp : Space} {size : Nat} {m : Memory α} {a n : Nat} {xs : List α}
    (h : readRun sp size m a n = .ok xs) : m.holds a n = true := by
  rw [Memory.holds_iff]
  obtain ⟨hl, h⟩ := readRun_ok.mp h
  intro i h1 h2
  have := (h (i - a) (by omega)).2
  rw [show a + (i - a) = i by omega, List.getElem?_eq_getElem (by omega)] at this
  exact ⟨_, this⟩

/-- A run of reads inside the memory that meets an empty cell faults on an empty cell of the run. -/
theorem readRun_empty {sp : Space} {size : Nat} {m : Memory α} {a n : Nat} (hs : a + n ≤ size)
    (h : ∃ k, k < n ∧ m.cell (a + k) = none) :
    ∃ k, k < n ∧ m.cell (a + k) = none ∧ readRun sp size m a n = .error (.uninitRead sp (a + k)) := by
  cases hr : readRun sp size m a n with
  | ok xs =>
    obtain ⟨k, hk, hc⟩ := h
    have := (Memory.holds_iff_isSome _ _ _).mp (holds_of_readRun hr) k hk
    simp [hc] at this
  | error f =>
    obtain ⟨t, ht, h | h⟩ := readRun_error hr
    · exact ⟨t, ht, h.2.1, by rw [h.2.2]⟩
    · omega

theorem readLsbs_empty {size : Nat} {m : Memory Byte} {a n : Nat} (hs : a + n ≤ size)
    (h : ∃ k, k < n ∧ m.cell (a + k) = none) :
    ∃ k, k < n ∧ m.cell (a + k) = none ∧ readLsbs size m a n = .error (.uninitRead .ch (a + k)) := by
  obtain ⟨k, h1, h2, h3⟩ := readRun_empty (sp := .ch) hs h
  exact ⟨k, h1, h2, by simp [readLsbs, h3]⟩

theorem writeLsbs_empty {size : Nat} {m : Memory Byte} {a : Nat} {B : List Bit} (hs : a + B.length ≤ size)
    (h : ∃ k, k < B.length ∧ m.cell (a + k) = none) :
    ∃ k, k < B.length ∧ m.cell (a + k) = none ∧ writeLsbs size m a B = .error (.uninitRead .ch (a + k)) := by
  cases hr : writeLsbs size m a B with
  | ok m' =>
    obtain ⟨k, hk, hc⟩ := h
    have := (Memory.holds_iff_isSome _ _ _).mp ((writeLsbs_total hs).mp ⟨_, hr⟩) k hk
    simp [hc] at this
  | error f =>
    obtain ⟨t, ht, h | h⟩ := writeLsbs_error hr
    · exact ⟨t, ht, h.2.1, by rw [h.2.2]⟩
    · omega

/-- A run of reads depends on its own cells alone. -/
theorem readRun_congr {sp : Space} {size : Nat} {m m' : Memory α} {a n : Nat}
    (h : ∀ i, a ≤ i → i < a + n → m'.cell i = m.cell i) : readRun sp size m' a n = readRun sp size m a n := by
  induction n generalizing a with
  | zero => rfl
  | succ n ih =>
    simp only [readRun, readCell, h a (by omega) (by omega)]
    rw [ih fun i h1 h2 => h i (by omega) (by omega)]

theorem readLsbs_congr {size : Nat} {m m' : Memory Byte} {a n : Nat}
    (h : ∀ i, a ≤ i → i < a + n → m'.cell i = m.cell i) : readLsbs size m' a n = readLsbs size m a n := by
  simp only [readLsbs, readRun_congr h]

/-- `write_lsbs` below `L` depends on the cells below `L` alone, and leaves the others as they are. -/
theorem writeLsbs_congr {size : Nat} {m m' : Memory Byte} {a L : Nat} {B : List Bit}
    (h : ∀ i, i < L → m'.cell i = m.cell i) (hL : a + B.length ≤ L) :
    (∀ n, writeLsbs size m a B = .ok n → ∃ n', writeLsbs size m' a B = .ok n' ∧
      (∀ i, i < L → n'.cell i = n.cell i) ∧ (∀ i, L ≤ i → n'.cell i = m'.cell i)) ∧
    (∀ f, writeLsbs size m a B = .error f → writeLsbs size m' a B = .error f) := by
  induction B generalizing m m' a with
  | nil => exact ⟨fun n hn => by cases hn; exact ⟨m', rfl, h, fun _ _ => rfl⟩, fun f hf => by cases hf⟩
  | cons u us ih =>
    simp only [List.length_cons] at hL
    have hr : readCell .ch size m' a = readCell .ch size m a := by simp only [readCell, h a (by omega)]
    simp only [writeLsbs, hr]
    cases readCell .ch size m a with
    | error f => exact ⟨nofun, fun _ hf => hf⟩
    | ok b =>
      simp only [writeCell]
      by_cases hs : a < size
      · simp only [if_pos hs]
        have := ih (m := m.put a (setlsb b u)) (m' := m'.put a (setlsb b u)) (a := a + 1)
          (fun i hi => by rw [Memory.cell_put, Memory.cell_put, h i hi]) (by omega)
        refine ⟨fun n hn => ?_, this.2⟩
        obtain ⟨n', h1, h2, h3⟩ := this.1 n hn
        exact ⟨n', h1, h2, fun i hi => by rw [h3 i hi, Memory.cell_put_other _ _ _ _ (by omega)]⟩
      · simp only [if_neg hs]
        exact ⟨nofun, fun _ hf => hf⟩

/-- A run of writes done again on what it left changes nothing. -/
theorem writeRun_again {sp : Space} {size : Nat} {m m' : Memory α} {a : Nat} {xs : List α} (hw : m.wf = true)
    (hb : m.below size = true) (h : writeRun sp size m a xs = .ok m') : writeRun sp size m' a xs = .ok m' := by
  have hle : a + xs.length ≤ size ∨ xs = [] := by
    clear hw hb
    induction xs generalizing m a with
    | nil => exact .inr rfl
    | cons x xs ih =>
      simp only [writeRun] at h
      split at h
      · cases h
      · rename_i m₁ hm
        have := (writeCell_ok.mp hm).1
        rcases ih h with h | h
        · left; simp only [List.length_cons]; omega
        · left; simp only [h, List.length_cons, List.length_nil]; omega
  rcases hle with hle | rfl
  · obtain ⟨m₂, h₂, hc₂⟩ := writeRun_total sp size m' a xs hle
    obtain ⟨w₁, b₁⟩ := writeRun_wf h hw hb
    rw [h₂, Memory.ext_cell m₂ m' (writeRun_wf h₂ w₁ b₁).1 w₁]
    intro i
    rw [hc₂, writeRun_cell h]
    split <;> rfl
  · rfl

/-- `write_lsbs` on a memory that already carries what it wrote changes nothing. -/
theorem writeLsbs_again {size : Nat} {m m' n : Memory Byte} {a : Nat} {B : List Bit}
    (h : writeLsbs size m a B = .ok m') (hw : n.wf = true) (hb : n.below size = true)
    (hc : ∀ i, a ≤ i → i < a + B.length → n.cell i = m'.cell i) : writeLsbs size n a B = .ok n := by
  have hle : a + B.length ≤ size ∨ B = [] := by
    by_cases hB : B = []
    · exact .inr hB
    · have : 0 < B.length := List.length_pos_iff.mpr hB
      have := ((writeLsbs_cell h (a + (B.length - 1))).2 _ rfl (by omega)).1
      omega
  rcases hle with hle | rfl
  · obtain ⟨n', hn⟩ := (writeLsbs_total (m := n) hle).mpr (by
      rw [Memory.holds_iff]
      intro i h1 h2
      rw [hc i h1 h2]
      obtain ⟨-, b, u, -, -, hb⟩ := (writeLsbs_cell h i).2 (i - a) (by omega) (by omega)
      exact ⟨_, hb⟩)
    rw [hn, Memory.ext_cell n' n (writeLsbs_wf hn hw hb).1 hw]
    intro i
    by_cases hi : a ≤ i ∧ i < a + B.length
    · obtain ⟨-, b, u, h4, h5, h6⟩ := (writeLsbs_cell h i).2 (i - a) (by omega) (by omega)
      obtain ⟨-, b', u', h7, h8, h9⟩ := (writeLsbs_cell hn i).2 (i - a) (by omega) (by omega)
      rw [hc i hi.1 hi.2, h6] at h7
      cases h7
      rw [h5] at h8
      cases h8
      rw [h9, hc i hi.1 hi.2, h6, setlsb_setlsb]
    · exact (writeLsbs_cell hn i).1 (by omega)
  · rfl

/-- What `write_lsbs` does to one cell: the upper bits stay, an empty cell stays empty, cells past the run stay. -/
theorem writeLsbs_frame {size : Nat} {m m' : Memory Byte} {a : Nat} {B : List Bit} (h : writeLsbs size m a B = .ok m')
    (j : Nat) :
    (∀ b, m.cell j = some b → ∃ b', m'.cell j = some b' ∧ b' &&& 0xFE#8 = b &&& 0xFE#8) ∧
    (m.cell j = none → m'.cell j = none) ∧ (a + B.length ≤ j → m'.cell j = m.cell j) := by
  by_cases hj : a ≤ j ∧ j < a + B.length
  · obtain ⟨-, b, u, h1, h2, h3⟩ := (writeLsbs_cell h j).2 (j - a) (by omega) (by omega)
    refine ⟨fun b' hb => ⟨_, h3, ?_⟩, fun hn => ?_, fun _ => by omega⟩
    · rw [h1] at hb
      cases hb
      exact setlsb_upper _ _
    · simp [hn] at h1
  · have e := (writeLsbs_cell h j).1 (by omega)
    exact ⟨fun b hb => ⟨b, by rw [e, hb], rfl⟩, fun hn => by rw [e, hn], fun _ => e⟩

end Sys2Proof.Machine
end

