-- ==== Sys2Proof/Laws/Commands.lean ====
section
/-! SUPPORT. One inversion lemma per command: everything it can answer, in the terms of the shared operations. -/

namespace Sys2Proof.Machine

variable {s t : State} {f : Fault}

/-- The constraints of 00_scope.md R9, as inequalities. -/
theorem Params.ok_iff {p : Params} : p.ok = true ↔
    32 ≤ p.chmemSize ∧ p.chmemSize ≤ 2 ^ 32 ∧ (p.chmemSize - 32) / 8 ≤ p.pmemSize ∧ p.pmemSize ≤ 2 ^ 29 - 1 := by
  simp [Params.ok, and_assoc]

theorem geometryOk_iff : s.geometryOk = true ↔ s.streamLen ≤ s.params.chmemSize := by simp [State.geometryOk]

/-- The header depends on channel memory alone. -/
theorem State.header_of_ch (h : t.ch = s.ch) : t.header = s.header := by simp only [State.header, h]

/-- `read_lsbs` inside the memory, in one line. -/
theorem readLsbs_iff {size : Nat} {m : Memory Byte} {a n : Nat} {B : List Bit} (hs : a + n ≤ size) :
    readLsbs size m a n = .ok B ↔ m.holds a n = true ∧ B = m.lsbs a n :=
  ⟨fun h => ⟨(readLsbs_ok h).2, (readLsbs_ok h).1⟩, fun h => h.2 ▸ readLsbs_of_holds hs h.1⟩

theorem plausible_iff {n L : Nat} : plausible n L = true ↔ n ≠ 0 ∧ (n : Int) ≤ (L : Int) - 32 := by simp [plausible]

/-- The payload of a plausible header lies inside the stream. -/
theorem plausible_le {n L : Nat} (h : plausible n L = true) : 32 + n ≤ L := by
  have := (plausible_iff.mp h).2
  omega

theorem execCapacity_eq (s : State) : execCapacity s = .next ((((s.withPixcnt (BitVec.ofNat 32 s.pixelCount)).withAvail
    (BitVec.ofInt 64 (availableBits s.pixelCount))).withMaxb
      (BitVec.ofInt 32 (maxBytes (availableBits s.pixelCount)))).finished .ok) := rfl

theorem execValidate_eq (s : State) :
    execValidate s = .next ((s.withValid (decide ((s.plen.toNat : Int) ≤ s.maxb.toInt))).finished .ok) := rfl

theorem execPack_next : execPack s = .next t ↔
    (s.params.pmemSize < s.plen.toNat ∧ t = s.finished .outOfRange) ∨
    (s.plen.toNat ≤ s.params.pmemSize ∧ ∃ bytes, readRun .pm s.params.pmemSize s.pm 0 s.plen.toNat = .ok bytes ∧
      ∃ bm, writeRun .bm s.params.bitmemBits s.bm 0 (bytesToBits bytes) = .ok bm ∧
        t = ((s.withBm bm).withRlen (BitVec.ofNat 32 (8 * s.plen.toNat))).finished .ok) := by
  unfold execPack
  split <;> rename_i h
  · simp [Nat.not_le.mpr h, h]
  · simp [attempt_next, Nat.not_lt.mp h, h]

theorem execPack_fault : execPack s = .fault f ↔
    s.plen.toNat ≤ s.params.pmemSize ∧ (readRun .pm s.params.pmemSize s.pm 0 s.plen.toNat = .error f ∨
      ∃ bytes, readRun .pm s.params.pmemSize s.pm 0 s.plen.toNat = .ok bytes ∧
        writeRun .bm s.params.bitmemBits s.bm 0 (bytesToBits bytes) = .error f) := by
  unfold execPack
  split <;> rename_i h
  · simp [Nat.not_le.mpr h]
  · simp [attempt_fault, Nat.not_lt.mp h]

theorem execUnpack_next : execUnpack s = .next t ↔
    (s.params.bitmemBits < s.nbits.toNat ∧ t = s.finished .outOfRange) ∨
    (s.nbits.toNat ≤ s.params.bitmemBits ∧
      ∃ bits, readRun .bm s.params.bitmemBits s.bm 0 (8 * (s.nbits.toNat / 8)) = .ok bits ∧
        ∃ pm, writeRun .pm s.params.pmemSize s.pm 0 (bitsToBytes bits) = .ok pm ∧
          t = ((s.withPm pm).withRlen (BitVec.ofNat 32 (s.nbits.toNat / 8))).finished .ok) := by
  unfold execUnpack
  split <;> rename_i h
  · simp [Nat.not_le.mpr h, h]
  · simp [attempt_next, Nat.not_lt.mp h, h]

theorem execUnpack_fault : execUnpack s = .fault f ↔
    s.nbits.toNat ≤ s.params.bitmemBits ∧
      (readRun .bm s.params.bitmemBits s.bm 0 (8 * (s.nbits.toNat / 8)) = .error f ∨
      ∃ bits, readRun .bm s.params.bitmemBits s.bm 0 (8 * (s.nbits.toNat / 8)) = .ok bits ∧
        writeRun .pm s.params.pmemSize s.pm 0 (bitsToBytes bits) = .error f) := by
  unfold execUnpack
  split <;> rename_i h
  · simp [Nat.not_le.mpr h]
  · simp [attempt_fault, Nat.not_lt.mp h]

theorem execLsbWrite_next : execLsbWrite s = .next t ↔
    (s.params.chmemSize < s.streamLen ∧ t = s.finished .badGeometry) ∨
    (s.streamLen ≤ s.params.chmemSize ∧ s.streamLen ≤ s.idx.toNat ∧ t = s.finished .outOfRange) ∨
    (s.streamLen ≤ s.params.chmemSize ∧ s.idx.toNat < s.streamLen ∧ ∃ b, s.ch.cell s.idx.toNat = some b ∧
      t = (s.withCh (s.ch.put s.idx.toNat (setlsb b s.bitio))).finished .ok) := by
  unfold execLsbWrite
  by_cases hg : s.streamLen ≤ s.params.chmemSize
  · rw [if_neg (by simp [State.geometryOk, hg])]
    split <;> rename_i h
    · simp [hg, h, Nat.not_lt.mpr hg, Nat.not_lt.mpr h]
    · have hlt : s.idx.toNat < s.streamLen := Nat.not_le.mp h
      have hlt' : s.idx.toNat < s.params.chmemSize := by omega
      simp [attempt_next, readCell_ok, writeCell_ok, hg, hlt, hlt', Nat.not_lt.mpr hg, Nat.not_le.mpr hlt]
  · rw [if_pos (by simp [State.geometryOk, hg])]
    simp [hg, Nat.not_le.mp hg]

theorem execLsbWrite_fault : execLsbWrite s = .fault f ↔
    s.streamLen ≤ s.params.chmemSize ∧ s.idx.toNat < s.streamLen ∧ s.ch.cell s.idx.toNat = none ∧
      f = .uninitRead .ch s.idx.toNat := by
  unfold execLsbWrite
  by_cases hg : s.streamLen ≤ s.params.chmemSize
  · rw [if_neg (by simp [State.geometryOk, hg])]
    split <;> rename_i h
    · simp [Nat.not_lt.mpr h]
    · have hlt : s.idx.toNat < s.streamLen := Nat.not_le.mp h
      have hlt' : s.idx.toNat < s.params.chmemSize := by omega
      simp [attempt_fault, readCell_ok, readCell_error, writeCell_error, hg, hlt, hlt', Nat.not_le.mpr hlt']
  · rw [if_pos (by simp [State.geometryOk, hg])]
    simp [hg]

theorem execLsbRead_next : execLsbRead s = .next t ↔
    (s.params.chmemSize < s.streamLen ∧ t = s.finished .badGeometry) ∨
    (s.streamLen ≤ s.params.chmemSize ∧ s.streamLen ≤ s.idx.toNat ∧ t = s.finished .outOfRange) ∨
    (s.streamLen ≤ s.params.chmemSize ∧ s.idx.toNat < s.streamLen ∧ ∃ b, s.ch.cell s.idx.toNat = some b ∧
      t = (s.withBitio (lsb b)).finished .ok) := by
  unfold execLsbRead
  by_cases hg : s.streamLen ≤ s.params.chmemSize
  · rw [if_neg (by simp [State.geometryOk, hg])]
    split <;> rename_i h
    · simp [hg, h, Nat.not_lt.mpr hg, Nat.not_lt.mpr h]
    · have hlt : s.idx.toNat < s.streamLen := Nat.not_le.mp h
      have hlt' : s.idx.toNat < s.params.chmemSize := by omega
      simp [attempt_next, readCell_ok, hg, hlt, hlt', Nat.not_lt.mpr hg, Nat.not_le.mpr hlt]
  · rw [if_pos (by simp [State.geometryOk, hg])]
    simp [hg, Nat.not_le.mp hg]

theorem execLsbRead_fault : execLsbRead s = .fault f ↔
    s.streamLen ≤ s.params.chmemSize ∧ s.idx.toNat < s.streamLen ∧ s.ch.cell s.idx.toNat = none ∧
      f = .uninitRead .ch s.idx.toNat := by
  unfold execLsbRead
  by_cases hg : s.streamLen ≤ s.params.chmemSize
  · rw [if_neg (by simp [State.geometryOk, hg])]
    split <;> rename_i h
    · simp [Nat.not_lt.mpr h]
    · have hlt : s.idx.toNat < s.streamLen := Nat.not_le.mp h
      have hlt' : s.idx.toNat < s.params.chmemSize := by omega
      simp [attempt_fault, readCell_error, hg, hlt, hlt', Nat.not_le.mpr hlt']
  · rw [if_pos (by simp [State.geometryOk, hg])]
    simp [hg]

theorem execHdrEncode_next : execHdrEncode s = .next t ↔
    (s.params.chmemSize < s.streamLen ∧ t = s.finished .badGeometry) ∨
    (s.streamLen ≤ s.params.chmemSize ∧ s.streamLen < 32 ∧ t = s.finished .outOfRange) ∨
    (s.streamLen ≤ s.params.chmemSize ∧ 32 ≤ s.streamLen ∧
      ∃ ch, writeLsbs s.params.chmemSize s.ch 0 (hdrBits s.hdrval.toNat) = .ok ch ∧
        t = (s.withCh ch).finished .ok) := by
  unfold execHdrEncode
  by_cases hg : s.streamLen ≤ s.params.chmemSize
  · rw [if_neg (by simp [State.geometryOk, hg])]
    split <;> rename_i h
    · have h' : s.streamLen < 32 := h
      simp [hg, h', Nat.not_lt.mpr hg, Nat.not_le.mpr h']
    · have h' : 32 ≤ s.streamLen := Nat.not_lt.mp h
      simp [attempt_next, hg, h', Nat.not_lt.mpr hg, Nat.not_lt.mpr h']
  · rw [if_pos (by simp [State.geometryOk, hg])]
    simp [hg, Nat.not_le.mp hg]

theorem execHdrEncode_fault : execHdrEncode s = .fault f ↔
    s.streamLen ≤ s.params.chmemSize ∧ 32 ≤ s.streamLen ∧
      writeLsbs s.params.chmemSize s.ch 0 (hdrBits s.hdrval.toNat) = .error f := by
  unfold execHdrEncode
  by_cases hg : s.streamLen ≤ s.params.chmemSize
  · rw [if_neg (by simp [State.geometryOk, hg])]
    split <;> rename_i h
    · have h' : s.streamLen < 32 := h
      simp [Nat.not_le.mpr h']
    · have h' : 32 ≤ s.streamLen := Nat.not_lt.mp h
      simp [attempt_fault, hg, h']
  · rw [if_pos (by simp [State.geometryOk, hg])]
    simp [hg]

theorem execHdrDecode_next : execHdrDecode s = .next t ↔
    (s.params.chmemSize < s.streamLen ∧ t = s.finished .badGeometry) ∨
    (s.streamLen ≤ s.params.chmemSize ∧ s.streamLen < 32 ∧ t = (s.withHdrval 0#32).finished .noMessage) ∨
    (s.streamLen ≤ s.params.chmemSize ∧ 32 ≤ s.streamLen ∧ s.ch.holds 0 32 = true ∧
      ∃ n, s.header = n ∧ ∃ c, c = (if plausible n s.streamLen then .ok else .noMessage) ∧
        t = (s.withHdrval (BitVec.ofNat 32 n)).finished c) := by
  simp only [exists_eq_left, exists_eq_left']
  unfold execHdrDecode
  by_cases hg : s.streamLen ≤ s.params.chmemSize
  · rw [if_neg (by simp [State.geometryOk, hg])]
    split <;> rename_i h
    · have h' : s.streamLen < 32 := h
      simp [hg, h', Nat.not_lt.mpr hg, Nat.not_le.mpr h']
    · have h' : 32 ≤ s.streamLen := Nat.not_lt.mp h
      simp only [attempt_next, finish_next, hg, h', Nat.not_lt.mpr hg, Nat.not_lt.mpr h', false_and, true_and, false_or]
      constructor
      · rintro ⟨B, hB, rfl⟩
        obtain ⟨rfl, hh⟩ := readLsbs_ok hB
        exact ⟨hh, rfl⟩
      · rintro ⟨hh, rfl⟩
        exact ⟨_, readLsbs_of_holds (by simp [hdrBitCount]; omega) hh, rfl⟩
  · rw [if_pos (by simp [State.geometryOk, hg])]
    simp [hg, Nat.not_le.mp hg]

theorem execHdrDecode_fault : execHdrDecode s = .fault f ↔
    s.streamLen ≤ s.params.chmemSize ∧ 32 ≤ s.streamLen ∧ readLsbs s.params.chmemSize s.ch 0 32 = .error f := by
  unfold execHdrDecode
  by_cases hg : s.streamLen ≤ s.params.chmemSize
  · rw [if_neg (by simp [State.geometryOk, hg])]
    split <;> rename_i h
    · have h' : s.streamLen < 32 := h
      simp [Nat.not_le.mpr h']
    · have h' : 32 ≤ s.streamLen := Nat.not_lt.mp h
      simp [attempt_fault, hg, h', hdrBitCount]
  · rw [if_pos (by simp [State.geometryOk, hg])]
    simp [hg]

theorem execEmbed_next : execEmbed s = .next t ↔
    (s.params.chmemSize < s.streamLen ∧ t = s.finished .badGeometry) ∨
    (s.streamLen ≤ s.params.chmemSize ∧ s.streamLen < 8 * s.plen.toNat + 32 ∧ t = s.finished .capacityExceeded) ∨
    (s.streamLen ≤ s.params.chmemSize ∧ 8 * s.plen.toNat + 32 ≤ s.streamLen ∧
      ∃ payload, readRun .pm s.params.pmemSize s.pm 0 s.plen.toNat = .ok payload ∧
        ∃ ch, writeLsbs s.params.chmemSize s.ch 0 (hdrBits (8 * s.plen.toNat)) = .ok ch ∧
          ∃ ch', writeLsbs s.params.chmemSize ch 32 (bytesToBits payload) = .ok ch' ∧
            t = (s.withCh ch').finished .ok) := by
  unfold execEmbed
  by_cases hg : s.streamLen ≤ s.params.chmemSize
  · rw [if_neg (by simp [State.geometryOk, hg])]
    split <;> rename_i h
    · have h' : s.streamLen < 8 * s.plen.toNat + 32 := by simp only [hdrBitCount] at h; omega
      simp [hg, h', Nat.not_lt.mpr hg, Nat.not_le.mpr h']
    · have h' : 8 * s.plen.toNat + 32 ≤ s.streamLen := by simp only [hdrBitCount] at h; omega
      simp [attempt_next, hg, h', Nat.not_lt.mpr hg, Nat.not_lt.mpr h', hdrBitCount]
  · rw [if_pos (by simp [State.geometryOk, hg])]
    simp [hg, Nat.not_le.mp hg]

theorem execEmbed_fault : execEmbed s = .fault f ↔
    s.streamLen ≤ s.params.chmemSize ∧ 8 * s.plen.toNat + 32 ≤ s.streamLen ∧
      (readRun .pm s.params.pmemSize s.pm 0 s.plen.toNat = .error f ∨
      ∃ payload, readRun .pm s.params.pmemSize s.pm 0 s.plen.toNat = .ok payload ∧
        (writeLsbs s.params.chmemSize s.ch 0 (hdrBits (8 * s.plen.toNat)) = .error f ∨
        ∃ ch, writeLsbs s.params.chmemSize s.ch 0 (hdrBits (8 * s.plen.toNat)) = .ok ch ∧
          writeLsbs s.params.chmemSize ch 32 (bytesToBits payload) = .error f)) := by
  unfold execEmbed
  by_cases hg : s.streamLen ≤ s.params.chmemSize
  · rw [if_neg (by simp [State.geometryOk, hg])]
    split <;> rename_i h
    · have h' : s.streamLen < 8 * s.plen.toNat + 32 := by simp only [hdrBitCount] at h; omega
      simp [Nat.not_le.mpr h']
    · have h' : 8 * s.plen.toNat + 32 ≤ s.streamLen := by simp only [hdrBitCount] at h; omega
      simp [attempt_fault, hg, h', hdrBitCount]
  · rw [if_pos (by simp [State.geometryOk, hg])]
    simp [hg]

theorem execExtract_next : execExtract s = .next t ↔
    (s.params.chmemSize < s.streamLen ∧ t = s.finished .badGeometry) ∨
    (s.streamLen ≤ s.params.chmemSize ∧ s.streamLen < 32 ∧
      t = ((s.withHdrval 0#32).withRlen 0#32).finished .noMessage) ∨
    (s.streamLen ≤ s.params.chmemSize ∧ 32 ≤ s.streamLen ∧ s.ch.holds 0 32 = true ∧
      ∃ n, s.header = n ∧ plausible n s.streamLen = false ∧
      t = ((s.withHdrval (BitVec.ofNat 32 n)).withRlen 0#32).finished .noMessage) ∨
    (s.streamLen ≤ s.params.chmemSize ∧ 32 ≤ s.streamLen ∧ s.ch.holds 0 32 = true ∧
      ∃ n, s.header = n ∧ plausible n s.streamLen = true ∧ s.ch.holds 32 n = true ∧
      ∃ pm, writeRun .pm s.params.pmemSize s.pm 0 (bitsToBytes (s.ch.lsbs 32 n)) = .ok pm ∧
        t = (((s.withHdrval (BitVec.ofNat 32 n)).withPm pm).withRlen (BitVec.ofNat 32 (n / 8))).finished .ok) := by
  simp only [exists_eq_left']
  unfold execExtract
  by_cases hg : s.streamLen ≤ s.params.chmemSize
  · rw [if_neg (by simp [State.geometryOk, hg])]
    split <;> rename_i h
    · have h' : s.streamLen < 32 := h
      simp [hg, h', Nat.not_lt.mpr hg, Nat.not_le.mpr h']
    · have h' : 32 ≤ s.streamLen := Nat.not_lt.mp h
      by_cases hh : s.ch.holds 0 32 = true
      · rw [show hdrBitCount = 32 from rfl, readLsbs_of_holds (by omega) hh, attempt_ok]
        simp only [show hdrValue (s.ch.lsbs 0 32) = s.header from rfl, hg, h', hh, Nat.not_lt.mpr hg,
          Nat.not_lt.mpr h', false_and, true_and, false_or]
        cases hp : plausible s.header s.streamLen with
        | false => simp
        | true =>
          simp only [Bool.not_true, Bool.false_eq_true, if_false, attempt_next, finish_next, false_and, true_and,
            false_or, reduceCtorEq, readLsbs_iff (Nat.le_trans (plausible_le hp) hg), and_assoc, exists_and_left,
            exists_eq_left]
      · simp only [attempt_next, hh, Nat.not_lt.mpr hg, Nat.not_lt.mpr h', Bool.false_eq_true, false_and, and_false, or_self,
          iff_false]
        rintro ⟨B, hB, -⟩
        exact hh (readLsbs_ok hB).2
  · rw [if_pos (by simp [State.geometryOk, hg])]
    simp [hg, Nat.not_le.mp hg]

theorem execExtract_fault : execExtract s = .fault f ↔
    s.streamLen ≤ s.params.chmemSize ∧ 32 ≤ s.streamLen ∧
      (readLsbs s.params.chmemSize s.ch 0 32 = .error f ∨
      (s.ch.holds 0 32 = true ∧ ∃ n, s.header = n ∧ plausible n s.streamLen = true ∧
        (readLsbs s.params.chmemSize s.ch 32 n = .error f ∨
        (s.ch.holds 32 n = true ∧
          writeRun .pm s.params.pmemSize s.pm 0 (bitsToBytes (s.ch.lsbs 32 n)) = .error f)))) := by
  simp only [exists_eq_left']
  unfold execExtract
  by_cases hg : s.streamLen ≤ s.params.chmemSize
  · rw [if_neg (by simp [State.geometryOk, hg])]
    split <;> rename_i h
    · have h' : s.streamLen < 32 := h
      simp [Nat.not_le.mpr h']
    · have h' : 32 ≤ s.streamLen := Nat.not_lt.mp h
      rw [show hdrBitCount = 32 from rfl]
      by_cases hh : s.ch.holds 0 32 = true
      · rw [readLsbs_of_holds (by omega) hh, attempt_ok]
        simp only [show hdrValue (s.ch.lsbs 0 32) = s.header from rfl, hg, h', hh, true_and, false_or, reduceCtorEq]
        cases hp : plausible s.header s.streamLen with
        | false => simp
        | true =>
          simp only [Bool.not_true, Bool.false_eq_true, if_false, attempt_fault, finish_ne_fault, and_false,
            exists_false, or_false, true_and, readLsbs_iff (Nat.le_trans (plausible_le hp) hg), and_assoc,
            exists_and_left, exists_eq_left]
      · simp only [attempt_fault, hg, h', hh, Bool.false_eq_true, true_and, false_and, or_false]
        constructor
        · rintro (h1 | ⟨B, hB, -⟩)
          · exact h1
          · exact absurd (readLsbs_ok hB).2 hh
        · exact .inl
  · rw [if_pos (by simp [State.geometryOk, hg])]
    simp [hg]

/-- No command is refused (60_exceptions.md R215). -/
theorem exec_ne_refused (i : Instr) (s : State) (q : Refusal) : exec i s ≠ .refused q := by
  have hif (c : Prop) [Decidable c] (a b : Result) (ha : a ≠ .refused q) (hb : b ≠ .refused q) :
      (if c then a else b) ≠ .refused q := by split <;> assumption
  have hat {α : Type} (r : Except Fault α) (k : α → Result) (hk : ∀ x, k x ≠ .refused q) : attempt r k ≠ .refused q := by
    cases r <;> simp [hk]
  have hfin (c : Code) (u : State) := finish_ne_refused c u q
  cases i
  · exact hfin _ _
  · exact hif _ _ _ (hfin _ _) (hat _ _ fun _ => hat _ _ fun _ => hfin _ _)
  · exact hif _ _ _ (hfin _ _) (hat _ _ fun _ => hat _ _ fun _ => hfin _ _)
  · exact hfin _ _
  · exact hif _ _ _ (hfin _ _) (hif _ _ _ (hfin _ _) (hat _ _ fun _ => hat _ _ fun _ => hfin _ _))
  · exact hif _ _ _ (hfin _ _) (hif _ _ _ (hfin _ _) (hat _ _ fun _ => hfin _ _))
  · exact hif _ _ _ (hfin _ _) (hif _ _ _ (hfin _ _) (hat _ _ fun _ => hfin _ _))
  · exact hif _ _ _ (hfin _ _) (hif _ _ _ (hfin _ _) (hat _ _ fun _ => hfin _ _))
  · exact hif _ _ _ (hfin _ _)
      (hif _ _ _ (hfin _ _) (hat _ _ fun _ => hat _ _ fun _ => hat _ _ fun _ => hfin _ _))
  · exact hif _ _ _ (hfin _ _) (hif _ _ _ (hfin _ _)
      (hat _ _ fun _ => hif _ _ _ (hfin _ _) (hat _ _ fun _ => hat _ _ fun _ => hfin _ _)))

/-- A command changes neither the parameters nor what the outside world does next, and leaves BUSY 0. -/
theorem exec_next_host (i : Instr) (h : exec i s = .next t) :
    t.params = s.params ∧ t.moves = s.moves ∧ t.busy = false := by
  cases i
  · cases h; exact ⟨rfl, rfl, rfl⟩
  · rcases execPack_next.mp h with ⟨_, rfl⟩ | ⟨-, _, -, _, -, rfl⟩ <;> exact ⟨rfl, rfl, rfl⟩
  · rcases execUnpack_next.mp h with ⟨_, rfl⟩ | ⟨-, _, -, _, -, rfl⟩ <;> exact ⟨rfl, rfl, rfl⟩
  · cases h; exact ⟨rfl, rfl, rfl⟩
  · rcases execLsbWrite_next.mp h with ⟨_, rfl⟩ | ⟨_, _, rfl⟩ | ⟨-, -, _, -, rfl⟩ <;> exact ⟨rfl, rfl, rfl⟩
  · rcases execLsbRead_next.mp h with ⟨_, rfl⟩ | ⟨_, _, rfl⟩ | ⟨-, -, _, -, rfl⟩ <;> exact ⟨rfl, rfl, rfl⟩
  · rcases execHdrEncode_next.mp h with ⟨_, rfl⟩ | ⟨_, _, rfl⟩ | ⟨-, -, _, -, rfl⟩ <;> exact ⟨rfl, rfl, rfl⟩
  · rcases execHdrDecode_next.mp h with ⟨_, rfl⟩ | ⟨_, _, rfl⟩ | ⟨-, -, -, n, -, c, -, rfl⟩ <;> exact ⟨rfl, rfl, rfl⟩
  · rcases execEmbed_next.mp h with ⟨_, rfl⟩ | ⟨_, _, rfl⟩ | ⟨-, -, _, -, _, -, _, -, rfl⟩ <;> exact ⟨rfl, rfl, rfl⟩
  · rcases execExtract_next.mp h with ⟨_, rfl⟩ | ⟨_, _, rfl⟩ | ⟨-, -, -, _, -, -, rfl⟩ |
      ⟨-, -, -, _, -, -, -, _, -, rfl⟩ <;> exact ⟨rfl, rfl, rfl⟩

/-- The products of CAPACITY fit their registers, so the registers hold the exact integers (40_bit_packer.md R101). -/
theorem capacity_fits (s : State) :
    (BitVec.ofNat 32 s.pixelCount).toNat = s.width.toNat * s.height.toNat ∧
    (BitVec.ofInt 64 (availableBits s.pixelCount)).toInt = (s.width.toNat : Int) * s.height.toNat * 3 - 32 ∧
    (BitVec.ofInt 32 (maxBytes (availableBits s.pixelCount))).toInt =
      ((s.width.toNat : Int) * s.height.toNat * 3 - 32) / 8 ∧
    s.width.toNat * s.height.toNat ≤ 65535 * 65535 := by
  have hle : s.width.toNat * s.height.toNat ≤ 65535 * 65535 :=
    Nat.mul_le_mul (by have := s.width.isLt; omega) (by have := s.height.isLt; omega)
  have e : s.pixelCount = s.width.toNat * s.height.toNat := rfl
  rw [e, ← Int.natCast_mul]
  generalize s.width.toNat * s.height.toNat = n at *
  refine ⟨?_, ?_, ?_, hle⟩
  · rw [BitVec.toNat_ofNat, Nat.mod_eq_of_lt]; omega
  · rw [BitVec.toInt_ofInt, Int.bmod_eq_of_le]
    · rfl
    · simp only [availableBits]; omega
    · simp only [availableBits]; omega
  · rw [BitVec.toInt_ofInt, Int.bmod_eq_of_le]
    · rfl
    · simp only [availableBits, maxBytes]; omega
    · simp only [availableBits, maxBytes]; omega

/-- The header is `n` where element `i` carries bit `31 - i` of `n` (42_length_header.md R150). -/
theorem header_of_bits (s : State) (n : Nat) (hn : n < 2 ^ 32)
    (h : ∀ i, i < 32 → (s.ch.cell i).map (fun b => b.getLsbD 0) = some (n.testBit (31 - i))) :
    s.ch.holds 0 32 = true ∧ s.header = n := by
  have hh : s.ch.holds 0 32 = true := by
    rw [Memory.holds_iff_isSome]
    intro i hi
    have := h i hi
    rw [Nat.zero_add]
    cases hc : s.ch.cell i <;> simp_all
  refine ⟨hh, ?_⟩
  have hl : s.ch.lsbs 0 32 = hdrBits n := by
    apply List.ext_getElem?
    intro t
    by_cases ht : t < 32
    · rw [hdrBits_getElem? _ _ ht]
      have := h t ht
      cases hc : s.ch.cell t with
      | none => simp [hc] at this
      | some b =>
        rw [Memory.lsbs_getElem? _ _ _ _ b ht (by simpa using hc)]
        rw [hc] at this
        exact this
    · rw [List.getElem?_eq_none (by simp; omega), List.getElem?_eq_none (by simp; omega)]
  show hdrValue (s.ch.lsbs 0 32) = n
  rw [hl, hdrValue_hdrBits n hn]

/-- What the three accesses of an EMBED that succeeds leave in channel memory (43_embed_extract.md R170, R171). -/
theorem embed_cells {xs : List Byte} {m m' : Memory Byte}
    (h3 : readRun .pm s.params.pmemSize s.pm 0 s.plen.toNat = .ok xs)
    (h4 : writeLsbs s.params.chmemSize s.ch 0 (hdrBits (8 * s.plen.toNat)) = .ok m)
    (h5 : writeLsbs s.params.chmemSize m 32 (bytesToBits xs) = .ok m') :
    (∀ i b, i < 32 → s.ch.cell i = some b → m'.cell i = some (setlsb b ((8 * s.plen.toNat).testBit (31 - i)))) ∧
    (∀ k j p b, k < s.plen.toNat → j < 8 → s.pm.cell k = some p → s.ch.cell (32 + 8 * k + j) = some b →
      m'.cell (32 + 8 * k + j) = some (setlsb b (p.getLsbD (7 - j)))) ∧
    (∀ i, 32 + 8 * s.plen.toNat ≤ i → m'.cell i = s.ch.cell i) ∧
    (∀ i, i < 32 + 8 * s.plen.toNat → ∃ b u, s.ch.cell i = some b ∧ m'.cell i = some (setlsb b u)) := by
  obtain ⟨hl, hx⟩ := readRun_ok.mp h3
  refine ⟨fun i b hi hb => ?_, fun k j p b hk hj hp hb => ?_, fun i hi => ?_, fun i hi => ?_⟩
  · obtain ⟨-, b', u, e1, e2, e3⟩ := (writeLsbs_cell h4 i).2 i (by omega) (by simp; omega)
    rw [(writeLsbs_cell h5 i).1 (by omega), e3]
    rw [hb] at e1
    cases e1
    rw [hdrBits_getElem? _ _ hi] at e2
    cases e2
    rfl
  · obtain ⟨-, b', u, e1, e2, e3⟩ :=
      (writeLsbs_cell h5 (32 + 8 * k + j)).2 (8 * k + j) (by omega) (by simp; omega)
    rw [(writeLsbs_cell h4 _).1 (by simp; omega), hb] at e1
    cases e1
    have := (hx k hk).2
    rw [Nat.zero_add, hp] at this
    rw [bytesToBits_getElem? xs k j p this.symm hj] at e2
    cases e2
    exact e3
  · rw [(writeLsbs_cell h5 i).1 (by simp; omega), (writeLsbs_cell h4 i).1 (by simp; omega)]
  · by_cases h32 : i < 32
    · obtain ⟨-, b', u, e1, e2, e3⟩ := (writeLsbs_cell h4 i).2 i (by omega) (by simp; omega)
      exact ⟨b', u, e1, by rw [(writeLsbs_cell h5 i).1 (by omega), e3]⟩
    · obtain ⟨-, b', u, e1, e2, e3⟩ := (writeLsbs_cell h5 i).2 (i - 32) (by omega) (by simp; omega)
      rw [(writeLsbs_cell h4 _).1 (by simp; omega)] at e1
      exact ⟨b', u, e1, e3⟩

end Sys2Proof.Machine
end

