-- ==== Sys2Proof/Laws/Host.lean ====
section
/-! SUPPORT. Laws of the host's port and of who moves: the register map, what a host operation can do, what a step can do. -/

namespace Sys2Proof.Machine

variable {s t : State}

/-- Every register is found at its own offset (10_state.md R23). -/
@[simp] theorem regAt_regOffset (r : Reg) : regAt (regOffset r) = some r := by cases r <;> decide

theorem regAt_eq_some {off : BitVec 8} {r : Reg} : regAt off = some r ↔ off = regOffset r := by
  constructor
  · intro h
    have := List.find?_some h
    exact (beq_iff_eq.mp this).symm
  · rintro rfl
    exact regAt_regOffset r

/-- An offset from 0x3C on is reserved (10_state.md R37). -/
theorem regAt_reserved {off : BitVec 8} (h : 0x3C ≤ off.toNat) : regAt off = none := by
  cases hr : regAt off with
  | none => rfl
  | some r =>
    have hlt : ∀ r, ¬ 0x3C ≤ (regOffset r).toNat := by intro r; cases r <;> decide
    exact absurd (regAt_eq_some.mp hr ▸ h) (hlt r)

@[simp] theorem indexWf_ch {p : Params} {i : Nat} : indexWf p .ch i = true ↔ i < p.chmemSize := decide_eq_true_iff

@[simp] theorem indexWf_pm {p : Params} {i : Nat} : indexWf p .pm i = true ↔ i < p.pmemSize := decide_eq_true_iff

@[simp] theorem indexWf_bm {p : Params} {i : Nat} : indexWf p .bm i = true ↔ i < p.bitmemBits := decide_eq_true_iff

@[simp] theorem registerAccessWf_iff {off : BitVec 8} {bits : Nat} :
    registerAccessWf off bits = true ↔ bits = 32 ∧ off.toNat % 4 = 0 := by simp [registerAccessWf]

/-- A host operation is taken exactly when its form is right and it is no write while a command is in flight. -/
theorem hostOp_next {op : HostOp} : hostOp op s = .next t ↔
    op.wf s.params = true ∧ (HostOp.writes op = true → s.busy = false) ∧ t = s.hostEffect op := by
  unfold hostOp
  cases op.wf s.params <;> cases HostOp.writes op <;> cases s.busy <;> simp [eq_comm]

theorem hostOp_refused {op : HostOp} : (∃ r, hostOp op s = .refused r) ↔
    op.wf s.params = false ∨ (HostOp.writes op = true ∧ s.busy = true) := by
  unfold hostOp
  cases op.wf s.params <;> cases HostOp.writes op <;> cases s.busy <;> simp

@[simp] theorem hostOp_ne_fault (op : HostOp) (s : State) (f : Fault) : hostOp op s ≠ .fault f := by
  unfold hostOp
  cases op.wf s.params <;> cases HostOp.writes op <;> cases s.busy <;> simp

/-- The block's turn: idle, one command, or an illegal word (60_exceptions.md R202). -/
theorem blockTurn_cases (s : State) :
    (s.cur = none ∧ blockTurn s = .next s) ∨
    (∃ w i, s.cur = some w ∧ decode w = .ok i ∧ blockTurn s = exec i s) ∨
    (∃ w e, s.cur = some w ∧ decode w = .error e ∧ blockTurn s = .next (s.finished .illegalCommand)) := by
  unfold blockTurn
  cases hc : s.cur with
  | none => exact .inl ⟨rfl, rfl⟩
  | some w =>
    cases hd : decode w with
    | ok i => exact .inr (.inl ⟨w, i, rfl, hd, by simp [hd]⟩)
    | error e => exact .inr (.inr ⟨w, e, rfl, hd, by simp [hd, finish]⟩)

theorem blockTurn_ne_refused (s : State) (q : Refusal) : blockTurn s ≠ .refused q := by
  rcases blockTurn_cases s with ⟨_, h⟩ | ⟨_, i, _, _, h⟩ | ⟨_, _, _, _, h⟩ <;> rw [h]
  · nofun
  · exact exec_ne_refused i s q
  · nofun

/-- Everything a step can be: the block's turn (with the moves as they are, or less a `block` move), a reset, or a host
operation taken off the moves. -/
theorem step_cases (s : State) :
    ((s.moves = [] ∨ (s.busy = true ∧ ∃ ms, s.moves = .host .wait :: ms)) ∧ step s = blockTurn s) ∨
    (∃ ms, s.moves = .block :: ms ∧ step s = blockTurn (s.withMoves ms)) ∨
    (∃ ms, s.moves = .reset :: ms ∧ step s = .next (s.withMoves ms).afterReset) ∨
    (∃ op ms, s.moves = .host op :: ms ∧ ¬ (op = .wait ∧ s.busy = true) ∧ step s = hostOp op (s.withMoves ms)) := by
  unfold step advance
  split <;> rename_i hm
  · exact .inl ⟨.inl hm, rfl⟩
  · exact .inr (.inl ⟨_, hm, rfl⟩)
  · exact .inr (.inr (.inl ⟨_, hm, rfl⟩))
  · rename_i op ms
    by_cases hw : op = .wait ∧ s.busy = true
    · refine .inl ⟨.inr ⟨hw.2, ms, by rw [hm, hw.1]⟩, by simp [hostTurn, hw]⟩
    · exact .inr (.inr (.inr ⟨op, ms, hm, hw, by simp only [hostTurn, if_neg hw]⟩))

/-- A host operation of a right form, other than `wait`, that is no write in flight is taken at once. -/
theorem step_host {s : State} {op : HostOp} {ms : List Move} (hm : s.moves = .host op :: ms) (hw : op ≠ .wait)
    (hf : op.wf s.params = true) (hb : HostOp.writes op = true → s.busy = false) :
    step s = .next ((s.withMoves ms).hostEffect op) := by
  simp only [step, advance, hm, hostTurn, hw, false_and, if_false]
  exact hostOp_next.mpr ⟨hf, hb, rfl⟩

end Sys2Proof.Machine
end

