-- ==== Sys2Proof/Laws/PerInstr.lean ====
section
/-! SUPPORT. The family `EncodedField`: what every command's encoding looks like, one lemma per command. -/

namespace Sys2Proof.Laws

/-- The command's word is legal: RSVD zero, OPC in 1 to 10 (30_encoding.md R72, R73), and its table word decodes to it. -/
def EncodedField.Statement (i : Instr) : Prop :=
  rsvdField (encode i) = 0#28 ∧ 1 ≤ (opcField (encode i)).toNat ∧ (opcField (encode i)).toNat ≤ 10 ∧
    legalWord (encode i) = true ∧ decodeTableWord 32 (encode i).toNat = some i

theorem EncodedField.capacity : EncodedField.Statement .capacity := by unfold EncodedField.Statement; decide
theorem EncodedField.pack : EncodedField.Statement .pack := by unfold EncodedField.Statement; decide
theorem EncodedField.unpack : EncodedField.Statement .unpack := by unfold EncodedField.Statement; decide
theorem EncodedField.validate : EncodedField.Statement .validate := by unfold EncodedField.Statement; decide
theorem EncodedField.lsbWrite : EncodedField.Statement .lsbWrite := by unfold EncodedField.Statement; decide
theorem EncodedField.lsbRead : EncodedField.Statement .lsbRead := by unfold EncodedField.Statement; decide
theorem EncodedField.hdrEncode : EncodedField.Statement .hdrEncode := by unfold EncodedField.Statement; decide
theorem EncodedField.hdrDecode : EncodedField.Statement .hdrDecode := by unfold EncodedField.Statement; decide
theorem EncodedField.embed : EncodedField.Statement .embed := by unfold EncodedField.Statement; decide
theorem EncodedField.extract : EncodedField.Statement .extract := by unfold EncodedField.Statement; decide

end Sys2Proof.Laws
end

