-- ==== Sys2Proof/Tests/Slice0.lean ====
section
/-! SUPPORT. Tests: well-formedness, decoding, one step per vector of 95_test_vectors.md, and the witnesses of the statements. -/

namespace Sys2Proof.Tests

open Sys2Proof Sys2Proof.Machine

/-- The next state of a result, if it is one. -/
def ran : Result → Option State
  | .next t => some t
  | _ => none

/-- The fault of a result, if it is one. -/
def faulted : Result → Option Fault
  | .fault f => some f
  | _ => none

/-- The refusal of a result, if it is one. -/
def refusal : Result → Option Refusal
  | .refused r => some r
  | _ => none

/-- `n` cells from 0, cell `i` holding `f i`. -/
def cells {α : Type} (f : Nat → α) (n : Nat) : Memory α := (List.range n).map fun i => (i, f i)

/-- Cells from 0 holding the values of a list. -/
def listed {α : Type} : Nat → List α → Memory α
  | _, [] => []
  | a, x :: xs => (a, x) :: listed (a + 1) xs

/-- The reset state with a geometry and a channel memory. -/
def carrier (w h : BitVec 16) (ch : Memory Byte) : State := { State.reset with width := w, height := h, ch := ch }

/-- `ramp(4, 4)` of 95_test_vectors.md. -/
def ramp44 : State := carrier 4#16 4#16 (cells (fun i => BitVec.ofNat 8 (0x80 + i)) 48)

/-- `flat(4, 4, 0x80)` of 95_test_vectors.md. -/
def flat44 : State := carrier 4#16 4#16 (cells (fun _ => 0x80#8) 48)

/-- `ramp(3, 3)` of 95_test_vectors.md: `L = 27`. -/
def ramp33 : State := carrier 3#16 3#16 (cells (fun i => BitVec.ofNat 8 (0x80 + i)) 27)

/-- `W = H = 40` of 95_test_vectors.md: `L = 4800`, above CHMEM_SIZE. -/
def big : State := carrier 40#16 40#16 []

/-- A carrier of `L = 33`, the least that a one-bit header fits, with its cells. -/
def thin (ch : Memory Byte) : State := carrier 1#16 11#16 ch

/-- `flat(4, 4, 0x80)` with the elements whose LSB is set. -/
def marked (p : Nat → Bool) (n : Nat) : Memory Byte := cells (fun i => if p i then 0x81#8 else 0x80#8) n

/-- A geometry that fits, and no cell written. -/
def bare44 : State := carrier 4#16 4#16 []

/-- "Hi" of 95_test_vectors.md in payload memory. -/
def hi44 : State := { ramp44 with plen := 2#32, pm := [(0, 0x48#8), (1, 0x69#8)] }

/-- The state with a command word in flight and the outside world's moves. -/
def flying (s : State) (w : Word) (ms : List Move) : State := { s.started w with moves := ms }

/-- The state with the outside world's moves. -/
def facing (s : State) (ms : List Move) : State := { s with moves := ms }

/-! ## Well-formedness: each check, and a term it refuses -/

theorem test_legalWord_accepts : legalWord 0x00000001#32 = true ∧ legalWord 0x0000000A#32 = true := by decide
theorem test_legalWord_refuses_opc_0 : legalWord 0x00000000#32 = false := by decide
theorem test_legalWord_refuses_opc_11 : legalWord 0x0000000B#32 = false := by decide
theorem test_legalWord_refuses_reserved_bits : legalWord 0x00000011#32 = false ∧ legalWord 0x80000001#32 = false := by decide
theorem test_params_ok : Params.vectors.ok = true := by decide
theorem test_params_refuses_chmem_31 : ({ Params.vectors with chmemSize := 31 } : Params).ok = false := by decide
theorem test_params_refuses_chmem_above : ({ Params.vectors with chmemSize := 2 ^ 32 + 1 } : Params).ok = false := by decide
theorem test_params_refuses_pmem_below : ({ Params.vectors with pmemSize := 507 } : Params).ok = false := by decide
theorem test_params_refuses_pmem_above : ({ Params.vectors with pmemSize := 2 ^ 29 } : Params).ok = false := by decide
theorem test_register_access_refuses_width : registerAccessWf 0x08#8 16 = false := by decide
theorem test_register_access_refuses_offset : registerAccessWf 0x0A#8 32 = false := by decide
theorem test_hostOp_wf_wr_rd : (HostOp.wr 0x08#8 8 0#32).wf Params.vectors = false ∧
    (HostOp.wr 0x09#8 32 0#32).wf Params.vectors = false ∧ (HostOp.rd 0x08#8 16).wf Params.vectors = false ∧
    (HostOp.rd 0x0B#8 32).wf Params.vectors = false := by decide
theorem test_hostOp_wf_ch : (HostOp.wbCh 4095 0#8).wf Params.vectors = true ∧
    (HostOp.wbCh 4096 0#8).wf Params.vectors = false ∧ (HostOp.rbCh 4096).wf Params.vectors = false := by decide
theorem test_hostOp_wf_pm : (HostOp.rbPm 507).wf Params.vectors = true ∧
    (HostOp.wbPm 508 0#8).wf Params.vectors = false ∧ (HostOp.rbPm 508).wf Params.vectors = false := by decide
theorem test_hostOp_wf_bm : (HostOp.rbit 4063).wf Params.vectors = true ∧
    (HostOp.wbit 4064 true).wf Params.vectors = false ∧ (HostOp.rbit 4064).wf Params.vectors = false := by decide

/-! ## Decoding: every command's word written out from 30_encoding.md R72 and R73, and the illegal words V90 to V94 -/

theorem test_decode_capacity : decode 0b00000000000000000000000000000001#32 = .ok .capacity := by decide
theorem test_decode_pack : decode 0b00000000000000000000000000000010#32 = .ok .pack := by decide
theorem test_decode_unpack : decode 0b00000000000000000000000000000011#32 = .ok .unpack := by decide
theorem test_decode_validate : decode 0b00000000000000000000000000000100#32 = .ok .validate := by decide
theorem test_decode_lsbWrite : decode 0b00000000000000000000000000000101#32 = .ok .lsbWrite := by decide
theorem test_decode_lsbRead : decode 0b00000000000000000000000000000110#32 = .ok .lsbRead := by decide
theorem test_decode_hdrEncode : decode 0b00000000000000000000000000000111#32 = .ok .hdrEncode := by decide
theorem test_decode_hdrDecode : decode 0b00000000000000000000000000001000#32 = .ok .hdrDecode := by decide
theorem test_decode_embed : decode 0b00000000000000000000000000001001#32 = .ok .embed := by decide
theorem test_decode_extract : decode 0b00000000000000000000000000001010#32 = .ok .extract := by decide
theorem test_decode_illegal_words : decode 0x00000000#32 = .error .reservedOpcode ∧
    decode 0x0000000B#32 = .error .reservedOpcode ∧ decode 0x0000000F#32 = .error .reservedOpcode ∧
    decode 0x00000010#32 = .error .reservedBits ∧ decode 0x80000009#32 = .error .reservedBits := by decide
theorem test_decodeTableWord : decodeTableWord 32 0x9 = some .embed ∧ decodeTableWord 32 0x10 = none ∧
    decodeTableWord 32 0xB = none := by decide
theorem test_withFetchWord_runs : (ran (step (State.reset.withFetchWord 32 0x1))).map (·.maxb) = some 0xFFFFFFFC#32 := by
  decide

/-! ## One step per vector of 95_test_vectors.md -/

/-- V7. -/
theorem test_capacity_V7 : (ran (exec .capacity (carrier 65535#16 65535#16 []))).map
    (fun t => (t.pixcnt, t.availHi, t.availLo, t.maxb, t.statusWord)) =
    some (0xFFFE0001#32, 0x00000002#32, 0xFFF9FFE3#32, 0x5FFF3FFC#32, 0x02#32) := by decide

/-- V4. -/
theorem test_capacity_V4 : (ran (exec .capacity ramp33)).map
    (fun t => (t.pixcnt, t.availHi, t.availLo, t.maxb)) =
    some (0x9#32, 0xFFFFFFFF#32, 0xFFFFFFFB#32, 0xFFFFFFFF#32) := by decide

/-- V20. -/
theorem test_pack_V20 : (ran (exec .pack hi44)).map
    (fun t => (t.rlen, t.bm.map (·.2), t.statusWord)) =
    some (16#32, [false, true, false, false, true, false, false, false, false, true, true, false, true, false, false, true],
      0x02#32) := by decide

/-- V22. -/
theorem test_pack_V22 : (ran (exec .pack { hi44 with plen := 509#32 })).map
    (fun t => (t.rlen, t.bm, t.statusWord)) = some (0#32, [], 0x42#32) := by decide

/-- V24, with `BM[0, 11) = 01000001 111`. -/
theorem test_unpack_V24 : (ran (exec .unpack { State.reset with
      nbits := 11#32, bm := listed 0 [false, true, false, false, false, false, false, true, true, true, true] })).map
    (fun t => (t.rlen, t.pm, t.statusWord)) = some (1#32, [(0, 0x41#8)], 0x02#32) := by decide

/-- V26. -/
theorem test_unpack_V26 : (ran (exec .unpack { State.reset with nbits := 4065#32 })).map
    (fun t => (t.rlen, t.pm, t.statusWord)) = some (0#32, [], 0x42#32) := by decide

/-- V33. -/
theorem test_validate_V33 : (ran (exec .validate { State.reset with maxb := 0xFFFFFFFC#32 })).map (·.valid) = some false := by
  decide

/-- V36. -/
theorem test_validate_V36 :
    (ran (exec .validate { State.reset with plen := 0x7FFFFFFF#32, maxb := 0x7FFFFFFF#32 })).map (·.valid) = some true := by
  decide

/-- V45. -/
theorem test_lsbWrite_V45 : (ran (exec .lsbWrite { ramp44 with idx := 47#32 })).map
    (fun t => (t.ch.cell 47, t.ch.cell 46, t.statusWord)) = some (some 0xAE#8, some 0xAE#8, 0x02#32) := by decide

/-- V46b. -/
theorem test_lsbWrite_V46b : (ran (exec .lsbWrite (carrier 0#16 5#16 []))).map (·.statusWord) = some 0x42#32 := by decide

/-- V47. -/
theorem test_lsbRead_V47 : (ran (exec .lsbRead { ramp44 with idx := 7#32, ch := ramp44.ch.put 7 0x33#8 })).map
    (fun t => (t.regWord .bitio, t.statusWord)) = some (1#32, 0x02#32) := by decide

/-- V49. -/
theorem test_lsbRead_V49 : (ran (exec .lsbRead { ramp44 with idx := 0xFFFFFFFF#32 })).map
    (fun t => (t.regWord .bitio, t.statusWord)) = some (0#32, 0x42#32) := by decide

/-- V50. -/
theorem test_hdrEncode_V50 : (ran (exec .hdrEncode { flat44 with hdrval := 16#32 })).map (fun t => (t.ch, t.statusWord)) =
    some (cells (fun i => if i = 27 then 0x81#8 else 0x80#8) 48, 0x02#32) := by decide

/-- V53. -/
theorem test_hdrEncode_V53 : (ran (exec .hdrEncode { ramp33 with hdrval := 1#32 })).map
    (fun t => (decide (t.ch = ramp33.ch), t.statusWord)) = some (true, 0x42#32) := by decide

/-- V57, the carrier of HDR_ENCODE of 17 written out. -/
theorem test_hdrDecode_V57 : (ran (exec .hdrDecode
      (carrier 4#16 4#16 (cells (fun i => if i = 27 ∨ i = 31 then 0x81#8 else 0x80#8) 48)))).map
    (fun t => (t.hdrval, t.statusWord)) = some (17#32, 0x22#32) := by decide

/-- V60, the carrier of HDR_ENCODE of 1 written out. -/
theorem test_hdrDecode_V60 : (ran (exec .hdrDecode
      (carrier 1#16 11#16 (cells (fun i => if i = 31 then 0x81#8 else 0x80#8) 33)))).map
    (fun t => (t.hdrval, t.statusWord)) = some (1#32, 0x02#32) := by decide

/-- V70. -/
theorem test_embed_V70 : (ran (exec .embed hi44)).map (fun t => (t.ch.map (·.2), t.statusWord)) = some
    ([0x80#8, 0x80#8, 0x82#8, 0x82#8, 0x84#8, 0x84#8, 0x86#8, 0x86#8, 0x88#8, 0x88#8, 0x8A#8, 0x8A#8,
      0x8C#8, 0x8C#8, 0x8E#8, 0x8E#8, 0x90#8, 0x90#8, 0x92#8, 0x92#8, 0x94#8, 0x94#8, 0x96#8, 0x96#8,
      0x98#8, 0x98#8, 0x9A#8, 0x9B#8, 0x9C#8, 0x9C#8, 0x9E#8, 0x9E#8, 0xA0#8, 0xA1#8, 0xA2#8, 0xA2#8,
      0xA5#8, 0xA4#8, 0xA6#8, 0xA6#8, 0xA8#8, 0xA9#8, 0xAB#8, 0xAA#8, 0xAD#8, 0xAC#8, 0xAE#8, 0xAF#8], 0x02#32) := by
  decide

/-- V71. -/
theorem test_embed_V71 : (ran (exec .embed { hi44 with plen := 3#32 })).map
    (fun t => (decide (t.ch = hi44.ch), t.statusWord)) = some (true, 0x12#32) := by decide

/-- V80, the carrier of V70 written out. -/
theorem test_extract_V80 : (ran (exec .extract { carrier 4#16 4#16 (listed 0
    [0x80#8, 0x80#8, 0x82#8, 0x82#8, 0x84#8, 0x84#8, 0x86#8, 0x86#8, 0x88#8, 0x88#8, 0x8A#8, 0x8A#8,
      0x8C#8, 0x8C#8, 0x8E#8, 0x8E#8, 0x90#8, 0x90#8, 0x92#8, 0x92#8, 0x94#8, 0x94#8, 0x96#8, 0x96#8,
      0x98#8, 0x98#8, 0x9A#8, 0x9B#8, 0x9C#8, 0x9C#8, 0x9E#8, 0x9E#8, 0xA0#8, 0xA1#8, 0xA2#8, 0xA2#8,
      0xA5#8, 0xA4#8, 0xA6#8, 0xA6#8, 0xA8#8, 0xA9#8, 0xAB#8, 0xAA#8, 0xAD#8, 0xAC#8, 0xAE#8, 0xAF#8]) with
    pm := [(0, 0#8), (1, 0#8)] })).map (fun t => (t.hdrval, t.rlen, t.pm, t.statusWord)) =
    some (16#32, 2#32, [(0, 0x48#8), (1, 0x69#8)], 0x02#32) := by decide

/-- V87. -/
theorem test_extract_V87 : (ran (exec .extract ramp44)).map (fun t => (t.hdrval, t.rlen, t.pm, t.statusWord)) =
    some (0x55555555#32, 0#32, [], 0x22#32) := by decide

/-! ## The host's port and the lifecycle -/

/-- The STATUS words of 95_test_vectors.md. -/
theorem test_status_words : (hi44.completed .ok).statusWord = 0x02#32 ∧ (hi44.completed .capacityExceeded).statusWord = 0x12#32 ∧
    (hi44.completed .noMessage).statusWord = 0x22#32 ∧ (hi44.completed .badGeometry).statusWord = 0x32#32 ∧
    (hi44.completed .outOfRange).statusWord = 0x42#32 ∧ (hi44.completed .illegalCommand).statusWord = 0x52#32 := by decide

/-- 10_state.md R26: bits `[31:16]` of the written word are ignored. -/
theorem test_wr_width_keeps_16_bits : (ran (step (facing State.reset [.host (.wr 0x08#8 32 0x12345#32)]))).map
    (fun t => (t.regWord .width, t.regWord .height)) = some (0x2345#32, 0#32) := by decide

/-- 60_exceptions.md R200 and 10_state.md R25: STATUS is 1 and CUR the word after a CMD write. -/
theorem test_cmd_write : (ran (step (facing { hi44 with done := true, code := .noMessage } [.host (.wr 0x00#8 32 0x9#32)]))).map
    (fun t => (t.cur, t.statusWord, t.regWord .cmd)) = some (some 0x9#32, 1#32, 0#32) := by decide

/-- V94: EMBED's OPC with a reserved bit embeds nothing. -/
theorem test_illegal_V94 : (ran (step (flying hi44 0x80000009#32 []))).map
    (fun t => (t.statusWord, decide (t.ch = hi44.ch))) = some (0x52#32, true) := by decide

/-- 30_encoding.md R77: `wait` lets the command in flight run, and is still the next operation. -/
theorem test_wait_runs_the_command : (ran (step (flying hi44 0x2#32 [.host .wait]))).map
    (fun t => (t.rlen, t.busy, t.moves)) = some (16#32, false, [.host .wait]) := by decide

/-- 70_reset_and_hazards.md R232. -/
theorem test_reset_in_flight : (ran (step (flying hi44 0x9#32 [.reset]))).map
    (fun t => (t.cur.isSome, t.statusWord, t.plen, t.ch.length, t.pm.length)) = some (false, 0#32, 0#32, 0, 0) := by decide

/-! ## Witnesses: for each statement with hypotheses, states and operands that meet all of them together -/

theorem witness_DecodeInvertsEncodeAndNoOtherWordDecodes :
    Instr.wf .capacity = true ∧ decode 0x1#32 = .ok .capacity ∧ Instr.wf .extract = true ∧ decode 0xA#32 = .ok .extract := by
  decide

/-- Both sides of each bound: OPC 0, 11 and 15, and the lowest and highest reserved bit. -/
theorem witness_IllegalWordsFinishWithIllegalCommand :
    (flying ramp44 0x0#32 []).cur = some 0x0#32 ∧ (0x0#32).toNat % 16 = 0 ∧
    (flying ramp44 0xB#32 []).cur = some 0xB#32 ∧ 11 ≤ (0xB#32).toNat % 16 ∧
    (flying ramp44 0xF#32 []).cur = some 0xF#32 ∧ 11 ≤ (0xF#32).toNat % 16 ∧
    (flying ramp44 0x11#32 []).cur = some 0x11#32 ∧ (0x11#32).toNat / 16 ≠ 0 ∧
    (flying ramp44 0x80000009#32 []).cur = some 0x80000009#32 ∧ (0x80000009#32).toNat / 16 ≠ 0 := by decide

theorem witness_StepRunsTheDecodedCommand :
    (flying hi44 0x9#32 []).cur = some 0x9#32 ∧ decode 0x9#32 = .ok .embed ∧ (flying hi44 0x9#32 []).moves = [] ∧
    (flying hi44 0x9#32 [.block]).moves = [.block] ∧
    (flying hi44 0x9#32 [.host .wait]).moves = [.host .wait] ∧ (flying hi44 0x9#32 [.host .wait]).busy = true ∧
    (flying hi44 0xB#32 []).cur = some 0xB#32 ∧ decode 0xB#32 = .error .reservedOpcode ∧
    (flying hi44 0xB#32 []).moves = [] ∧ (flying hi44 0xB#32 [.block]).moves = [.block] ∧
    (flying hi44 0xB#32 [.host .wait]).moves = [.host .wait] ∧ (flying hi44 0xB#32 [.host .wait]).busy = true := by decide

theorem witness_CmdWriteStartsTheCommand :
    (facing hi44 [.host (.wr 0x00#8 32 0x9#32)]).moves = [.host (.wr 0x00#8 32 0x9#32)] ∧
    (facing hi44 [.host (.wr 0x00#8 32 0x9#32)]).busy = false ∧
    (flying hi44 0x9#32 [.host (.wr 0x00#8 32 0xA#32)]).moves = [.host (.wr 0x00#8 32 0xA#32)] ∧
    (flying hi44 0x9#32 [.host (.wr 0x00#8 32 0xA#32)]).busy = true := by decide

/-- Every command runs to a next state somewhere, and an idle block with no moves left steps. -/
theorem witness_CompletionSetsStatusAndStatusHolds :
    (ran (exec .capacity hi44)).isSome = true ∧ (ran (exec .pack hi44)).isSome = true ∧
    (ran (exec .unpack hi44)).isSome = true ∧ (ran (exec .validate hi44)).isSome = true ∧
    (ran (exec .lsbWrite hi44)).isSome = true ∧ (ran (exec .lsbRead hi44)).isSome = true ∧
    (ran (exec .hdrEncode hi44)).isSome = true ∧ (ran (exec .hdrDecode hi44)).isSome = true ∧
    (ran (exec .embed hi44)).isSome = true ∧ (ran (exec .extract hi44)).isSome = true ∧
    hi44.cur = none ∧ hi44.busy = false ∧ hi44.moves = [] ∧ (ran (step hi44)).isSome = true := by decide

/-- Each code a check gives, at the first value that fails it, and the last value that passes. -/
theorem witness_ChecksComeFirstAndErrorsHaveNoEffect :
    checkCode .pack { hi44 with plen := 509#32 } = some .outOfRange ∧ checkCode .pack { hi44 with plen := 508#32 } = none ∧
    checkCode .unpack { hi44 with nbits := 4065#32 } = some .outOfRange ∧
    checkCode .lsbRead { hi44 with idx := 48#32 } = some .outOfRange ∧ checkCode .lsbRead { hi44 with idx := 47#32 } = none ∧
    checkCode .lsbWrite big = some .badGeometry ∧ checkCode .hdrEncode ramp33 = some .outOfRange ∧
    checkCode .embed { hi44 with plen := 3#32 } = some .capacityExceeded ∧ checkCode .embed hi44 = none ∧
    checkCode .hdrDecode ramp33 = some .noMessage ∧ checkCode .extract ramp33 = some .noMessage ∧
    (ran (exec .embed hi44)).isSome = true ∧ (ran (exec .extract ramp44)).map (·.code) = some .noMessage ∧
    faulted (exec .embed bare44) = some (.uninitRead .ch 0) ∧
    (flying hi44 0xB#32 []).cur = some 0xB#32 ∧ (flying hi44 0xB#32 []).moves = [] ∧
    decode 0xB#32 = .error .reservedOpcode := by decide

/-- The ten commands run from `hi44` (see the witness of CompletionSetsStatusAndStatusHolds); an error code too. -/
theorem witness_EachCommandWritesOnlyItsRow :
    (ran (exec .embed big)).map (·.code) = some .badGeometry ∧ (ran (exec .extract hi44)).isSome = true ∧
    (ran (exec .pack hi44)).isSome = true ∧ (ran (exec .lsbRead hi44)).isSome = true := by decide

theorem witness_CommandsFaultExactlyOnUnwrittenOperands :
    Params.ok hi44.params = true ∧ operandsHold .embed hi44 = true ∧ Params.ok bare44.params = true ∧
    operandsHold .lsbRead { bare44 with idx := 47#32 } = false ∧
    faulted (exec .lsbRead { bare44 with idx := 47#32 }) = some (.uninitRead .ch 47) ∧
    operandsHold .pack { bare44 with plen := 1#32 } = false ∧
    faulted (exec .pack { bare44 with plen := 1#32 }) = some (.uninitRead .pm 0) ∧
    operandsHold .unpack { bare44 with nbits := 8#32 } = false ∧
    faulted (exec .unpack { bare44 with nbits := 8#32 }) = some (.uninitRead .bm 0) := by decide

theorem witness_CommandsDependOnRegistersAndMemoriesAlone :
    (ran (exec .hdrDecode hi44)).isSome = true ∧ faulted (exec .hdrDecode bare44) = some (.uninitRead .ch 0) := by decide

theorem witness_RepeatingACommandChangesNothing : hi44.Inv ∧ (ran (exec .embed hi44)).isSome = true := by decide

/-- A read before the block's turn: no move breaks a duty. -/
theorem witness_CommandInFlightEndsWithinTheMovesLeft :
    (flying hi44 0x9#32 [.host (.rd 0x04#8 32), .block]).Inv ∧
    (flying hi44 0x9#32 [.host (.rd 0x04#8 32), .block]).busy = true ∧
    ∀ op, Move.host op ∈ (flying hi44 0x9#32 [.host (.rd 0x04#8 32), .block]).moves →
      ¬ breaksHostDuty (flying hi44 0x9#32 [.host (.rd 0x04#8 32), .block]) op := by
  refine ⟨by decide, by decide, fun op h => ?_⟩
  have hop : op = .rd 0x04#8 32 := by simpa [flying] using h
  subst hop
  simp [breaksHostDuty]

/-- The other ends: a command that reads an empty cell. -/
theorem witness_CommandInFlightEndsWithinTheMovesLeft_fault :
    (flying bare44 0x9#32 []).Inv ∧ (flying bare44 0x9#32 []).busy = true ∧
    faulted (step (flying bare44 0x9#32 [])) = some (.uninitRead .ch 0) := by decide

/-- The other ends: a write in flight. -/
theorem witness_CommandInFlightEndsWithinTheMovesLeft_refused :
    (flying hi44 0x9#32 [.host (.wr 0x08#8 32 1#32)]).Inv ∧
    refusal (step (flying hi44 0x9#32 [.host (.wr 0x08#8 32 1#32)])) = some .writeWhileBusy := by decide

theorem witness_HostRunOfACommandExecutesIt :
    (facing hi44 (Script.moves (Script.run .embed))).busy = false ∧
    (facing hi44 (Script.moves (Script.run .embed))).moves = Script.moves (Script.run .embed) ++ [] ∧
    (ran (exec .embed (flying hi44 0x9#32 [.host .wait]))).isSome = true := by decide

theorem witness_ResetInputAbandonsTheCommand :
    (flying hi44 0x9#32 [.reset]).moves = [.reset] ∧ (flying hi44 0x9#32 [.reset]).busy = true := by decide

theorem witness_EveryStepKeepsTheInvariant :
    (flying hi44 0x9#32 []).Inv ∧ (ran (step (flying hi44 0x9#32 []))).isSome = true ∧
    (flying hi44 0x9#32 [.reset]).Inv ∧ (ran (step (flying hi44 0x9#32 [.reset]))).isSome = true := by decide

theorem witness_StatusReadsItsFields :
    (facing hi44 [.host (.rd 0x04#8 32)]).moves = [.host (.rd 0x04#8 32)] ∧
    (flying hi44 0x9#32 [.host (.rd 0x04#8 32)]).moves = [.host (.rd 0x04#8 32)] := by decide

/-- The first and last register of the map, and the first and last reserved offset. -/
theorem witness_IdleReadsReturnTheRegisters :
    hi44.busy = false ∧ (facing hi44 [.host (.rd 0x00#8 32)]).moves = [.host (.rd 0x00#8 32)] ∧
    (facing hi44 [.host (.rd 0x38#8 32)]).moves = [.host (.rd 0x38#8 32)] ∧ hi44.valid = false ∧
    (0x3C#8).toNat % 4 = 0 ∧ 0x3C ≤ (0x3C#8).toNat ∧ (0xFC#8).toNat % 4 = 0 ∧ 0x3C ≤ (0xFC#8).toNat := by decide

/-- A writable register, the read-only ones at both ends, and the first and last reserved offset. -/
theorem witness_IdleWritesStoreTheFields :
    (facing hi44 [.host (.wr 0x08#8 32 0x12345#32)]).busy = false ∧
    (facing hi44 [.host (.wr 0x08#8 32 0x12345#32)]).moves = [.host (.wr 0x08#8 32 0x12345#32)] ∧
    (facing hi44 [.host (.wr 0x38#8 32 1#32)]).moves = [.host (.wr 0x38#8 32 1#32)] ∧
    0x38#8 ∈ [0x04#8, 0x28#8, 0x2C#8, 0x30#8, 0x34#8, 0x38#8] ∧
    (0x3C#8).toNat % 4 = 0 ∧ 0x3C ≤ (0x3C#8).toNat ∧ (0xFC#8).toNat % 4 = 0 ∧ 0x3C ≤ (0xFC#8).toNat := by decide

/-- Both sides: operations that are refused under each name, and ones that are taken. -/
theorem witness_StepsAreRefusedExactlyForBrokenHostDuties :
    refusal (step (flying hi44 0x9#32 [.host (.wr 0x08#8 32 1#32)])) = some .writeWhileBusy ∧
    refusal (step (facing hi44 [.host (.rd 0x0A#8 32)])) = some .registerAccessForm ∧
    refusal (step (facing hi44 [.host (.rbCh 4096)])) = some (.indexOutsideMemory .ch 4096) ∧
    (ran (step (facing hi44 [.host (.wbCh 4095 1#8)]))).isSome = true ∧
    (ran (step (flying hi44 0x9#32 [.host (.rbPm 507)]))).isSome = true := by decide

/-- The first and last index of each memory, the first and last register that reads free, and the ends of the zeros. -/
theorem witness_ReadsInFlightAreZeroOrFreeDraws :
    (flying hi44 0x9#32 [.host (.rd 0x08#8 32)]).busy = true ∧
    (flying hi44 0x9#32 [.host (.rd 0x08#8 32)]).moves = [.host (.rd 0x08#8 32)] ∧
    (0x08#8).toNat % 4 = 0 ∧ 0x08 ≤ (0x08#8).toNat ∧ (0x38#8).toNat ≤ 0x38 ∧ 0x3C ≤ (0x3C#8).toNat ∧
    (flying hi44 0x9#32 [.host (.rbCh 4095)]).moves = [.host (.rbCh 4095)] ∧ 4095 < hi44.params.chmemSize ∧
    (flying hi44 0x9#32 [.host (.rbPm 507)]).moves = [.host (.rbPm 507)] ∧ 507 < hi44.params.pmemSize ∧
    (flying hi44 0x9#32 [.host (.rbit 4063)]).moves = [.host (.rbit 4063)] ∧ 4063 < 8 * hi44.params.pmemSize := by decide

/-- The first cell, which holds a value, and the last, which holds none. -/
theorem witness_IdleMemoryReadsReturnTheCell :
    (facing hi44 [.host (.rbCh 0)]).busy = false ∧ (facing hi44 [.host (.rbCh 0)]).moves = [.host (.rbCh 0)] ∧
    hi44.ch.cell 0 = some 0x80#8 ∧ 4095 < hi44.params.chmemSize ∧ hi44.ch.cell 4095 = none ∧
    hi44.pm.cell 0 = some 0x48#8 ∧ 507 < hi44.params.pmemSize ∧ hi44.pm.cell 507 = none ∧
    ({ hi44 with bm := [(0, true)] } : State).bm.cell 0 = some true ∧ 4063 < 8 * hi44.params.pmemSize ∧
    hi44.bm.cell 4063 = none := by decide

theorem witness_IdleMemoryWritesSetOneCell :
    (facing hi44 [.host (.wbCh 4095 7#8)]).busy = false ∧ 4095 < hi44.params.chmemSize ∧
    (facing hi44 [.host (.wbCh 4095 7#8)]).moves = [.host (.wbCh 4095 7#8)] ∧
    507 < hi44.params.pmemSize ∧ (facing hi44 [.host (.wbPm 507 7#8)]).moves = [.host (.wbPm 507 7#8)] ∧
    4063 < 8 * hi44.params.pmemSize ∧ (facing hi44 [.host (.wbit 4063 true)]).moves = [.host (.wbit 4063 true)] := by decide

/-- PLEN one above PMEM_SIZE, PLEN with every byte in place, PLEN at PMEM_SIZE with an empty byte. -/
theorem witness_PackExpandsBytesMsbFirst :
    Params.ok hi44.params = true ∧ hi44.params.pmemSize < ({ hi44 with plen := 509#32 } : State).plen.toNat ∧
    hi44.plen.toNat ≤ hi44.params.pmemSize ∧ (∀ k, k < hi44.plen.toNat → (hi44.pm.cell k).isSome = true) ∧
    ({ hi44 with plen := 508#32 } : State).plen.toNat ≤ hi44.params.pmemSize ∧
    507 < ({ hi44 with plen := 508#32 } : State).plen.toNat ∧ hi44.pm.cell 507 = none := by decide

/-- NBITS one above BITMEM_BITS; NBITS 11 with whole groups in place and an empty tail; NBITS at BITMEM_BITS, a cell empty. -/
theorem witness_UnpackPacksWholeGroups :
    Params.ok hi44.params = true ∧ 8 * hi44.params.pmemSize < ({ hi44 with nbits := 4065#32 } : State).nbits.toNat ∧
    ({ hi44 with nbits := 11#32, bm := cells (fun _ => true) 8 } : State).nbits.toNat ≤ 8 * hi44.params.pmemSize ∧
    (∀ j, j < 8 * (({ hi44 with nbits := 11#32, bm := cells (fun _ => true) 8 } : State).nbits.toNat / 8) →
      (({ hi44 with nbits := 11#32, bm := cells (fun _ => true) 8 } : State).bm.cell j).isSome = true) ∧
    ({ hi44 with nbits := 4064#32 } : State).nbits.toNat ≤ 8 * hi44.params.pmemSize ∧
    4063 < 8 * (({ hi44 with nbits := 4064#32 } : State).nbits.toNat / 8) ∧ hi44.bm.cell 4063 = none := by decide

theorem witness_PackAndUnpackRoundTrip :
    Params.ok hi44.params = true ∧ (ran (exec .pack hi44)).map (·.code) = some .ok ∧
    (ran (exec .unpack { hi44 with nbits := 11#32, bm := cells (fun _ => true) 8 })).map (·.code) = some .ok := by decide

theorem witness_ValidateAgreesWithEmbed :
    3 * hi44.width.toNat * hi44.height.toNat ≤ hi44.params.chmemSize ∧
    (ran (exec .capacity hi44)).isSome = true ∧
    ((ran (exec .capacity hi44)).bind fun t => ran (exec .validate t)).isSome = true := by decide

/-- `L` above CHMEM_SIZE; IDX at `L`; IDX at `L - 1` with a value; IDX at `L - 1` with none. -/
theorem witness_LsbWriteReplacesOneLsb :
    big.params.chmemSize < 3 * big.width.toNat * big.height.toNat ∧
    3 * ramp44.width.toNat * ramp44.height.toNat ≤ ramp44.params.chmemSize ∧
    3 * ramp44.width.toNat * ramp44.height.toNat ≤ (48#32).toNat ∧
    (47#32).toNat < 3 * ramp44.width.toNat * ramp44.height.toNat ∧
    ramp44.ch.cell (47#32).toNat = some 0xAF#8 ∧ bare44.ch.cell (47#32).toNat = none := by decide

/-- As for LSB_WRITE. -/
theorem witness_LsbReadReturnsTheLsb :
    big.params.chmemSize < 3 * big.width.toNat * big.height.toNat ∧
    3 * ramp44.width.toNat * ramp44.height.toNat ≤ (48#32).toNat ∧
    (47#32).toNat < 3 * ramp44.width.toNat * ramp44.height.toNat ∧
    ramp44.ch.cell (47#32).toNat = some 0xAF#8 ∧
    (47#32).toNat < 3 * bare44.width.toNat * bare44.height.toNat ∧ bare44.ch.cell (47#32).toNat = none := by decide

theorem witness_LsbReadAfterWriteReturnsTheBit :
    (ran (exec .lsbWrite { ramp44 with idx := 47#32 })).map (·.code) = some .ok := by decide

/-- `L` above CHMEM_SIZE; `L = 27 < 32`; `L = 33 >= 32` with the header cells in place; with cell 31 empty. -/
theorem witness_HdrEncodeWritesTheHeaderBits :
    big.params.chmemSize < 3 * big.width.toNat * big.height.toNat ∧
    3 * ramp33.width.toNat * ramp33.height.toNat ≤ ramp33.params.chmemSize ∧
    3 * ramp33.width.toNat * ramp33.height.toNat < 32 ∧
    3 * (thin (marked (fun _ => false) 33)).width.toNat * (thin (marked (fun _ => false) 33)).height.toNat = 33 ∧
    33 ≤ (thin (marked (fun _ => false) 33)).params.chmemSize ∧
    (∀ i, i < 32 → ((thin (marked (fun _ => false) 33)).ch.cell i).isSome = true) ∧
    3 * (thin (marked (fun _ => false) 31)).width.toNat * (thin (marked (fun _ => false) 31)).height.toNat = 33 ∧
    (thin (marked (fun _ => false) 31)).ch.cell 31 = none := by decide

/-- As for HDR_ENCODE, and headers 1 (plausible at `L = 33`), 2 (not), 0 (not), and `2^32 - 1` (the largest). -/
theorem witness_HdrDecodeReadsAndJudgesTheHeader :
    big.params.chmemSize < 3 * big.width.toNat * big.height.toNat ∧
    3 * ramp33.width.toNat * ramp33.height.toNat ≤ ramp33.params.chmemSize ∧
    3 * ramp33.width.toNat * ramp33.height.toNat < 32 ∧
    3 * (thin []).width.toNat * (thin []).height.toNat = 33 ∧ 33 ≤ (thin []).params.chmemSize ∧
    (∀ i, i < 32 → ((thin (marked (· == 31) 33)).ch.cell i).map (fun b => b.getLsbD 0) =
      some ((1 : Nat).testBit (31 - i))) ∧ (1 : Int) ≤ (33 : Int) - 32 ∧
    (∀ i, i < 32 → ((thin (marked (· == 30) 33)).ch.cell i).map (fun b => b.getLsbD 0) =
      some ((2 : Nat).testBit (31 - i))) ∧ (2 : Int) > (33 : Int) - 32 ∧
    (∀ i, i < 32 → ((thin (marked (fun _ => false) 33)).ch.cell i).map (fun b => b.getLsbD 0) =
      some ((0 : Nat).testBit (31 - i))) ∧
    (∀ i, i < 32 → ((thin (marked (fun _ => true) 33)).ch.cell i).map (fun b => b.getLsbD 0) =
      some ((2 ^ 32 - 1 : Nat).testBit (31 - i))) ∧
    (thin (marked (fun _ => false) 31)).ch.cell 31 = none := by decide

theorem witness_HdrDecodeAfterEncodeReturnsTheValue :
    (ran (exec .hdrEncode { flat44 with hdrval := 16#32 })).map (·.code) = some .ok := by decide

/-- `L` above CHMEM_SIZE; PLEN one byte too long; PLEN at the boundary with every cell in place; a payload byte or a
stream cell empty. -/
theorem witness_EmbedWritesHeaderAndPayload :
    Params.ok hi44.params = true ∧ big.params.chmemSize < 3 * big.width.toNat * big.height.toNat ∧
    3 * hi44.width.toNat * hi44.height.toNat ≤ hi44.params.chmemSize ∧
    (8 * (3#32).toNat : Int) > ((3 * hi44.width.toNat * hi44.height.toNat : Nat) : Int) - 32 ∧
    (8 * hi44.plen.toNat : Int) = ((3 * hi44.width.toNat * hi44.height.toNat : Nat) : Int) - 32 ∧
    (∀ k, k < hi44.plen.toNat → (hi44.pm.cell k).isSome = true) ∧
    (∀ i, i < 32 + 8 * hi44.plen.toNat → (hi44.ch.cell i).isSome = true) ∧
    1 < hi44.plen.toNat ∧ ramp44.pm.cell 1 = none ∧ 47 < 32 + 8 * hi44.plen.toNat ∧ bare44.ch.cell 47 = none := by decide

theorem witness_EmptyPayloadEmbedsAsNoMessage :
    Params.ok (thin (marked (fun _ => true) 33)).params = true ∧ (thin (marked (fun _ => true) 33)).plen = 0#32 ∧
    33 ≤ 3 * (thin (marked (fun _ => true) 33)).width.toNat * (thin (marked (fun _ => true) 33)).height.toNat ∧
    3 * (thin (marked (fun _ => true) 33)).width.toNat * (thin (marked (fun _ => true) 33)).height.toNat ≤
      (thin (marked (fun _ => true) 33)).params.chmemSize ∧
    (∀ i, i < 32 → ((thin (marked (fun _ => true) 33)).ch.cell i).isSome = true) := by decide

/-- As for HDR_DECODE, and with the payload elements of the largest plausible header in place, or the last of them empty. -/
theorem witness_ExtractReadsHeaderAndPayload :
    Params.ok flat44.params = true ∧ big.params.chmemSize < 3 * big.width.toNat * big.height.toNat ∧
    3 * ramp33.width.toNat * ramp33.height.toNat < 32 ∧
    3 * bare44.width.toNat * bare44.height.toNat = 48 ∧ 48 ≤ bare44.params.chmemSize ∧
    (∀ i, i < 32 → ((carrier 4#16 4#16 (marked (· == 27) 48)).ch.cell i).map (fun b => b.getLsbD 0) =
      some ((16 : Nat).testBit (31 - i))) ∧ (16 : Int) = (48 : Int) - 32 ∧
    (∀ i, i < 16 → ((carrier 4#16 4#16 (marked (· == 27) 48)).ch.cell (32 + i)).isSome = true) ∧
    (∀ i, i < 32 → ((carrier 4#16 4#16 (marked (· == 27) 47)).ch.cell i).map (fun b => b.getLsbD 0) =
      some ((16 : Nat).testBit (31 - i))) ∧ (carrier 4#16 4#16 (marked (· == 27) 47)).ch.cell (32 + 15) = none ∧
    (∀ i, i < 32 → (flat44.ch.cell i).map (fun b => b.getLsbD 0) = some ((0 : Nat).testBit (31 - i))) ∧
    (∀ i, i < 32 → ((carrier 4#16 4#16 (marked (fun i => i == 27 || i == 31) 48)).ch.cell i).map
      (fun b => b.getLsbD 0) = some ((17 : Nat).testBit (31 - i))) ∧
    (carrier 4#16 4#16 (marked (fun _ => false) 31)).ch.cell 31 = none := by decide

theorem witness_ExtractAfterEmbedReturnsThePayload :
    Params.ok hi44.params = true ∧ 1 ≤ hi44.plen.toNat ∧ (ran (exec .embed hi44)).map (·.code) = some .ok := by decide

/-- `L = 48`, and the empty carrier, `L = 0`. -/
theorem witness_ExtractOnAWrittenCarrierNeverFails :
    Params.ok ramp44.params = true ∧ 3 * ramp44.width.toNat * ramp44.height.toNat ≤ ramp44.params.chmemSize ∧
    (∀ i, i < 3 * ramp44.width.toNat * ramp44.height.toNat → (ramp44.ch.cell i).isSome = true) ∧
    3 * State.reset.width.toNat * State.reset.height.toNat ≤ State.reset.params.chmemSize ∧
    (∀ i, i < 3 * State.reset.width.toNat * State.reset.height.toNat → (State.reset.ch.cell i).isSome = true) := by decide

/-- The last element of the stream, the first cell beyond it, and an empty cell. -/
theorem witness_CommandsChangeOnlyStreamLsbs :
    (ran (exec .embed hi44)).isSome = true ∧ hi44.ch.cell 47 = some 0xAF#8 ∧ hi44.ch.cell 48 = none ∧
    3 * hi44.width.toNat * hi44.height.toNat ≤ 48 := by decide

/-- The first and the last sample of a 4 by 3 carrier, and the first and the last index. -/
theorem witness_StreamIndexNumbersEachSampleOnce :
    0 < (carrier 4#16 3#16 []).height.toNat ∧ 2 < (carrier 4#16 3#16 []).height.toNat ∧
    3 < (carrier 4#16 3#16 []).width.toNat ∧ 2 < 3 ∧
    streamIndex (carrier 4#16 3#16 []).width.toNat 2 3 2 = 35 ∧
    35 < 3 * (carrier 4#16 3#16 []).width.toNat * (carrier 4#16 3#16 []).height.toNat := by decide

/-- A channel memory that differs from `hi44`'s in the first cell beyond the stream. -/
theorem witness_CellsBeyondTheStreamDoNotMatter :
    (∀ j, j < 3 * hi44.width.toNat * hi44.height.toNat → (hi44.ch.put 48 0x55#8).cell j = hi44.ch.cell j) ∧
    (hi44.ch.put 48 0x55#8).cell 48 ≠ hi44.ch.cell 48 ∧ (ran (exec .embed hi44)).isSome = true ∧
    faulted (exec .embed { hi44 with plen := 1#32, pm := [] }) = some (.uninitRead .pm 0) := by decide

end Sys2Proof.Tests
end

section
/-! PROOFS. O17: every step keeps the invariant and the parameters. First one rule per state update the invariant is
asked of, then the commands, the host's operations, and the step. -/

namespace Sys2Proof.Machine

variable {s t : State}

/-! ### What the invariant gives -/

theorem State.Inv.params_ok (h : s.Inv) : s.params.ok = true := h.1

theorem State.Inv.ch_ok (h : s.Inv) : s.ch.wf = true ∧ s.ch.below s.params.chmemSize = true := by
  obtain ⟨-, ⟨hch, -, -⟩, -, -⟩ := h
  exact hch

theorem State.Inv.pm_ok (h : s.Inv) : s.pm.wf = true ∧ s.pm.below s.params.pmemSize = true := by
  obtain ⟨-, ⟨-, hpm, -⟩, -, -⟩ := h
  exact hpm

theorem State.Inv.bm_ok (h : s.Inv) : s.bm.wf = true ∧ s.bm.below s.params.bitmemBits = true := by
  obtain ⟨-, ⟨-, -, hbm⟩, -, -⟩ := h
  exact hbm

/-! ### The invariant under each state update

Twelve updates write nothing the invariant reads; each of the others owes the one range or memory fact it writes. -/

theorem State.Inv.withWidth (h : s.Inv) (v : BitVec 16) : (s.withWidth v).Inv := h
theorem State.Inv.withHeight (h : s.Inv) (v : BitVec 16) : (s.withHeight v).Inv := h
theorem State.Inv.withPlen (h : s.Inv) (v : Word) : (s.withPlen v).Inv := h
theorem State.Inv.withNbits (h : s.Inv) (v : Word) : (s.withNbits v).Inv := h
theorem State.Inv.withIdx (h : s.Inv) (v : Word) : (s.withIdx v).Inv := h
theorem State.Inv.withBitio (h : s.Inv) (t : Bit) : (s.withBitio t).Inv := h
theorem State.Inv.withHdrval (h : s.Inv) (v : Word) : (s.withHdrval v).Inv := h
theorem State.Inv.withMaxb (h : s.Inv) (v : Word) : (s.withMaxb v).Inv := h
theorem State.Inv.withValid (h : s.Inv) (t : Bool) : (s.withValid t).Inv := h
theorem State.Inv.withMoves (h : s.Inv) (ms : List Move) : (s.withMoves ms).Inv := h
theorem State.Inv.saw (h : s.Inv) (v : HostRead) : (s.saw v).Inv := h
theorem State.Inv.drew (h : s.Inv) : s.drew.Inv := h

theorem State.Inv.withCh (h : s.Inv) {m : Memory Byte} (hm : m.wf = true ∧ m.below s.params.chmemSize = true) :
    (s.withCh m).Inv := by
  obtain ⟨hp, ⟨-, hpm, hbm⟩, hl, hr⟩ := h
  exact ⟨hp, ⟨hm, hpm, hbm⟩, hl, hr⟩

theorem State.Inv.withPm (h : s.Inv) {m : Memory Byte} (hm : m.wf = true ∧ m.below s.params.pmemSize = true) :
    (s.withPm m).Inv := by
  obtain ⟨hp, ⟨hch, -, hbm⟩, hl, hr⟩ := h
  exact ⟨hp, ⟨hch, hm, hbm⟩, hl, hr⟩

theorem State.Inv.withBm (h : s.Inv) {m : Memory Bit} (hm : m.wf = true ∧ m.below s.params.bitmemBits = true) :
    (s.withBm m).Inv := by
  obtain ⟨hp, ⟨hch, hpm, -⟩, hl, hr⟩ := h
  exact ⟨hp, ⟨hch, hpm, hm⟩, hl, hr⟩

theorem State.Inv.withPixcnt (h : s.Inv) {v : Word} (hv : v.toNat ≤ 65535 * 65535) : (s.withPixcnt v).Inv := by
  obtain ⟨hp, hm, hl, -, hr⟩ := h
  exact ⟨hp, hm, hl, hv, hr⟩

theorem State.Inv.withAvail (h : s.Inv) {v : BitVec 64} (hlo : -32 ≤ v.toInt) (hhi : v.toInt ≤ 12884508643) :
    (s.withAvail v).Inv := by
  obtain ⟨hp, hm, hl, hpix, -, -, hrlen⟩ := h
  refine ⟨hp, hm, hl, hpix, ?_, ?_, hrlen⟩
  · rwa [State.withAvail_avail]
  · rwa [State.withAvail_avail]

/-- The bound on the number is enough: the register holds it modulo `2 ^ 32`, which is no larger. -/
theorem State.Inv.withRlen (h : s.Inv) {n : Nat} (hn : n ≤ s.params.bitmemBits) :
    (s.withRlen (BitVec.ofNat 32 n)).Inv := by
  obtain ⟨hp, hm, hl, hpix, hlo, hhi, -⟩ := h
  refine ⟨hp, hm, hl, hpix, hlo, hhi, ?_⟩
  rw [State.withRlen_rlen, BitVec.toNat_ofNat]
  exact (Nat.mod_le _ _).trans hn

/-- 60_exceptions.md R200: BUSY goes to 1 and DONE to 0 in one update. -/
theorem State.Inv.started (h : s.Inv) (w : Word) : (s.started w).Inv := by
  obtain ⟨hp, hm, -, hr⟩ := h
  exact ⟨hp, hm, ⟨rfl, fun _ => rfl, fun _ => rfl⟩, hr⟩

/-- 60_exceptions.md R201: CUR, BUSY and DONE change together, so any code may stand. -/
theorem State.Inv.finished (h : s.Inv) (c : Code) : (s.finished c).Inv := by
  obtain ⟨hp, hm, -, hr⟩ := h
  exact ⟨hp, hm, ⟨rfl, nofun, nofun⟩, hr⟩

theorem State.reset_inv : State.reset.Inv := by decide

/-- Only the parameters survive a reset, so only they must be legal beforehand. -/
theorem State.afterReset_inv (hp : s.params.ok = true) : s.afterReset.Inv := by
  obtain ⟨-, -, hl, hpix, hlo, hhi, -⟩ := State.reset_inv
  exact ⟨hp, ⟨⟨rfl, rfl⟩, ⟨rfl, rfl⟩, rfl, rfl⟩, hl, hpix, hlo, hhi, Nat.zero_le _⟩

/-- A write inside a sound memory leaves it sound. -/
theorem Memory.put_ok {α : Type} {m : Memory α} {size i : Nat} (v : α) (hi : i < size)
    (hm : m.wf = true ∧ m.below size = true) : (m.put i v).wf = true ∧ (m.put i v).below size = true :=
  ⟨Memory.wf_put m i v hm.1, Memory.below_put m i size v hi hm.2⟩

/-! ### The commands -/

theorem execCapacity_inv (h : s.Inv) (ht : execCapacity s = .next t) : t.Inv := by
  obtain ⟨hpix, havail, -, hle⟩ := capacity_fits s
  rw [execCapacity_eq] at ht
  cases ht
  refine (((h.withPixcnt ?_).withAvail ?_ ?_).withMaxb _).finished _
  · omega
  · omega
  · omega

/-- RLEN is 8 times a PLEN that the check kept within payload memory (40_bit_packer.md R104). -/
theorem execPack_inv (h : s.Inv) (ht : execPack s = .next t) : t.Inv := by
  rcases execPack_next.mp ht with ⟨-, rfl⟩ | ⟨hlen, _, -, bm, hbm, rfl⟩
  · exact h.finished _
  · have hm := writeRun_wf hbm h.bm_ok.1 h.bm_ok.2
    have hr : 8 * s.plen.toNat ≤ s.params.bitmemBits := Nat.mul_le_mul_left 8 hlen
    exact ((h.withBm hm).withRlen hr).finished _

theorem execUnpack_inv (h : s.Inv) (ht : execUnpack s = .next t) : t.Inv := by
  rcases execUnpack_next.mp ht with ⟨-, rfl⟩ | ⟨hlen, _, -, pm, hpm, rfl⟩
  · exact h.finished _
  · have hm := writeRun_wf hpm h.pm_ok.1 h.pm_ok.2
    have hr : s.nbits.toNat / 8 ≤ s.params.bitmemBits := (Nat.div_le_self _ 8).trans hlen
    exact ((h.withPm hm).withRlen hr).finished _

theorem execValidate_inv (h : s.Inv) (ht : execValidate s = .next t) : t.Inv := by
  rw [execValidate_eq] at ht
  cases ht
  exact (h.withValid _).finished _

/-- The element written lies below the stream's length, and the geometry check keeps that within channel memory. -/
theorem execLsbWrite_inv (h : s.Inv) (ht : execLsbWrite s = .next t) : t.Inv := by
  rcases execLsbWrite_next.mp ht with ⟨-, rfl⟩ | ⟨-, -, rfl⟩ | ⟨hg, hi, b, -, rfl⟩
  · exact h.finished _
  · exact h.finished _
  · exact (h.withCh (Memory.put_ok _ (hi.trans_le hg) h.ch_ok)).finished _

theorem execLsbRead_inv (h : s.Inv) (ht : execLsbRead s = .next t) : t.Inv := by
  rcases execLsbRead_next.mp ht with ⟨-, rfl⟩ | ⟨-, -, rfl⟩ | ⟨-, -, b, -, rfl⟩
  · exact h.finished _
  · exact h.finished _
  · exact (h.withBitio _).finished _

theorem execHdrEncode_inv (h : s.Inv) (ht : execHdrEncode s = .next t) : t.Inv := by
  rcases execHdrEncode_next.mp ht with ⟨-, rfl⟩ | ⟨-, -, rfl⟩ | ⟨-, -, ch, hch, rfl⟩
  · exact h.finished _
  · exact h.finished _
  · exact (h.withCh (writeLsbs_wf hch h.ch_ok.1 h.ch_ok.2)).finished _

theorem execHdrDecode_inv (h : s.Inv) (ht : execHdrDecode s = .next t) : t.Inv := by
  rcases execHdrDecode_next.mp ht with ⟨-, rfl⟩ | ⟨-, -, rfl⟩ | ⟨-, -, -, n, -, c, -, rfl⟩
  · exact h.finished _
  · exact (h.withHdrval _).finished _
  · exact (h.withHdrval _).finished _

/-- The header is written first, and the payload into what that left (43_embed_extract.md R170). -/
theorem execEmbed_inv (h : s.Inv) (ht : execEmbed s = .next t) : t.Inv := by
  rcases execEmbed_next.mp ht with ⟨-, rfl⟩ | ⟨-, -, rfl⟩ | ⟨-, -, _, -, ch, hch, ch', hch', rfl⟩
  · exact h.finished _
  · exact h.finished _
  · obtain ⟨hw, hb⟩ := writeLsbs_wf hch h.ch_ok.1 h.ch_ok.2
    exact (h.withCh (writeLsbs_wf hch' hw hb)).finished _

/-- A plausible header over a stream that fits channel memory names a payload that fits payload memory: this is what
the constraint of 00_scope.md R9 on PMEM_SIZE is for. -/
theorem payload_le_bitmemBits {n : Nat} (hp : s.params.ok = true) (hg : s.streamLen ≤ s.params.chmemSize)
    (hn : plausible n s.streamLen = true) : n / 8 ≤ s.params.bitmemBits := by
  obtain ⟨-, -, hpm, -⟩ := Params.ok_iff.mp hp
  have hle := plausible_le hn
  unfold Params.bitmemBits
  omega

theorem execExtract_inv (h : s.Inv) (ht : execExtract s = .next t) : t.Inv := by
  rcases execExtract_next.mp ht with ⟨-, rfl⟩ | ⟨-, -, rfl⟩ | ⟨-, -, -, n, -, -, rfl⟩ |
    ⟨hg, -, -, n, -, hn, -, pm, hpm, rfl⟩
  · exact h.finished _
  · exact ((h.withHdrval _).withRlen (Nat.zero_le _)).finished _
  · exact ((h.withHdrval _).withRlen (Nat.zero_le _)).finished _
  · have hm := writeRun_wf hpm h.pm_ok.1 h.pm_ok.2
    have hr := payload_le_bitmemBits h.params_ok hg hn
    exact (((h.withHdrval _).withPm hm).withRlen hr).finished _

/-- A command that answers a next state keeps the invariant. -/
theorem exec_inv (i : Instr) (h : s.Inv) (ht : exec i s = .next t) : t.Inv := by
  cases i with
  | capacity => exact execCapacity_inv h ht
  | pack => exact execPack_inv h ht
  | unpack => exact execUnpack_inv h ht
  | validate => exact execValidate_inv h ht
  | lsbWrite => exact execLsbWrite_inv h ht
  | lsbRead => exact execLsbRead_inv h ht
  | hdrEncode => exact execHdrEncode_inv h ht
  | hdrDecode => exact execHdrDecode_inv h ht
  | embed => exact execEmbed_inv h ht
  | extract => exact execExtract_inv h ht

/-! ### The host's operations -/

/-- CMD starts a command, a read-only register stays, and of the others the invariant reads none. -/
theorem State.Inv.writeReg (h : s.Inv) (v : Word) (r : Reg) : (s.writeReg v r).Inv := by
  cases r with
  | cmd => exact h.started v
  | width => exact h.withWidth _
  | height => exact h.withHeight _
  | plen => exact h.withPlen v
  | nbits => exact h.withNbits v
  | idx => exact h.withIdx v
  | bitio => exact h.withBitio _
  | hdrval => exact h.withHdrval v
  | maxb => exact h.withMaxb v
  | status | pixcnt | availLo | availHi | rlen | valid => exact h

@[simp] theorem State.writeReg_params (s : State) (v : Word) (r : Reg) : (s.writeReg v r).params = s.params := by
  cases r <;> rfl

theorem State.Inv.writeOffset (h : s.Inv) (off : BitVec 8) (v : Word) : (s.writeOffset off v).Inv := by
  unfold State.writeOffset
  cases regAt off with
  | some r => exact h.writeReg v r
  | none => exact h

@[simp] theorem State.writeOffset_params (s : State) (off : BitVec 8) (v : Word) :
    (s.writeOffset off v).params = s.params := by
  unfold State.writeOffset
  cases regAt off with
  | some r => exact s.writeReg_params v r
  | none => rfl

/-- A host read does no more than record what it returned and, for a free value, count the draw. -/
theorem State.readOffset_cases (s : State) (off : BitVec 8) :
    ∃ v, s.readOffset off = s.saw v ∨ s.readOffset off = (s.saw v).drew := by
  unfold State.readOffset
  cases regAt off with
  | none => exact ⟨_, .inl rfl⟩
  | some r =>
    cases s.busy with
    | false => exact ⟨_, .inl rfl⟩
    | true =>
      cases r with
      | cmd | status => exact ⟨_, .inl rfl⟩
      | width | height | plen | nbits | idx | bitio | hdrval | maxb | pixcnt | availLo | availHi | rlen | valid =>
        exact ⟨_, .inr rfl⟩

theorem State.readByte_cases (s : State) (m : Memory Byte) (i : Nat) :
    ∃ v, s.readByte m i = s.saw v ∨ s.readByte m i = (s.saw v).drew := by
  unfold State.readByte
  split
  · exact ⟨_, .inl rfl⟩
  · exact ⟨_, .inr rfl⟩

theorem State.readBit_cases (s : State) (m : Memory Bit) (j : Nat) :
    ∃ v, s.readBit m j = s.saw v ∨ s.readBit m j = (s.saw v).drew := by
  unfold State.readBit
  split
  · exact ⟨_, .inl rfl⟩
  · exact ⟨_, .inr rfl⟩

/-- A state that a host read left: the reads' case lemmas above give the premise. -/
theorem State.Inv.of_read (h : s.Inv) (hr : ∃ v, t = s.saw v ∨ t = (s.saw v).drew) : t.Inv := by
  obtain ⟨v, rfl | rfl⟩ := hr
  · exact h.saw v
  · exact (h.saw v).drew

theorem State.params_of_read (hr : ∃ v, t = s.saw v ∨ t = (s.saw v).drew) : t.params = s.params := by
  obtain ⟨v, rfl | rfl⟩ := hr <;> simp

/-- The form check (20_memory.md R56) keeps a cell write inside its memory. -/
theorem State.Inv.hostEffect (h : s.Inv) {op : HostOp} (hf : op.wf s.params = true) : (s.hostEffect op).Inv := by
  cases op with
  | wr off _ v => exact h.writeOffset off v
  | rd off _ => exact h.of_read (s.readOffset_cases off)
  | wbCh i v => exact h.withCh (Memory.put_ok v (indexWf_ch.mp hf) h.ch_ok)
  | rbCh i => exact h.of_read (s.readByte_cases s.ch i)
  | wbPm k v => exact h.withPm (Memory.put_ok v (indexWf_pm.mp hf) h.pm_ok)
  | rbPm k => exact h.of_read (s.readByte_cases s.pm k)
  | wbit j u => exact h.withBm (Memory.put_ok u (indexWf_bm.mp hf) h.bm_ok)
  | rbit j => exact h.of_read (s.readBit_cases s.bm j)
  | wait => exact h

@[simp] theorem State.hostEffect_params (s : State) (op : HostOp) : (s.hostEffect op).params = s.params := by
  cases op with
  | wr off _ v => exact s.writeOffset_params off v
  | rd off _ => exact State.params_of_read (s.readOffset_cases off)
  | rbCh i => exact State.params_of_read (s.readByte_cases s.ch i)
  | rbPm k => exact State.params_of_read (s.readByte_cases s.pm k)
  | rbit j => exact State.params_of_read (s.readBit_cases s.bm j)
  | wbCh | wbPm | wbit | wait => rfl

/-! ### The step -/

theorem blockTurn_inv (h : s.Inv) (ht : blockTurn s = .next t) : t.Inv := by
  rcases blockTurn_cases s with ⟨-, e⟩ | ⟨_, i, -, -, e⟩ | ⟨_, _, -, -, e⟩ <;> rw [e] at ht
  · cases ht; exact h
  · exact exec_inv i h ht
  · cases ht; exact h.finished _

theorem blockTurn_params (ht : blockTurn s = .next t) : t.params = s.params := by
  rcases blockTurn_cases s with ⟨-, e⟩ | ⟨_, i, -, -, e⟩ | ⟨_, _, -, -, e⟩ <;> rw [e] at ht
  · cases ht; rfl
  · exact (exec_next_host i ht).1
  · cases ht; rfl

/-- A step that answers a next state keeps the invariant. -/
theorem step_inv (h : s.Inv) (ht : step s = .next t) : t.Inv := by
  rcases step_cases s with ⟨-, e⟩ | ⟨ms, -, e⟩ | ⟨ms, -, e⟩ | ⟨op, ms, -, -, e⟩ <;> rw [e] at ht
  · exact blockTurn_inv h ht
  · exact blockTurn_inv (h.withMoves ms) ht
  · cases ht; exact State.afterReset_inv h.params_ok
  · obtain ⟨hf, -, rfl⟩ := hostOp_next.mp ht
    exact (h.withMoves ms).hostEffect hf

/-- No step changes the parameters, from any state (00_scope.md R9). -/
theorem step_params (ht : step s = .next t) : t.params = s.params := by
  rcases step_cases s with ⟨-, e⟩ | ⟨ms, -, e⟩ | ⟨ms, -, e⟩ | ⟨op, ms, -, -, e⟩ <;> rw [e] at ht
  · exact blockTurn_params ht
  · exact (blockTurn_params ht).trans (s.withMoves_params ms)
  · cases ht; rfl
  · obtain ⟨-, -, rfl⟩ := hostOp_next.mp ht
    exact State.hostEffect_params _ op

/-- Settles O17, by cases on who moves: the block's turn, the reset input or a host operation. -/
theorem everyStepKeepsTheInvariant : Obligations.EveryStepKeepsTheInvariant := by
  unfold Obligations.EveryStepKeepsTheInvariant
  intro s t h ht
  exact ⟨step_inv h ht, step_params ht⟩

end Sys2Proof.Machine
end

section
/-! PROOFS. The family of 10_state.md: what a command writes and reads (O8, O10), the state after reset (O14, O16), and
the host's access to the registers (O18, O19, O20). -/

namespace Sys2Proof.Machine

variable {s t : State}

/-! ### What each command writes (10_state.md R38)

One lemma per command, read off its inversion lemma: the row of R38, and the error clause. -/

/-- A code other than OK and NO_MESSAGE leaves all but STATUS and CUR as it was. -/
def State.ErrorFrame (s t : State) : Prop := t.code ≠ .ok → t.code ≠ .noMessage → t = s.completed t.code

theorem State.errorFrame_finished (s : State) (c : Code) : s.ErrorFrame (s.finished c) := fun _ _ => rfl

theorem State.errorFrame_of_ok (h : t.code = .ok) : s.ErrorFrame t := fun hok _ => absurd h hok

theorem State.errorFrame_of_noMessage (h : t.code = .noMessage) : s.ErrorFrame t := fun _ hmsg => absurd h hmsg

theorem execCapacity_frame (h : execCapacity s = .next t) :
    t = { s with pixcnt := t.pixcnt, availLo := t.availLo, availHi := t.availHi, maxb := t.maxb }.completed t.code ∧
      s.ErrorFrame t := by
  rw [execCapacity_eq] at h
  cases h
  exact ⟨rfl, State.errorFrame_of_ok rfl⟩

theorem execValidate_frame (h : execValidate s = .next t) :
    t = { s with valid := t.valid }.completed t.code ∧ s.ErrorFrame t := by
  rw [execValidate_eq] at h
  cases h
  exact ⟨rfl, State.errorFrame_of_ok rfl⟩

theorem execPack_frame (h : execPack s = .next t) :
    t = { s with rlen := t.rlen, bm := t.bm }.completed t.code ∧ s.ErrorFrame t := by
  rcases execPack_next.mp h with ⟨-, rfl⟩ | ⟨-, _, -, _, -, rfl⟩
  · exact ⟨rfl, s.errorFrame_finished _⟩
  · exact ⟨rfl, State.errorFrame_of_ok rfl⟩

theorem execUnpack_frame (h : execUnpack s = .next t) :
    t = { s with rlen := t.rlen, pm := t.pm }.completed t.code ∧ s.ErrorFrame t := by
  rcases execUnpack_next.mp h with ⟨-, rfl⟩ | ⟨-, _, -, _, -, rfl⟩
  · exact ⟨rfl, s.errorFrame_finished _⟩
  · exact ⟨rfl, State.errorFrame_of_ok rfl⟩

theorem execLsbWrite_frame (h : execLsbWrite s = .next t) :
    t = { s with ch := t.ch }.completed t.code ∧ s.ErrorFrame t := by
  rcases execLsbWrite_next.mp h with ⟨-, rfl⟩ | ⟨-, -, rfl⟩ | ⟨-, -, _, -, rfl⟩
  · exact ⟨rfl, s.errorFrame_finished _⟩
  · exact ⟨rfl, s.errorFrame_finished _⟩
  · exact ⟨rfl, State.errorFrame_of_ok rfl⟩

theorem execLsbRead_frame (h : execLsbRead s = .next t) :
    t = { s with bitio := t.bitio }.completed t.code ∧ s.ErrorFrame t := by
  rcases execLsbRead_next.mp h with ⟨-, rfl⟩ | ⟨-, -, rfl⟩ | ⟨-, -, _, -, rfl⟩
  · exact ⟨rfl, s.errorFrame_finished _⟩
  · exact ⟨rfl, s.errorFrame_finished _⟩
  · exact ⟨rfl, State.errorFrame_of_ok rfl⟩

theorem execHdrEncode_frame (h : execHdrEncode s = .next t) :
    t = { s with ch := t.ch }.completed t.code ∧ s.ErrorFrame t := by
  rcases execHdrEncode_next.mp h with ⟨-, rfl⟩ | ⟨-, -, rfl⟩ | ⟨-, -, _, -, rfl⟩
  · exact ⟨rfl, s.errorFrame_finished _⟩
  · exact ⟨rfl, s.errorFrame_finished _⟩
  · exact ⟨rfl, State.errorFrame_of_ok rfl⟩

theorem execHdrDecode_frame (h : execHdrDecode s = .next t) :
    t = { s with hdrval := t.hdrval }.completed t.code ∧ s.ErrorFrame t := by
  rcases execHdrDecode_next.mp h with ⟨-, rfl⟩ | ⟨-, -, rfl⟩ | ⟨-, -, -, n, -, c, hc, rfl⟩
  · exact ⟨rfl, s.errorFrame_finished _⟩
  · exact ⟨rfl, State.errorFrame_of_noMessage rfl⟩
  · refine ⟨rfl, ?_⟩
    cases hp : plausible n s.streamLen with
    | true => exact State.errorFrame_of_ok (by simp [hc, hp])
    | false => exact State.errorFrame_of_noMessage (by simp [hc, hp])

theorem execEmbed_frame (h : execEmbed s = .next t) :
    t = { s with ch := t.ch }.completed t.code ∧ s.ErrorFrame t := by
  rcases execEmbed_next.mp h with ⟨-, rfl⟩ | ⟨-, -, rfl⟩ | ⟨-, -, _, -, _, -, _, -, rfl⟩
  · exact ⟨rfl, s.errorFrame_finished _⟩
  · exact ⟨rfl, s.errorFrame_finished _⟩
  · exact ⟨rfl, State.errorFrame_of_ok rfl⟩

theorem execExtract_frame (h : execExtract s = .next t) :
    t = { s with rlen := t.rlen, hdrval := t.hdrval, pm := t.pm }.completed t.code ∧ s.ErrorFrame t := by
  rcases execExtract_next.mp h with ⟨-, rfl⟩ | ⟨-, -, rfl⟩ | ⟨-, -, -, _, -, -, rfl⟩ |
    ⟨-, -, -, _, -, -, -, _, -, rfl⟩
  · exact ⟨rfl, s.errorFrame_finished _⟩
  · exact ⟨rfl, State.errorFrame_of_noMessage rfl⟩
  · exact ⟨rfl, State.errorFrame_of_noMessage rfl⟩
  · exact ⟨rfl, State.errorFrame_of_ok rfl⟩

/-- The error clause for every command (60_exceptions.md R204). -/
theorem exec_errorFrame (i : Instr) (h : exec i s = .next t) : s.ErrorFrame t := by
  cases i with
  | capacity => exact (execCapacity_frame h).2
  | pack => exact (execPack_frame h).2
  | unpack => exact (execUnpack_frame h).2
  | validate => exact (execValidate_frame h).2
  | lsbWrite => exact (execLsbWrite_frame h).2
  | lsbRead => exact (execLsbRead_frame h).2
  | hdrEncode => exact (execHdrEncode_frame h).2
  | hdrDecode => exact (execHdrDecode_frame h).2
  | embed => exact (execEmbed_frame h).2
  | extract => exact (execExtract_frame h).2

/-- Settles O8: the row of each command, and the error clause of all of them. -/
theorem eachCommandWritesOnlyItsRow : Obligations.EachCommandWritesOnlyItsRow := by
  unfold Obligations.EachCommandWritesOnlyItsRow
  intro s t
  exact ⟨fun h => (execCapacity_frame h).1, fun h => (execValidate_frame h).1, fun h => (execPack_frame h).1,
    fun h => (execUnpack_frame h).1, fun h => (execLsbWrite_frame h).1, fun h => (execLsbRead_frame h).1,
    fun h => (execHdrEncode_frame h).1, fun h => (execHdrDecode_frame h).1, fun h => (execEmbed_frame h).1,
    fun h => (execExtract_frame h).1, fun i h => exec_errorFrame i h⟩

/-! ### What each command reads (10_state.md R41)

`exec` commutes with replacing STATUS, CUR and the host's side: the operations a command is made of do. -/

/-- `s` with the host's side of `o`. -/
def State.withHostOf (s o : State) : State := { s with moves := o.moves, seen := o.seen, draws := o.draws }

/-- `s` with STATUS, CUR and the host's side of `o`: what is left of `s` is its parameters, registers and memories. -/
def State.withOutsideOf (s o : State) : State :=
  { s with cur := o.cur, busy := o.busy, done := o.done, code := o.code
           moves := o.moves, seen := o.seen, draws := o.draws }

/-- `g` on the next state a result answers; a fault or a refusal stays. -/
def Result.onNext (g : State → State) : Result → Result
  | .next t => .next (g t)
  | .fault f => .fault f
  | .refused q => .refused q

theorem Result.onNext_ite (g : State → State) (c : Prop) [Decidable c] (a b : Result) :
    Result.onNext g (if c then a else b) = if c then Result.onNext g a else Result.onNext g b :=
  apply_ite ..

theorem Result.onNext_attempt {α : Type} (g : State → State) (r : Except Fault α) (k : α → Result) :
    Result.onNext g (attempt r k) = attempt r fun x => Result.onNext g (k x) := by
  cases r <;> rfl

/-- No check, cell access or register update of a command reads a field replaced, and completion overwrites STATUS and
CUR (60_exceptions.md R201): the two sides are the same once `onNext` stands at each `finish`. -/
theorem exec_withOutsideOf (i : Instr) (s o : State) :
    exec i (s.withOutsideOf o) = Result.onNext (·.withHostOf o) (exec i s) := by
  cases i with
  | capacity | validate => rfl
  | pack | unpack | lsbWrite | lsbRead | hdrEncode | hdrDecode | embed | extract =>
    simp only [exec, execPack, execUnpack, execLsbWrite, execLsbRead, execHdrEncode, execHdrDecode, execEmbed,
      execExtract, Result.onNext_ite, Result.onNext_attempt]
    rfl

/-- Settles O10: `exec` commutes with the replacement of STATUS, CUR and the host's side. -/
theorem commandsDependOnRegistersAndMemoriesAlone : Obligations.CommandsDependOnRegistersAndMemoriesAlone := by
  unfold Obligations.CommandsDependOnRegistersAndMemoriesAlone
  intro i s w b d c ms se n
  have hcomm := exec_withOutsideOf i s
    { s with cur := w, busy := b, done := d, code := c, moves := ms, seen := se, draws := n }
  constructor
  · intro t h
    rw [h] at hcomm
    exact hcomm
  · intro f h
    rw [h] at hcomm
    exact hcomm

/-! ### The state after reset (10_state.md R42) -/

/-- After a reset every register reads 0 (70_reset_and_hazards.md R230). -/
theorem State.afterReset_regWord (s : State) (r : Reg) : s.afterReset.regWord r = 0#32 := by
  cases r with
  | status => exact (by decide : State.reset.statusWord = 0#32)
  | cmd | width | height | plen | nbits | idx | bitio | hdrval | maxb | pixcnt | availLo | availHi | rlen | valid => rfl

theorem Memory.cell_nil {α : Type} (i : Nat) : Memory.cell ([] : Memory α) i = none := rfl

/-- Settles O14: `State.reset` is its own reset, and its memories list no cell. -/
theorem resetLeavesZeroRegistersAndEmptyMemories : Obligations.ResetLeavesZeroRegistersAndEmptyMemories := by
  unfold Obligations.ResetLeavesZeroRegistersAndEmptyMemories
  exact ⟨rfl, rfl, rfl, rfl, State.reset.afterReset_regWord, Memory.cell_nil, Memory.cell_nil, Memory.cell_nil⟩

/-- Settles O16: the base of the invariant's induction, proved beside its step. -/
theorem resetMeetsTheInvariant : Obligations.ResetMeetsTheInvariant := State.reset_inv

/-! ### The host's access to the registers

A register access at the offset of a register `r`, then at a reserved offset. -/

/-- The offset of a register is a multiple of 4 (20_memory.md R57). -/
theorem regOffset_mod_four (r : Reg) : (regOffset r).toNat % 4 = 0 := by cases r <;> decide

theorem step_read {off : BitVec 8} {ms : List Move} (hoff : off.toNat % 4 = 0)
    (hm : s.moves = .host (.rd off 32) :: ms) : step s = .next ((s.withMoves ms).readOffset off) :=
  step_host hm nofun (registerAccessWf_iff.mpr ⟨rfl, hoff⟩) nofun

theorem step_write {off : BitVec 8} {v : Word} {ms : List Move} (hb : s.busy = false) (hoff : off.toNat % 4 = 0)
    (hm : s.moves = .host (.wr off 32 v) :: ms) : step s = .next ((s.withMoves ms).writeOffset off v) :=
  step_host hm nofun (registerAccessWf_iff.mpr ⟨rfl, hoff⟩) fun _ => hb

/-- STATUS is the one register that reads the same while a command is in flight (70_reset_and_hazards.md R236). -/
theorem State.readOffset_status (s : State) :
    s.readOffset (regOffset .status) = s.saw (.word s.statusWord) := by
  cases hb : s.busy <;> simp [State.readOffset, State.readRegBusy, State.regWord, hb]

theorem State.readOffset_idle (hb : s.busy = false) (r : Reg) :
    s.readOffset (regOffset r) = s.saw (.word (s.regWord r)) := by
  simp [State.readOffset, hb]

theorem State.readOffset_reserved (s : State) {off : BitVec 8} (h : 0x3C ≤ off.toNat) :
    s.readOffset off = s.saw (.word 0#32) := by
  simp [State.readOffset, regAt_reserved h]

theorem State.writeOffset_regOffset (s : State) (v : Word) (r : Reg) :
    s.writeOffset (regOffset r) v = s.writeReg v r := by
  simp [State.writeOffset]

theorem State.writeOffset_reserved (s : State) (v : Word) {off : BitVec 8} (h : 0x3C ≤ off.toNat) :
    s.writeOffset off v = s := by
  simp [State.writeOffset, regAt_reserved h]

/-! #### STATUS (10_state.md R25) -/

/-- The STATUS word as a number: each field times the weight of its lowest bit. -/
theorem State.statusWord_toNat (s : State) :
    s.statusWord.toNat = 16 * s.code.num.toNat + 2 * s.done.toNat + s.busy.toNat := by
  have hor (n : Nat) (t : Bool) : n <<< 1 ||| t.toNat = 2 * n + t.toNat := by
    rw [← Nat.shiftLeft_add_eq_or_of_lt t.toNat_lt, Nat.shiftLeft_eq, Nat.mul_comm]
  simp only [State.statusWord, BitVec.toNat_append, BitVec.toNat_ofBool, hor]
  simp [Nat.shiftLeft_eq]
  omega

theorem State.statusWord_bits (s : State) : s.statusWord.getLsbD 0 = s.busy ∧ s.statusWord.getLsbD 1 = s.done ∧
    s.statusWord.getLsbD 2 = false ∧ s.statusWord.getLsbD 3 = false := by
  simp only [State.statusWord, BitVec.getLsbD_append]
  simp

/-- Settles O18, from the places of the fields in the STATUS word. -/
theorem statusReadsItsFields : Obligations.StatusReadsItsFields := by
  unfold Obligations.StatusReadsItsFields
  intro s ms hm
  obtain ⟨hbusy, hdone, h2, h3⟩ := s.statusWord_bits
  have hword := s.statusWord_toNat
  have hbusy_le := s.busy.toNat_le
  have hdone_le := s.done.toNat_le
  refine ⟨s.statusWord, ?_, hbusy, hdone, h2, h3, ?_, ?_⟩
  · rw [step_read (off := regOffset .status) (regOffset_mod_four _) hm, State.readOffset_status]
    rfl
  · have hcode : s.statusWord.toNat / 16 % 16 = s.code.num.toNat := by omega
    rw [hcode]
    cases s.code <;> rfl
  · omega

/-! #### The other registers, while BUSY = 0 -/

theorem step_idle_read {r : Reg} {ms : List Move} (hb : s.busy = false)
    (hm : s.moves = .host (.rd (regOffset r) 32) :: ms) :
    step s = .next ((s.withMoves ms).saw (.word (s.regWord r))) := by
  rw [step_read (regOffset_mod_four r) hm, State.readOffset_idle (s := s.withMoves ms) hb]
  rfl

theorem step_idle_write {r : Reg} {v : Word} {ms : List Move} (hb : s.busy = false)
    (hm : s.moves = .host (.wr (regOffset r) 32 v) :: ms) : step s = .next ((s.withMoves ms).writeReg v r) := by
  rw [step_write hb (regOffset_mod_four r) hm, State.writeOffset_regOffset]

/-- A one-bit field, zero-extended (10_state.md R31, R36). -/
theorem setWidth_ofBool (t : Bool) : (BitVec.ofBool t).setWidth 32 = if t then 1#32 else 0#32 := by cases t <;> rfl

/-- Settles O19: the listed offsets and values are those of the register map, less STATUS. -/
theorem idleReadsReturnTheRegisters : Obligations.IdleReadsReturnTheRegisters := by
  unfold Obligations.IdleReadsReturnTheRegisters
  intro s ms off v hb hm h
  rcases h with h | ⟨hoff, hres, rfl⟩
  · rw [← setWidth_ofBool, ← setWidth_ofBool] at h
    obtain ⟨r, -, hr⟩ := List.mem_map.mp
      (show (off, v) ∈ (regList.erase .status).map fun r => (regOffset r, s.regWord r) from h)
    obtain ⟨rfl, rfl⟩ := Prod.mk.inj hr
    exact step_idle_read hb hm
  · rw [step_read hoff hm, State.readOffset_reserved _ hres]
    rfl

/-- The registers that ignore a host write (10_state.md R23; 20_memory.md R58). -/
def readOnlyRegs : List Reg := [.status, .pixcnt, .availLo, .availHi, .rlen, .valid]

theorem State.writeReg_readOnly (s : State) (v : Word) {r : Reg} (h : r ∈ readOnlyRegs) : s.writeReg v r = s := by
  cases r with
  | status | pixcnt | availLo | availHi | rlen | valid => rfl
  | cmd | width | height | plen | nbits | idx | bitio | hdrval | maxb => exact absurd h (by decide)

/-- Settles O20: each clause is the write of one register, of a read-only one, or at a reserved offset. -/
theorem idleWritesStoreTheFields : Obligations.IdleWritesStoreTheFields := by
  unfold Obligations.IdleWritesStoreTheFields
  intro s ms off v hb hm
  refine ⟨?_, ?_, ?_, ?_, ?_, ?_, ?_, ?_, ?_⟩
  · rintro rfl; exact step_idle_write (r := .width) hb hm
  · rintro rfl; exact step_idle_write (r := .height) hb hm
  · rintro rfl; exact step_idle_write (r := .plen) hb hm
  · rintro rfl; exact step_idle_write (r := .nbits) hb hm
  · rintro rfl; exact step_idle_write (r := .idx) hb hm
  · rintro rfl; exact step_idle_write (r := .bitio) hb hm
  · rintro rfl; exact step_idle_write (r := .hdrval) hb hm
  · rintro rfl; exact step_idle_write (r := .maxb) hb hm
  · rintro (h | ⟨hoff, hres⟩)
    · obtain ⟨r, hr, rfl⟩ := List.mem_map.mp (show off ∈ readOnlyRegs.map regOffset from h)
      rw [step_idle_write hb hm, State.writeReg_readOnly _ _ hr]
      rfl
    · rw [step_write hb hoff hm, State.writeOffset_reserved _ _ hres]
      rfl

end Sys2Proof.Machine
end

section
/-! PROOFS. The family of 20_memory.md: what a command may change in channel memory (O42), the numbering of the samples
(O43), the cells beyond the stream (O44), and the host's access to the cells while BUSY = 0 (O23, O24). -/

namespace Sys2Proof.Machine

variable {s t : State} {L : Nat}

/-! ### What a command may change in channel memory (20_memory.md R52; 43_embed_extract.md R171) -/

/-- From `m` to `m'` the cells keep their bits 7:1 and their being written or not, and change below `L` alone. -/
def Memory.LsbFrame (L : Nat) (m m' : Memory Byte) : Prop :=
  ∀ j, (∀ b, m.cell j = some b → ∃ b', m'.cell j = some b' ∧ b' &&& 0xFE#8 = b &&& 0xFE#8) ∧
    (m.cell j = none → m'.cell j = none) ∧ (L ≤ j → m'.cell j = m.cell j)

theorem Memory.LsbFrame.of_eq {m m' : Memory Byte} (h : m' = m) : Memory.LsbFrame L m m' := by
  subst h
  exact fun j => ⟨fun b hb => ⟨b, hb, rfl⟩, id, fun _ => rfl⟩

theorem Memory.LsbFrame.trans {m₁ m₂ m₃ : Memory Byte} (h : Memory.LsbFrame L m₁ m₂) (h' : Memory.LsbFrame L m₂ m₃) :
    Memory.LsbFrame L m₁ m₃ := by
  intro j
  obtain ⟨hupper, hnone, hbeyond⟩ := h j
  obtain ⟨hupper', hnone', hbeyond'⟩ := h' j
  refine ⟨fun b hb => ?_, fun hn => hnone' (hnone hn), fun hj => (hbeyond' hj).trans (hbeyond hj)⟩
  obtain ⟨b', hb', hu⟩ := hupper b hb
  obtain ⟨b'', hb'', hu'⟩ := hupper' b' hb'
  exact ⟨b'', hb'', hu'.trans hu⟩

theorem Memory.LsbFrame.of_writeLsbs {size a : Nat} {m m' : Memory Byte} {B : List Bit}
    (h : writeLsbs size m a B = .ok m') (hL : a + B.length ≤ L) : Memory.LsbFrame L m m' := by
  intro j
  obtain ⟨hupper, hnone, hbeyond⟩ := writeLsbs_frame h j
  exact ⟨hupper, hnone, fun hj => hbeyond (hL.trans hj)⟩

theorem Memory.LsbFrame.put_setlsb {m : Memory Byte} {i : Nat} {b : Byte} (u : Bit) (hb : m.cell i = some b)
    (hi : i < L) : Memory.LsbFrame L m (m.put i (setlsb b u)) := by
  intro j
  rcases eq_or_ne j i with rfl | hj
  · refine ⟨fun b' hb' => ⟨_, m.cell_put_same _ _, ?_⟩, fun hn => ?_, fun hle => absurd hi (Nat.not_lt.mpr hle)⟩
    · obtain rfl : b = b' := Option.some.inj (hb.symm.trans hb')
      exact setlsb_upper b u
    · exact absurd (hb.symm.trans hn) nofun
  · rw [m.cell_put_other _ _ _ hj]
    exact ⟨fun b' hb' => ⟨b', hb', rfl⟩, id, fun _ => rfl⟩

theorem execLsbWrite_lsbFrame (h : execLsbWrite s = .next t) : Memory.LsbFrame s.streamLen s.ch t.ch := by
  rcases execLsbWrite_next.mp h with ⟨-, rfl⟩ | ⟨-, -, rfl⟩ | ⟨-, hi, b, hb, rfl⟩
  · exact .of_eq rfl
  · exact .of_eq rfl
  · exact .put_setlsb _ hb hi

theorem execHdrEncode_lsbFrame (h : execHdrEncode s = .next t) : Memory.LsbFrame s.streamLen s.ch t.ch := by
  rcases execHdrEncode_next.mp h with ⟨-, rfl⟩ | ⟨-, -, rfl⟩ | ⟨-, hL, ch, hch, rfl⟩
  · exact .of_eq rfl
  · exact .of_eq rfl
  · exact .of_writeLsbs hch (by simpa using hL)

/-- The bits of a payload that was read fit the stream past the header (43_embed_extract.md R170). -/
theorem payloadBits_le {payload : List Byte} (hL : 8 * s.plen.toNat + 32 ≤ L)
    (h : readRun .pm s.params.pmemSize s.pm 0 s.plen.toNat = .ok payload) : 32 + (bytesToBits payload).length ≤ L := by
  obtain ⟨hlen, -⟩ := readRun_ok.mp h
  rw [bytesToBits_length]
  omega

theorem execEmbed_lsbFrame (h : execEmbed s = .next t) : Memory.LsbFrame s.streamLen s.ch t.ch := by
  rcases execEmbed_next.mp h with ⟨-, rfl⟩ | ⟨-, -, rfl⟩ | ⟨-, hL, payload, hp, ch, hch, ch', hch', rfl⟩
  · exact .of_eq rfl
  · exact .of_eq rfl
  · have hheader : 0 + (hdrBits (8 * s.plen.toNat)).length ≤ s.streamLen := by
      rw [hdrBits_length]
      omega
    exact (Memory.LsbFrame.of_writeLsbs hch hheader).trans (.of_writeLsbs hch' (payloadBits_le hL hp))

/-- Seven commands leave channel memory alone, by their rows of R38; the other three write LSBs of the stream. -/
theorem exec_lsbFrame (i : Instr) (h : exec i s = .next t) : Memory.LsbFrame s.streamLen s.ch t.ch := by
  cases i with
  | capacity => exact .of_eq ((congrArg State.ch (execCapacity_frame h).1).trans rfl)
  | pack => exact .of_eq ((congrArg State.ch (execPack_frame h).1).trans rfl)
  | unpack => exact .of_eq ((congrArg State.ch (execUnpack_frame h).1).trans rfl)
  | validate => exact .of_eq ((congrArg State.ch (execValidate_frame h).1).trans rfl)
  | lsbRead => exact .of_eq ((congrArg State.ch (execLsbRead_frame h).1).trans rfl)
  | hdrDecode => exact .of_eq ((congrArg State.ch (execHdrDecode_frame h).1).trans rfl)
  | extract => exact .of_eq ((congrArg State.ch (execExtract_frame h).1).trans rfl)
  | lsbWrite => exact execLsbWrite_lsbFrame h
  | hdrEncode => exact execHdrEncode_lsbFrame h
  | embed => exact execEmbed_lsbFrame h

/-- Settles O42: the frame of channel memory under every command. -/
theorem commandsChangeOnlyStreamLsbs : Obligations.CommandsChangeOnlyStreamLsbs := by
  unfold Obligations.CommandsChangeOnlyStreamLsbs
  intro i s t j h
  exact exec_lsbFrame i h j

/-! ### The numbering of the samples (20_memory.md R51) -/

theorem streamIndex_lt {w h y x c : Nat} (hy : y < h) (hx : x < w) (hc : c < 3) : streamIndex w y x c < 3 * w * h := by
  have hrows : (y + 1) * w ≤ h * w := Nat.mul_le_mul_right w hy
  have hpixels : 3 * w * h = 3 * (h * w) := by rw [Nat.mul_assoc, Nat.mul_comm w]
  rw [Nat.add_one_mul] at hrows
  unfold streamIndex
  omega

/-- The index gives back the channel, the column and the row: it numbers no two samples alike. -/
theorem streamIndex_coords {w y x c : Nat} (hx : x < w) (hc : c < 3) :
    y = streamIndex w y x c / 3 / w ∧ x = streamIndex w y x c / 3 % w ∧ c = streamIndex w y x c % 3 := by
  have hpixel : streamIndex w y x c / 3 = w * y + x := by
    rw [streamIndex, Nat.mul_comm y]
    omega
  refine ⟨?_, ?_, ?_⟩
  · rw [hpixel, Nat.mul_add_div (Nat.zero_lt_of_lt hx), Nat.div_eq_of_lt hx, Nat.add_zero]
  · rw [hpixel, Nat.mul_add_mod, Nat.mod_eq_of_lt hx]
  · rw [streamIndex]
    omega

theorem streamIndex_of_coords (w i : Nat) : streamIndex w (i / 3 / w) (i / 3 % w) (i % 3) = i := by
  rw [streamIndex, Nat.div_add_mod', Nat.div_add_mod']

/-- Settles O43: division by 3 and then by the width inverts the index. -/
theorem streamIndexNumbersEachSampleOnce : Obligations.StreamIndexNumbersEachSampleOnce := by
  unfold Obligations.StreamIndexNumbersEachSampleOnce
  refine fun s => ⟨fun y x c hy hx hc => ⟨rfl, streamIndex_lt hy hx hc⟩, fun i hi => ?_⟩
  have hw : 0 < s.width.toNat := Nat.pos_of_ne_zero fun h0 => by simp [h0] at hi
  have hpixel : i / 3 < s.width.toNat * s.height.toNat := by
    rw [Nat.mul_assoc] at hi
    omega
  refine ⟨_, _, _, Nat.div_lt_of_lt_mul hpixel, Nat.mod_lt _ hw, Nat.mod_lt _ (by decide),
    streamIndex_of_coords _ i, ?_⟩
  rintro y' x' c' - hx' hc' rfl
  exact streamIndex_coords hx' hc'

/-! ### The cells beyond the stream (20_memory.md R51)

Two runs of a command, from channel memories that agree below `L`, are compared access by access: they read the same,
write the same, and end alike but for the cells from `L` on. -/

/-- `m'` reads as `n` below `L` and as `m` from `L` on. -/
def Memory.Splices (L : Nat) (n m m' : Memory Byte) : Prop :=
  (∀ j, j < L → m'.cell j = n.cell j) ∧ ∀ j, L ≤ j → m'.cell j = m.cell j

/-- The two results are alike, but that the second's channel memory reads as `m` from `L` on. -/
def Result.SameStream (L : Nat) (m : Memory Byte) : Result → Result → Prop
  | .next t, r => ∃ m', Memory.Splices L t.ch m m' ∧ r = .next (t.withCh m')
  | .fault f, r => r = .fault f
  | .refused q, r => r = .refused q

section SameStream

variable {m m' n : Memory Byte} {α : Type}

theorem sameStream_finish (c : Code) (s : State) (h : Memory.Splices L s.ch m m') :
    Result.SameStream L m (finish c s) (finish c (s.withCh m')) := ⟨m', h, rfl⟩

theorem sameStream_ite {c : Prop} [Decidable c] {a b a' b' : Result} (ha : c → Result.SameStream L m a a')
    (hb : ¬c → Result.SameStream L m b b') : Result.SameStream L m (if c then a else b) (if c then a' else b') := by
  by_cases hc : c
  · simpa only [if_pos hc] using ha hc
  · simpa only [if_neg hc] using hb hc

/-- An access that answers the same in both runs. -/
theorem sameStream_attempt {r r' : Except Fault α} {k k' : α → Result} (hr : r' = r)
    (hk : ∀ x, r = .ok x → Result.SameStream L m (k x) (k' x)) :
    Result.SameStream L m (attempt r k) (attempt r' k') := by
  subst hr
  cases r' with
  | error f => rfl
  | ok x => exact hk x rfl

/-- A write of LSBs inside the stream lands in both runs or faults in both. -/
theorem sameStream_writeLsbs {size a : Nat} {B : List Bit} {k k' : Memory Byte → Result}
    (h : Memory.Splices L n m m') (hL : a + B.length ≤ L)
    (hk : ∀ x x', Memory.Splices L x m x' → Result.SameStream L m (k x) (k' x')) :
    Result.SameStream L m (attempt (writeLsbs size n a B) k) (attempt (writeLsbs size m' a B) k') := by
  obtain ⟨hbelow, hbeyond⟩ := h
  obtain ⟨hok, herror⟩ := writeLsbs_congr (size := size) hbelow hL
  cases hw : writeLsbs size n a B with
  | error f =>
    rw [herror f hw]
    rfl
  | ok x =>
    obtain ⟨x', hw', hbelow', hbeyond'⟩ := hok x hw
    rw [hw']
    exact hk x x' ⟨hbelow', fun j hj => (hbeyond' j hj).trans (hbeyond j hj)⟩

theorem Memory.Splices.readCell_eq {size i : Nat} (h : Memory.Splices L n m m') (hi : i < L) :
    readCell .ch size m' i = readCell .ch size n i := by
  simp only [readCell, h.1 i hi]

theorem Memory.Splices.readLsbs_eq {size a k : Nat} (h : Memory.Splices L n m m') (hL : a + k ≤ L) :
    readLsbs size m' a k = readLsbs size n a k :=
  readLsbs_congr fun i _ hi => h.1 i (hi.trans_le hL)

/-- A write of one cell inside the stream lands in both runs or faults in both. -/
theorem sameStream_writeCell {size i : Nat} {k k' : Memory Byte → Result} (v : Byte)
    (h : Memory.Splices L n m m') (hi : i < L)
    (hk : ∀ x x', Memory.Splices L x m x' → Result.SameStream L m (k x) (k' x')) :
    Result.SameStream L m (attempt (writeCell .ch size n i v) k) (attempt (writeCell .ch size m' i v) k') := by
  unfold writeCell
  by_cases hs : i < size
  · rw [if_pos hs, if_pos hs]
    refine hk _ _ ⟨fun j hj => ?_, fun j hj => ?_⟩
    · rw [Memory.cell_put, Memory.cell_put, h.1 j hj]
    · rw [Memory.cell_put_other _ _ _ _ (by omega), h.2 j hj]
  · rw [if_neg hs, if_neg hs]
    rfl

/-! One lemma per command that reads or writes channel memory; the checks do neither. -/

theorem execLsbWrite_sameStream (h : Memory.Splices s.streamLen s.ch m m') :
    Result.SameStream s.streamLen m (execLsbWrite s) (execLsbWrite (s.withCh m')) := by
  refine sameStream_ite (fun _ => sameStream_finish _ s h) fun _ => ?_
  refine sameStream_ite (fun _ => sameStream_finish _ s h) fun hidx => ?_
  have hlt : s.idx.toNat < s.streamLen := Nat.not_le.mp hidx
  refine sameStream_attempt (h.readCell_eq hlt) fun b _ => ?_
  exact sameStream_writeCell (setlsb b s.bitio) h hlt fun ch ch' hch => sameStream_finish _ (s.withCh ch) hch

theorem execLsbRead_sameStream (h : Memory.Splices s.streamLen s.ch m m') :
    Result.SameStream s.streamLen m (execLsbRead s) (execLsbRead (s.withCh m')) := by
  refine sameStream_ite (fun _ => sameStream_finish _ s h) fun _ => ?_
  refine sameStream_ite (fun _ => sameStream_finish _ s h) fun hidx => ?_
  exact sameStream_attempt (h.readCell_eq (Nat.not_le.mp hidx)) fun b _ => sameStream_finish _ (s.withBitio (lsb b)) h

theorem execHdrEncode_sameStream (h : Memory.Splices s.streamLen s.ch m m') :
    Result.SameStream s.streamLen m (execHdrEncode s) (execHdrEncode (s.withCh m')) := by
  refine sameStream_ite (fun _ => sameStream_finish _ s h) fun _ => ?_
  refine sameStream_ite (fun _ => sameStream_finish _ s h) fun hL => ?_
  have hheader : 0 + (hdrBits s.hdrval.toNat).length ≤ s.streamLen := by simpa using hL
  exact sameStream_writeLsbs h hheader fun ch ch' hch => sameStream_finish _ (s.withCh ch) hch

theorem execHdrDecode_sameStream (h : Memory.Splices s.streamLen s.ch m m') :
    Result.SameStream s.streamLen m (execHdrDecode s) (execHdrDecode (s.withCh m')) := by
  refine sameStream_ite (fun _ => sameStream_finish _ s h) fun _ => ?_
  refine sameStream_ite (fun _ => sameStream_finish _ (s.withHdrval _) h) fun hL => ?_
  have hheader : 0 + hdrBitCount ≤ s.streamLen := by simpa using hL
  exact sameStream_attempt (h.readLsbs_eq hheader) fun B _ => sameStream_finish _ (s.withHdrval _) h

theorem execEmbed_sameStream (h : Memory.Splices s.streamLen s.ch m m') :
    Result.SameStream s.streamLen m (execEmbed s) (execEmbed (s.withCh m')) := by
  refine sameStream_ite (fun _ => sameStream_finish _ s h) fun _ => ?_
  refine sameStream_ite (fun _ => sameStream_finish _ s h) fun hfits => ?_
  have hL : 8 * s.plen.toNat + 32 ≤ s.streamLen := by
    simp only [hdrBitCount] at hfits
    omega
  have hheader : 0 + (hdrBits (8 * s.plen.toNat)).length ≤ s.streamLen := by
    rw [hdrBits_length]
    omega
  refine sameStream_attempt rfl fun payload hp => ?_
  refine sameStream_writeLsbs h hheader fun ch _ hch => ?_
  exact sameStream_writeLsbs hch (payloadBits_le hL hp) fun ch' _ hch' => sameStream_finish _ (s.withCh ch') hch'

theorem execExtract_sameStream (h : Memory.Splices s.streamLen s.ch m m') :
    Result.SameStream s.streamLen m (execExtract s) (execExtract (s.withCh m')) := by
  refine sameStream_ite (fun _ => sameStream_finish _ s h) fun _ => ?_
  refine sameStream_ite (fun _ => sameStream_finish _ ((s.withHdrval _).withRlen _) h) fun hL => ?_
  have hheader : 0 + hdrBitCount ≤ s.streamLen := by simpa using hL
  refine sameStream_attempt (h.readLsbs_eq hheader) fun header _ => ?_
  refine sameStream_ite (fun _ => sameStream_finish _ ((s.withHdrval _).withRlen _) h) fun hp => ?_
  have hpayload : hdrBitCount + hdrValue header ≤ s.streamLen := plausible_le (by simpa using hp)
  refine sameStream_attempt (h.readLsbs_eq hpayload) fun bits _ => ?_
  exact sameStream_attempt rfl fun pm _ => sameStream_finish _ (((s.withHdrval _).withPm pm).withRlen _) h

/-- The four commands of the bit packer read and write no channel memory. -/
theorem exec_sameStream (i : Instr) (h : Memory.Splices s.streamLen s.ch m m') :
    Result.SameStream s.streamLen m (exec i s) (exec i (s.withCh m')) := by
  cases i with
  | capacity => exact sameStream_finish _ (((s.withPixcnt _).withAvail _).withMaxb _) h
  | validate => exact sameStream_finish _ (s.withValid _) h
  | pack =>
    refine sameStream_ite (fun _ => sameStream_finish _ s h) fun _ => ?_
    refine sameStream_attempt rfl fun bytes _ => sameStream_attempt rfl fun bm _ => ?_
    exact sameStream_finish _ ((s.withBm bm).withRlen _) h
  | unpack =>
    refine sameStream_ite (fun _ => sameStream_finish _ s h) fun _ => ?_
    refine sameStream_attempt rfl fun bits _ => sameStream_attempt rfl fun pm _ => ?_
    exact sameStream_finish _ ((s.withPm pm).withRlen _) h
  | lsbWrite => exact execLsbWrite_sameStream h
  | lsbRead => exact execLsbRead_sameStream h
  | hdrEncode => exact execHdrEncode_sameStream h
  | hdrDecode => exact execHdrDecode_sameStream h
  | embed => exact execEmbed_sameStream h
  | extract => exact execExtract_sameStream h

end SameStream

/-- Settles O44: the run from `m` is compared with the run from the state's own channel memory. -/
theorem cellsBeyondTheStreamDoNotMatter : Obligations.CellsBeyondTheStreamDoNotMatter := by
  unfold Obligations.CellsBeyondTheStreamDoNotMatter
  rintro i s m L rfl hagree
  have hsame := exec_sameStream i (s := s) ⟨hagree, fun _ _ => rfl⟩
  constructor
  · intro t ht
    rw [ht] at hsame
    obtain ⟨m', ⟨hbelow, hbeyond⟩, hrun⟩ := hsame
    exact ⟨m', hrun, hbelow, hbeyond⟩
  · intro f hf
    rw [hf] at hsame
    exact hsame

/-! ### The host's access to the cells, while BUSY = 0 (20_memory.md R58, R60; 60_exceptions.md R206) -/

theorem State.readByte_written {m : Memory Byte} {i : Nat} {b : Byte} (hb : s.busy = false) (hc : m.cell i = some b) :
    s.readByte m i = s.saw (.byte b) := by
  simp only [State.readByte, hb, hc]

/-- An empty cell is a free draw, in flight too (log 7). -/
theorem State.readByte_empty {m : Memory Byte} {i : Nat} (hc : m.cell i = none) :
    s.readByte m i = (s.saw (.byte (Config.freeByte s.draws))).drew := by
  cases hb : s.busy <;> simp only [State.readByte, hb, hc]

theorem State.readBit_written {m : Memory Bit} {j : Nat} {u : Bit} (hb : s.busy = false) (hc : m.cell j = some u) :
    s.readBit m j = s.saw (.bit u) := by
  simp only [State.readBit, hb, hc]

/-- An empty cell is a free draw, in flight too (log 7). -/
theorem State.readBit_empty {m : Memory Bit} {j : Nat} (hc : m.cell j = none) :
    s.readBit m j = (s.saw (.bit (Config.freeBit s.draws))).drew := by
  cases hb : s.busy <;> simp only [State.readBit, hb, hc]

/-- Settles O23: a read inside a memory is taken at once, and the cell is written or empty. -/
theorem idleMemoryReadsReturnTheCell : Obligations.IdleMemoryReadsReturnTheCell := by
  unfold Obligations.IdleMemoryReadsReturnTheCell
  intro s ms i hb
  refine ⟨fun hi hm => ?_, fun hi hm => ?_, fun hi hm => ?_⟩
  · have hstep := step_host hm nofun (indexWf_ch.mpr hi) nofun
    exact ⟨fun b hc => hstep.trans (congrArg _ (State.readByte_written hb hc)),
      fun hc => hstep.trans (congrArg _ (State.readByte_empty hc))⟩
  · have hstep := step_host hm nofun (indexWf_pm.mpr hi) nofun
    exact ⟨fun b hc => hstep.trans (congrArg _ (State.readByte_written hb hc)),
      fun hc => hstep.trans (congrArg _ (State.readByte_empty hc))⟩
  · have hstep := step_host hm nofun (indexWf_bm.mpr hi) nofun
    exact ⟨fun b hc => hstep.trans (congrArg _ (State.readBit_written hb hc)),
      fun hc => hstep.trans (congrArg _ (State.readBit_empty hc))⟩

/-- Settles O24: the write is taken at once, and `Memory.put` sets one cell. -/
theorem idleMemoryWritesSetOneCell : Obligations.IdleMemoryWritesSetOneCell := by
  unfold Obligations.IdleMemoryWritesSetOneCell
  intro s ms i hb
  refine ⟨fun v hi hm => ?_, fun v hi hm => ?_, fun v hi hm => ?_⟩
  · exact ⟨_, step_host hm nofun (indexWf_ch.mpr hi) fun _ => hb, rfl, Memory.cell_put_same _ _ _,
      fun j hj => Memory.cell_put_other _ _ _ _ hj⟩
  · exact ⟨_, step_host hm nofun (indexWf_pm.mpr hi) fun _ => hb, rfl, Memory.cell_put_same _ _ _,
      fun j hj => Memory.cell_put_other _ _ _ _ hj⟩
  · exact ⟨_, step_host hm nofun (indexWf_bm.mpr hi) fun _ => hb, rfl, Memory.cell_put_same _ _ _,
      fun j hj => Memory.cell_put_other _ _ _ _ hj⟩

end Sys2Proof.Machine
end

section
/-! PROOFS. The family of 30_encoding.md: the opcode map (O1), decode and encode (O2), the illegal words (O3), and the
host's `run MNEMONIC` (O13). -/

namespace Sys2Proof

/-! ### The two fields of a command word (30_encoding.md R72) -/

theorem opcField_toNat (w : Word) : (opcField w).toNat = w.toNat % 16 := by
  simp [opcField]

theorem rsvdField_eq_zero_iff (w : Word) : rsvdField w = 0#28 ↔ w.toNat / 16 = 0 := by
  have hw := w.isLt
  rw [← BitVec.toNat_inj]
  simp only [rsvdField, BitVec.extractLsb'_toNat, BitVec.toNat_ofNat, Nat.shiftRight_eq_div_pow]
  omega

theorem word_eq_append_fields (w : Word) : w = rsvdField w ++ opcField w :=
  (BitVec.extractLsb'_append_extractLsb' (w := 28) (len := 4)).symm

theorem rsvdField_encode (i : Instr) : rsvdField (encode i) = 0#28 := BitVec.extractLsb'_append_eq_left

theorem opcField_encode (i : Instr) : opcField (encode i) = opcode i := BitVec.extractLsb'_append_eq_right

/-- A word is a command's exactly when RSVD is zero and OPC is the command's opcode. -/
theorem eq_encode_iff (w : Word) (i : Instr) : w = encode i ↔ rsvdField w = 0#28 ∧ opcField w = opcode i := by
  constructor
  · rintro rfl
    exact ⟨rsvdField_encode i, opcField_encode i⟩
  · rintro ⟨hrsvd, hopc⟩
    rw [word_eq_append_fields w, hrsvd, hopc]
    rfl

/-! ### The opcode map (30_encoding.md R73) -/

/-- The map inverts `opcode`, and no other number gives the command. -/
theorem decodeOpcode_eq_ok {n : Nat} {i : Instr} : decodeOpcode n = .ok i ↔ n = (opcode i).toNat := by
  constructor
  · intro h
    unfold decodeOpcode at h
    split at h <;> cases h <;> rfl
  · rintro rfl
    cases i <;> rfl

theorem decodeOpcode_eq_error {n : Nat} : (∃ e, decodeOpcode n = .error e) ↔ n = 0 ∨ 11 ≤ n := by
  unfold decodeOpcode
  split
  case h_11 => exact ⟨fun _ => by grind, fun _ => ⟨_, rfl⟩⟩
  all_goals simp

/-! ### The decoder (30_encoding.md R75) -/

theorem decode_eq_ok_iff {w : Word} {i : Instr} : decode w = .ok i ↔ w = encode i := by
  rw [eq_encode_iff, ← BitVec.toNat_inj (x := opcField w), ← decodeOpcode_eq_ok]
  by_cases hrsvd : rsvdField w = 0#28 <;> simp [decode, hrsvd]

/-- The illegal words as numbers: OPC is `w mod 16`, RSVD is `w div 16`. -/
theorem decode_eq_error_iff {w : Word} :
    (∃ e, decode w = .error e) ↔ w.toNat % 16 = 0 ∨ 11 ≤ w.toNat % 16 ∨ w.toNat / 16 ≠ 0 := by
  rw [← or_assoc, ← opcField_toNat, ← decodeOpcode_eq_error, ne_eq, ← rsvdField_eq_zero_iff]
  by_cases hrsvd : rsvdField w = 0#28 <;> simp [decode, hrsvd]

theorem decode_encode (i : Instr) : decode (encode i) = .ok i := decode_eq_ok_iff.mpr rfl

/-- Settles O2, as `decode w = .ok i ↔ w = encode i`. -/
theorem decodeInvertsEncodeAndNoOtherWordDecodes : Obligations.DecodeInvertsEncodeAndNoOtherWordDecodes := by
  unfold Obligations.DecodeInvertsEncodeAndNoOtherWordDecodes
  exact fun i _ => ⟨decode_encode i, fun _ => decode_eq_ok_iff.mp⟩

/-- Settles O1: the ten words are the encodings; the six reserved rows are evaluated. -/
theorem opcodeMapWordsDecode : Obligations.OpcodeMapWordsDecode := by
  unfold Obligations.OpcodeMapWordsDecode
  refine ⟨decode_encode .capacity, decode_encode .pack, decode_encode .unpack, decode_encode .validate,
    decode_encode .lsbWrite, decode_encode .lsbRead, decode_encode .hdrEncode, decode_encode .hdrDecode,
    decode_encode .embed, decode_encode .extract, ?_⟩
  decide

end Sys2Proof

namespace Sys2Proof.Machine

variable {s t : State}

/-! ### An illegal word in flight (30_encoding.md R75) -/

theorem blockTurn_ok {w : Word} {i : Instr} (hc : s.cur = some w) (hd : decode w = .ok i) : blockTurn s = exec i s := by
  simp only [blockTurn, hc, hd]

theorem blockTurn_error {w : Word} {e : Illegal} (hc : s.cur = some w) (hd : decode w = .error e) :
    blockTurn s = .next (s.completed .illegalCommand) := by
  simp only [blockTurn, hc, hd]
  rfl

/-- Settles O3: the illegal words as numbers, the others as encodings, and the block's turn. -/
theorem illegalWordsFinishWithIllegalCommand : Obligations.IllegalWordsFinishWithIllegalCommand := by
  unfold Obligations.IllegalWordsFinishWithIllegalCommand
  refine ⟨fun w => decode_eq_error_iff, fun w => ?_, fun s w hc hw => ?_⟩
  · cases hd : decode w with
    | error e => exact .inl ⟨e, rfl⟩
    | ok i => exact .inr ⟨i, decode_eq_ok_iff.mp hd⟩
  · obtain ⟨e, hd⟩ := decode_eq_error_iff.mpr hw
    exact blockTurn_error hc hd

/-! ### The host's `run MNEMONIC` (30_encoding.md R77, R78) -/

/-- A `wait` while BUSY = 1 gives the block its turn, and is still the next move (60_exceptions.md R202). -/
theorem step_wait_busy {ms : List Move} (hb : s.busy = true) (hm : s.moves = .host .wait :: ms) :
    step s = blockTurn s := by
  simp only [step, advance, hm, hostTurn, hb, and_self, if_true]

/-- A `wait` while BUSY = 0 is over, and changes nothing. -/
theorem step_wait_idle {ms : List Move} (hb : s.busy = false) (hm : s.moves = .host .wait :: ms) :
    step s = .next (s.withMoves ms) := by
  simp only [step, advance, hm, hostTurn, hb, Bool.false_eq_true, and_false, if_false]
  exact hostOp_next.mpr ⟨rfl, nofun, rfl⟩

theorem run_succ_of_step (k : Nat) (h : step s = .next t) :
    Host.Core.run Sys2Proof.core (k + 1) s = Host.Core.run Sys2Proof.core k t := by
  simp only [Host.Core.run, Sys2Proof.core, h]

/-- Settles O13: the CMD write starts the command, the first `wait` runs it, the second one ends. -/
theorem hostRunOfACommandExecutesIt : Obligations.HostRunOfACommandExecutesIt := by
  unfold Obligations.HostRunOfACommandExecutesIt
  intro i s t ms hb hm hexec
  have hstart := step_idle_write hb (r := .cmd) (v := encode i) (ms := .host .wait :: ms) hm
  have hrun : step ((s.withMoves (.host .wait :: ms)).started (encode i)) = .next t :=
    (step_wait_busy rfl rfl).trans ((blockTurn_ok rfl (decode_encode i)).trans hexec)
  obtain ⟨-, hmoves, hidle⟩ := exec_next_host i hexec
  have hend : step t = .next (t.withMoves ms) := step_wait_idle hidle hmoves
  rw [run_succ_of_step 2 hstart, State.writeReg, run_succ_of_step 1 hrun, run_succ_of_step 0 hend]
  rfl

end Sys2Proof.Machine
end

section
/-! PROOFS. The family of 40_bit_packer.md: the four commands of the bit packer (O25, O26, O27, O29), what they say
together (O28, O30), and a command run twice (O11). -/

namespace Sys2Proof.Machine

variable {s t u : State} {α : Type}

/-! ### Runs from cell 0

PACK, UNPACK and EXTRACT read or write a run that begins at cell 0 (30_encoding.md R74). -/

theorem readRun_cell {sp : Space} {size n i : Nat} {m : Memory α} {xs : List α}
    (h : readRun sp size m 0 n = .ok xs) (hi : i < n) : m.cell i = xs[i]? := by
  obtain ⟨-, hcell⟩ := readRun_ok.mp h
  simpa using (hcell i hi).2

theorem writeRun_cell_of_lt {sp : Space} {size i : Nat} {m m' : Memory α} {xs : List α}
    (h : writeRun sp size m 0 xs = .ok m') (hi : i < xs.length) : m'.cell i = xs[i]? := by
  rw [writeRun_cell h, if_pos (by omega), Nat.sub_zero]

theorem writeRun_cell_of_le {sp : Space} {size i : Nat} {m m' : Memory α} {xs : List α}
    (h : writeRun sp size m 0 xs = .ok m') (hi : xs.length ≤ i) : m'.cell i = m.cell i := by
  rw [writeRun_cell h, if_neg (by omega)]

theorem writeRun_of_le (sp : Space) {size : Nat} (m : Memory α) {xs : List α} (h : xs.length ≤ size) :
    ∃ m', writeRun sp size m 0 xs = .ok m' := by
  obtain ⟨m', h', -⟩ := writeRun_total sp size m 0 xs (by omega)
  exact ⟨m', h'⟩

/-- A run written is read back as it was (20_memory.md R60). -/
theorem readRun_writeRun {sp : Space} {size : Nat} {m m' : Memory α} {xs : List α}
    (h : writeRun sp size m 0 xs = .ok m') (hle : xs.length ≤ size) : readRun sp size m' 0 xs.length = .ok xs := by
  refine readRun_ok.mpr ⟨rfl, fun i hi => ?_⟩
  rw [Nat.zero_add]
  exact ⟨hi.trans_le hle, writeRun_cell_of_lt h hi⟩

theorem readRun_of_isSome (sp : Space) {size n : Nat} {m : Memory α} (hle : n ≤ size)
    (h : ∀ i, i < n → (m.cell i).isSome = true) : ∃ xs, readRun sp size m 0 n = .ok xs := by
  refine (readRun_total (by omega)).mpr ((Memory.holds_iff_isSome _ _ _).mpr fun i hi => ?_)
  rw [Nat.zero_add]
  exact h i hi

theorem readRun_of_empty (sp : Space) {size n : Nat} {m : Memory α} (hle : n ≤ size)
    (h : ∃ i, i < n ∧ m.cell i = none) :
    ∃ i, i < n ∧ m.cell i = none ∧ readRun sp size m 0 n = .error (.uninitRead sp i) := by
  simpa using readRun_empty (sp := sp) (a := 0) (m := m) (by omega : 0 + n ≤ size) (by simpa using h)

/-! ### CAPACITY and VALIDATE (40_bit_packer.md R100, R110) -/

/-- Settles O25: the results fit their registers (`capacity_fits`), and MAXB is the quotient by 8 rounded down. -/
theorem capacityIsExact : Obligations.CapacityIsExact := by
  unfold Obligations.CapacityIsExact
  refine ⟨decode_encode .capacity, fun s => ⟨_, execCapacity_eq s, rfl, ?_⟩⟩
  obtain ⟨hpix, havail, hmaxb, -⟩ := capacity_fits s
  simp only [State.finished_pixcnt, State.finished_maxb, State.withMaxb_pixcnt, State.withMaxb_maxb,
    State.withAvail_pixcnt, State.withPixcnt_pixcnt, hmaxb]
  refine ⟨hpix, ?_, by omega, by omega⟩
  rw [← havail]
  exact congrArg BitVec.toInt (s.withAvail_avail _)

/-- Settles O29: VALID is the comparison itself. -/
theorem validateComparesIntegers : Obligations.ValidateComparesIntegers := by
  unfold Obligations.ValidateComparesIntegers
  exact ⟨decode_encode .validate, fun s => ⟨_, execValidate_eq s, rfl, decide_eq_true_iff⟩⟩

/-- On a carrier that fits, EMBED finishes with CAPACITY_EXCEEDED exactly when header and payload bits are more than the
stream has elements (43_embed_extract.md R170). -/
theorem execEmbed_capacityExceeded (hg : s.streamLen ≤ s.params.chmemSize) :
    (∃ t, execEmbed s = .next t ∧ t.code = .capacityExceeded) ↔ s.streamLen < 8 * s.plen.toNat + 32 := by
  constructor
  · rintro ⟨t, ht, hcode⟩
    rcases execEmbed_next.mp ht with ⟨-, rfl⟩ | ⟨-, hlt, -⟩ | ⟨-, -, _, -, _, -, _, -, rfl⟩
    · cases hcode
    · exact hlt
    · cases hcode
  · exact fun hlt => ⟨_, execEmbed_next.mpr (.inr (.inl ⟨hg, hlt, rfl⟩)), rfl⟩

/-- `p ≤ (n * 3 - 32) div 8` and `8 * p + 32 ≤ 3 * n` are one condition (40_bit_packer.md R102): rounding down loses
nothing, because 8 divides the bits of a payload. -/
theorem execValidate_execCapacity (ht : execCapacity s = .next t) (hu : execValidate t = .next u) :
    u.params = s.params ∧ u.streamLen = s.streamLen ∧ (u.valid = true ↔ 8 * u.plen.toNat + 32 ≤ u.streamLen) := by
  obtain ⟨-, -, hmaxb, -⟩ := capacity_fits s
  have hlen : (s.streamLen : Int) = (s.width.toNat : Int) * s.height.toNat * 3 := by
    simp only [State.streamLen, Nat.cast_mul]
    ring
  have hfits : (s.plen.toNat : Int) ≤ ((s.width.toNat : Int) * s.height.toNat * 3 - 32) / 8 ↔
      8 * s.plen.toNat + 32 ≤ s.streamLen := by omega
  rw [execCapacity_eq] at ht
  cases ht
  rw [execValidate_eq] at hu
  cases hu
  refine ⟨by simp, by simp, ?_⟩
  simpa [hmaxb] using hfits

/-- Settles O30: both say whether `8 * PLEN + 32` is at most the length of the stream. -/
theorem validateAgreesWithEmbed : Obligations.ValidateAgreesWithEmbed := by
  unfold Obligations.ValidateAgreesWithEmbed
  intro s t u hg ht hu
  obtain ⟨hparams, hlen, hvalid⟩ := execValidate_execCapacity ht hu
  have hg' : u.streamLen ≤ u.params.chmemSize := by
    rw [hparams, hlen]
    exact hg
  exact hvalid.trans (Nat.not_lt.symm.trans (not_congr (execEmbed_capacityExceeded hg').symm))

/-! ### PACK and UNPACK (40_bit_packer.md R104, R107) -/

/-- Every bit count of bit memory fits RLEN (00_scope.md R9). -/
theorem bitCount_toNat {p : Params} {n : Nat} (hp : p.ok = true) (hn : n ≤ p.bitmemBits) :
    (BitVec.ofNat 32 n).toNat = n := by
  obtain ⟨-, -, -, hpm⟩ := Params.ok_iff.mp hp
  unfold Params.bitmemBits at hn
  rw [BitVec.toNat_ofNat, Nat.mod_eq_of_lt (by omega)]

/-- PACK of bytes that can be read finishes OK: the bits of a payload that fits payload memory fit bit memory. -/
theorem execPack_of_readRun {n : Nat} {bytes : List Byte} (hn : s.plen.toNat = n) (hle : n ≤ s.params.pmemSize)
    (hr : readRun .pm s.params.pmemSize s.pm 0 n = .ok bytes) :
    ∃ bm, writeRun .bm s.params.bitmemBits s.bm 0 (bytesToBits bytes) = .ok bm ∧
      execPack s = .next (((s.withBm bm).withRlen (BitVec.ofNat 32 (8 * n))).finished .ok) := by
  subst hn
  obtain ⟨hlen, -⟩ := readRun_ok.mp hr
  have hfits : (bytesToBits bytes).length ≤ s.params.bitmemBits := by
    rw [bytesToBits_length, hlen]
    exact Nat.mul_le_mul_left 8 hle
  obtain ⟨bm, hw⟩ := writeRun_of_le .bm s.bm hfits
  exact ⟨bm, hw, execPack_next.mpr (.inr ⟨hle, bytes, hr, bm, hw, rfl⟩)⟩

/-- UNPACK of bits that can be read finishes OK: the whole groups of bits that fit bit memory fit payload memory. -/
theorem execUnpack_of_readRun {n : Nat} {bits : List Bit} (hn : s.nbits.toNat / 8 = n)
    (hle : s.nbits.toNat ≤ s.params.bitmemBits) (hr : readRun .bm s.params.bitmemBits s.bm 0 (8 * n) = .ok bits) :
    ∃ pm, writeRun .pm s.params.pmemSize s.pm 0 (bitsToBytes bits) = .ok pm ∧
      execUnpack s = .next (((s.withPm pm).withRlen (BitVec.ofNat 32 n)).finished .ok) := by
  subst hn
  obtain ⟨hlen, -⟩ := readRun_ok.mp hr
  have hfits : (bitsToBytes bits).length ≤ s.params.pmemSize := by
    rw [bitsToBytes_length, hlen, Nat.mul_div_cancel_left _ (by decide)]
    exact Nat.div_le_of_le_mul hle
  obtain ⟨pm, hw⟩ := writeRun_of_le .pm s.pm hfits
  exact ⟨pm, hw, execUnpack_next.mpr (.inr ⟨hle, bits, hr, pm, hw, rfl⟩)⟩

/-- Settles O26: PACK is a run of reads, the expansion, and a run of writes. -/
theorem packExpandsBytesMsbFirst : Obligations.PackExpandsBytesMsbFirst := by
  unfold Obligations.PackExpandsBytesMsbFirst
  refine ⟨decode_encode .pack, fun s hp => ⟨fun hlt => ?_, fun hle hfull => ?_, fun hle hempty => ?_⟩⟩
  · exact execPack_next.mpr (.inl ⟨hlt, rfl⟩)
  · obtain ⟨bytes, hr⟩ := readRun_of_isSome .pm hle hfull
    obtain ⟨bm, hw, hexec⟩ := execPack_of_readRun rfl hle hr
    obtain ⟨hlen, -⟩ := readRun_ok.mp hr
    have hbits : (bytesToBits bytes).length = 8 * s.plen.toNat := by rw [bytesToBits_length, hlen]
    refine ⟨_, hexec, rfl, bitCount_toNat hp (Nat.mul_le_mul_left 8 hle), fun k b hk hb j hj => ?_, fun j hj => ?_⟩
    · rw [readRun_cell hr hk] at hb
      exact (writeRun_cell_of_lt hw (by omega)).trans (bytesToBits_getElem? bytes k j b hb hj)
    · exact writeRun_cell_of_le hw (hbits.trans_le hj)
  · obtain ⟨k, hk, hnone, hr⟩ := readRun_of_empty .pm hle hempty
    exact ⟨k, hk, hnone, execPack_fault.mpr ⟨hle, .inl hr⟩⟩

/-- Settles O27: UNPACK is a run of reads of whole groups, their packing, and a run of writes. -/
theorem unpackPacksWholeGroups : Obligations.UnpackPacksWholeGroups := by
  unfold Obligations.UnpackPacksWholeGroups
  refine ⟨decode_encode .unpack, fun s hp => ⟨fun hlt => ?_, fun hle hfull => ?_, fun hle hempty => ?_⟩⟩
  · exact execUnpack_next.mpr (.inl ⟨hlt, rfl⟩)
  · obtain ⟨bits, hr⟩ := readRun_of_isSome .bm ((Nat.mul_div_le _ 8).trans hle) hfull
    obtain ⟨pm, hw, hexec⟩ := execUnpack_of_readRun rfl hle hr
    obtain ⟨hlen, -⟩ := readRun_ok.mp hr
    have hbytes : (bitsToBytes bits).length = s.nbits.toNat / 8 := by rw [bitsToBytes_length, hlen]; omega
    refine ⟨_, hexec, rfl, bitCount_toNat hp ((Nat.div_le_self _ 8).trans hle), fun k hk => ?_, fun k hk => ?_⟩
    · have hget := List.getElem?_eq_getElem (hk.trans_eq hbytes.symm)
      refine ⟨_, (writeRun_cell_of_lt hw (hk.trans_eq hbytes.symm)).trans hget, fun j hj => ?_⟩
      exact (readRun_cell hr (by omega)).trans (bitsToBytes_bit bits k j _ hget hj)
    · exact writeRun_cell_of_le hw (hbytes.trans_le hk)
  · obtain ⟨j, hj, hnone, hr⟩ := readRun_of_empty .bm ((Nat.mul_div_le _ 8).trans hle) hempty
    exact ⟨j, hj, hnone, execUnpack_fault.mpr ⟨hle, .inl hr⟩⟩

/-- What an OK PACK read is the payload, and what it left in bit memory are the payload's bits, RLEN of them. -/
theorem execPack_ok (hp : s.params.ok = true) (h : execPack s = .next t) (hc : t.code = .ok) :
    t.params = s.params ∧ s.plen.toNat ≤ s.params.pmemSize ∧ t.rlen.toNat = 8 * s.plen.toNat ∧
      ∃ bytes, readRun .pm s.params.pmemSize s.pm 0 s.plen.toNat = .ok bytes ∧
        readRun .bm s.params.bitmemBits t.bm 0 (8 * s.plen.toNat) = .ok (bytesToBits bytes) := by
  rcases execPack_next.mp h with ⟨-, rfl⟩ | ⟨hle, bytes, hr, bm, hw, rfl⟩
  · cases hc
  · have hfits : 8 * s.plen.toNat ≤ s.params.bitmemBits := Nat.mul_le_mul_left 8 hle
    have hbits : (bytesToBits bytes).length = 8 * s.plen.toNat := by rw [bytesToBits_length, (readRun_ok.mp hr).1]
    have hback := readRun_writeRun hw (hbits.trans_le hfits)
    exact ⟨rfl, hle, bitCount_toNat hp hfits, bytes, hr, hbits ▸ hback⟩

/-- What an OK UNPACK read are whole groups of bits, and what it left in payload memory are their bytes, RLEN of
them. -/
theorem execUnpack_ok (hp : s.params.ok = true) (h : execUnpack s = .next t) (hc : t.code = .ok) :
    t.params = s.params ∧ s.nbits.toNat / 8 ≤ s.params.pmemSize ∧ t.rlen.toNat = s.nbits.toNat / 8 ∧
      ∃ bits, readRun .bm s.params.bitmemBits s.bm 0 (8 * (s.nbits.toNat / 8)) = .ok bits ∧
        readRun .pm s.params.pmemSize t.pm 0 (s.nbits.toNat / 8) = .ok (bitsToBytes bits) := by
  rcases execUnpack_next.mp h with ⟨-, rfl⟩ | ⟨hle, bits, hr, pm, hw, rfl⟩
  · cases hc
  · have hfits : s.nbits.toNat / 8 ≤ s.params.pmemSize := Nat.div_le_of_le_mul hle
    have hbytes : (bitsToBytes bits).length = s.nbits.toNat / 8 := by
      rw [bitsToBytes_length, (readRun_ok.mp hr).1, Nat.mul_div_cancel_left _ (by decide)]
    have hback := readRun_writeRun hw (hbytes.trans_le hfits)
    exact ⟨rfl, hfits, bitCount_toNat hp ((Nat.div_le_self _ 8).trans hle), bits, hr, hbytes ▸ hback⟩

/-- UNPACK of the bits PACK left, whatever payload memory holds by then. -/
theorem execUnpack_execPack (m : Memory Byte) (hp : s.params.ok = true) (h : execPack s = .next t)
    (hc : t.code = .ok) :
    ∃ u, execUnpack ((t.withNbits t.rlen).withPm m) = .next u ∧ u.code = .ok ∧ u.rlen = s.plen ∧
      ∀ k, k < s.plen.toNat → u.pm.cell k = s.pm.cell k := by
  obtain ⟨hparams, hle, hrlen, bytes, hr, hback⟩ := execPack_ok hp h hc
  rw [← hparams] at hle hback
  have hgroups : t.rlen.toNat / 8 = s.plen.toNat := by omega
  have hfits : t.rlen.toNat ≤ t.params.bitmemBits := hrlen.trans_le (Nat.mul_le_mul_left 8 hle)
  obtain ⟨pm, hw, hexec⟩ := execUnpack_of_readRun (s := (t.withNbits t.rlen).withPm m) hgroups hfits hback
  rw [bitsToBytes_bytesToBits] at hw
  refine ⟨_, hexec, rfl, by simp, fun k hk => ?_⟩
  exact (writeRun_cell_of_lt hw (hk.trans_eq (readRun_ok.mp hr).1.symm)).trans (readRun_cell hr hk).symm

/-- PACK of the bytes UNPACK left, whatever bit memory holds by then: the bits of whole groups come back whole. -/
theorem execPack_execUnpack (m : Memory Bit) (hp : s.params.ok = true) (h : execUnpack s = .next t)
    (hc : t.code = .ok) :
    ∃ u, execPack ((t.withPlen t.rlen).withBm m) = .next u ∧ u.code = .ok ∧
      u.rlen.toNat = 8 * (s.nbits.toNat / 8) ∧
      ∀ j, j < 8 * (s.nbits.toNat / 8) → u.bm.cell j = s.bm.cell j := by
  obtain ⟨hparams, hle, hrlen, bits, hr, hback⟩ := execUnpack_ok hp h hc
  rw [← hparams] at hp hle hback
  have hlen := (readRun_ok.mp hr).1
  have hwhole : bytesToBits (bitsToBytes bits) = bits := by
    rw [bytesToBits_bitsToBytes, List.take_of_length_le (by omega)]
  obtain ⟨bm, hw, hexec⟩ := execPack_of_readRun (s := (t.withPlen t.rlen).withBm m) hrlen hle hback
  rw [hwhole] at hw
  refine ⟨_, hexec, rfl, bitCount_toNat hp (Nat.mul_le_mul_left 8 hle), fun j hj => ?_⟩
  exact (writeRun_cell_of_lt hw (hj.trans_eq hlen.symm)).trans (readRun_cell hr hj).symm

/-- Settles O28: each command reads back the run the other one wrote. -/
theorem packAndUnpackRoundTrip : Obligations.PackAndUnpackRoundTrip := by
  unfold Obligations.PackAndUnpackRoundTrip
  exact ⟨fun s t m hp h hc => execUnpack_execPack m hp h hc, fun s t m hp h hc => execPack_execUnpack m hp h hc⟩

/-! ### A command run twice (40_bit_packer.md R105; 41_channel_reader_writer.md R132; 42_length_header.md R156;
43_embed_extract.md R175)

The first run changes none of the second run's operands, except where it wrote the very values the second one writes; the
two states are then compared field by field (Laws/State.lean). -/

theorem execCapacity_again (h : execCapacity s = .next t) : execCapacity t = .next t := by
  rw [execCapacity_eq] at h
  cases h
  simp [execCapacity_eq, State.pixelCount, State.ext_iff]

theorem execValidate_again (h : execValidate s = .next t) : execValidate t = .next t := by
  cases h
  rfl

theorem execPack_again (hs : s.Inv) (h : execPack s = .next t) : execPack t = .next t := by
  rcases execPack_next.mp h with ⟨hlt, rfl⟩ | ⟨hle, bytes, hr, bm, hw, rfl⟩
  · exact execPack_next.mpr (.inl ⟨hlt, rfl⟩)
  · obtain ⟨hwf, hbelow⟩ := hs.bm_ok
    refine execPack_next.mpr (.inr ⟨hle, bytes, hr, bm, writeRun_again hwf hbelow hw, ?_⟩)
    simp [State.ext_iff]

theorem execUnpack_again (hs : s.Inv) (h : execUnpack s = .next t) : execUnpack t = .next t := by
  rcases execUnpack_next.mp h with ⟨hlt, rfl⟩ | ⟨hle, bits, hr, pm, hw, rfl⟩
  · exact execUnpack_next.mpr (.inl ⟨hlt, rfl⟩)
  · obtain ⟨hwf, hbelow⟩ := hs.pm_ok
    refine execUnpack_next.mpr (.inr ⟨hle, bits, hr, pm, writeRun_again hwf hbelow hw, ?_⟩)
    simp [State.ext_iff]

theorem execLsbWrite_again (hs : s.Inv) (h : execLsbWrite s = .next t) : execLsbWrite t = .next t := by
  have hwf := (execLsbWrite_inv hs h).ch_ok.1
  rcases execLsbWrite_next.mp h with ⟨hlt, rfl⟩ | ⟨hg, hi, rfl⟩ | ⟨hg, hi, b, hb, rfl⟩
  · exact execLsbWrite_next.mpr (.inl ⟨hlt, rfl⟩)
  · exact execLsbWrite_next.mpr (.inr (.inl ⟨hg, hi, rfl⟩))
  · have hcell := s.ch.cell_put_same s.idx.toNat (setlsb b s.bitio)
    have hput : (s.ch.put _ _).put _ _ = s.ch.put _ _ := Memory.put_same _ _ _ hwf hcell
    refine execLsbWrite_next.mpr (.inr (.inr ⟨hg, hi, _, hcell, ?_⟩))
    simp [State.ext_iff, hput]

theorem execLsbRead_again (h : execLsbRead s = .next t) : execLsbRead t = .next t := by
  rcases execLsbRead_next.mp h with ⟨hlt, rfl⟩ | ⟨hg, hi, rfl⟩ | ⟨hg, hi, b, hb, rfl⟩
  · exact execLsbRead_next.mpr (.inl ⟨hlt, rfl⟩)
  · exact execLsbRead_next.mpr (.inr (.inl ⟨hg, hi, rfl⟩))
  · refine execLsbRead_next.mpr (.inr (.inr ⟨hg, hi, b, hb, ?_⟩))
    simp [State.ext_iff]

theorem execHdrEncode_again (hs : s.Inv) (h : execHdrEncode s = .next t) : execHdrEncode t = .next t := by
  obtain ⟨hwf, hbelow⟩ := (execHdrEncode_inv hs h).ch_ok
  rcases execHdrEncode_next.mp h with ⟨hlt, rfl⟩ | ⟨hg, hL, rfl⟩ | ⟨hg, hL, ch, hch, rfl⟩
  · exact execHdrEncode_next.mpr (.inl ⟨hlt, rfl⟩)
  · exact execHdrEncode_next.mpr (.inr (.inl ⟨hg, hL, rfl⟩))
  · have hagain := writeLsbs_again hch hwf hbelow fun _ _ _ => rfl
    refine execHdrEncode_next.mpr (.inr (.inr ⟨hg, hL, ch, hagain, ?_⟩))
    simp [State.ext_iff]

theorem execHdrDecode_again (h : execHdrDecode s = .next t) : execHdrDecode t = .next t := by
  rcases execHdrDecode_next.mp h with ⟨hlt, rfl⟩ | ⟨hg, hL, rfl⟩ | ⟨hg, hL, hfull, n, hn, c, hc, rfl⟩
  · exact execHdrDecode_next.mpr (.inl ⟨hlt, rfl⟩)
  · refine execHdrDecode_next.mpr (.inr (.inl ⟨hg, hL, ?_⟩))
    simp [State.ext_iff]
  · refine execHdrDecode_next.mpr (.inr (.inr ⟨hg, hL, hfull, n, hn, c, hc, ?_⟩))
    simp [State.ext_iff]

/-- The second header write finds the header it would write, for the payload was written past it. -/
theorem execEmbed_again (hs : s.Inv) (h : execEmbed s = .next t) : execEmbed t = .next t := by
  obtain ⟨hwf, hbelow⟩ := (execEmbed_inv hs h).ch_ok
  rcases execEmbed_next.mp h with ⟨hlt, rfl⟩ | ⟨hg, hL, rfl⟩ | ⟨hg, hL, payload, hr, ch, hch, ch', hch', rfl⟩
  · exact execEmbed_next.mpr (.inl ⟨hlt, rfl⟩)
  · exact execEmbed_next.mpr (.inr (.inl ⟨hg, hL, rfl⟩))
  · have hheader := writeLsbs_again hch hwf hbelow fun i _ hi => (writeLsbs_cell hch' i).1 (.inl (by simpa using hi))
    have hpayload := writeLsbs_again hch' hwf hbelow fun _ _ _ => rfl
    refine execEmbed_next.mpr (.inr (.inr ⟨hg, hL, payload, hr, ch', hheader, ch', hpayload, ?_⟩))
    simp [State.ext_iff]

theorem execExtract_again (hs : s.Inv) (h : execExtract s = .next t) : execExtract t = .next t := by
  rcases execExtract_next.mp h with ⟨hlt, rfl⟩ | ⟨hg, hL, rfl⟩ | ⟨hg, hL, hfull, n, hn, hpl, rfl⟩ |
    ⟨hg, hL, hfull, n, hn, hpl, hfull', pm, hw, rfl⟩
  · exact execExtract_next.mpr (.inl ⟨hlt, rfl⟩)
  · refine execExtract_next.mpr (.inr (.inl ⟨hg, hL, ?_⟩))
    simp [State.ext_iff]
  · refine execExtract_next.mpr (.inr (.inr (.inl ⟨hg, hL, hfull, n, hn, hpl, ?_⟩)))
    simp [State.ext_iff]
  · obtain ⟨hwf, hbelow⟩ := hs.pm_ok
    have hagain := writeRun_again hwf hbelow hw
    refine execExtract_next.mpr (.inr (.inr (.inr ⟨hg, hL, hfull, n, hn, hpl, hfull', pm, hagain, ?_⟩)))
    simp [State.ext_iff]

/-- Settles O11, command by command. -/
theorem repeatingACommandChangesNothing : Obligations.RepeatingACommandChangesNothing := by
  unfold Obligations.RepeatingACommandChangesNothing
  intro i s t hs h
  cases i with
  | capacity => exact execCapacity_again h
  | validate => exact execValidate_again h
  | pack => exact execPack_again hs h
  | unpack => exact execUnpack_again hs h
  | lsbWrite => exact execLsbWrite_again hs h
  | lsbRead => exact execLsbRead_again h
  | hdrEncode => exact execHdrEncode_again hs h
  | hdrDecode => exact execHdrDecode_again h
  | embed => exact execEmbed_again hs h
  | extract => exact execExtract_again hs h

end Sys2Proof.Machine
end

section
/-! PROOFS. The family of 41_channel_reader_writer.md: LSB_WRITE (O31), LSB_READ (O32), and reading after writing (O33). -/

namespace Sys2Proof.Machine

variable {s t : State}

/-- LSB_WRITE past both checks, on a cell that holds `b` (41_channel_reader_writer.md R131). -/
theorem execLsbWrite_of_cell {b : Byte} (hg : s.streamLen ≤ s.params.chmemSize) (hi : s.idx.toNat < s.streamLen)
    (hb : s.ch.cell s.idx.toNat = some b) :
    execLsbWrite s = .next ((s.withCh (s.ch.put s.idx.toNat (setlsb b s.bitio))).finished .ok) :=
  execLsbWrite_next.mpr (.inr (.inr ⟨hg, hi, b, hb, rfl⟩))

/-- LSB_READ past both checks, on a cell that holds `b` (41_channel_reader_writer.md R134). -/
theorem execLsbRead_of_cell {b : Byte} (hg : s.streamLen ≤ s.params.chmemSize) (hi : s.idx.toNat < s.streamLen)
    (hb : s.ch.cell s.idx.toNat = some b) : execLsbRead s = .next ((s.withBitio (lsb b)).finished .ok) :=
  execLsbRead_next.mpr (.inr (.inr ⟨hg, hi, b, hb, rfl⟩))

/-- Settles O31: the element becomes `setlsb` of what it held, by the one cell that is put. -/
theorem lsbWriteReplacesOneLsb : Obligations.LsbWriteReplacesOneLsb := by
  unfold Obligations.LsbWriteReplacesOneLsb
  refine ⟨decode_encode .lsbWrite, ?_⟩
  rintro s _ rfl
  refine ⟨fun hlt => ?_, fun hg hle => ?_, fun hg hi => ⟨fun b hb => ?_, fun hnone => ?_⟩⟩
  · exact execLsbWrite_next.mpr (.inl ⟨hlt, rfl⟩)
  · exact execLsbWrite_next.mpr (.inr (.inl ⟨hg, hle, rfl⟩))
  · refine ⟨_, setlsb b s.bitio, execLsbWrite_of_cell hg hi hb, rfl, s.ch.cell_put_same _ _, setlsb_eq _ _,
      setlsb_getLsbD _ _, setlsb_upper _ _, fun j hj => ?_⟩
    exact s.ch.cell_put_other _ _ _ hj
  · exact execLsbWrite_fault.mpr ⟨hg, hi, hnone, rfl⟩

/-- Settles O32: past both checks LSB_READ is one read of a cell, which answers or faults. -/
theorem lsbReadReturnsTheLsb : Obligations.LsbReadReturnsTheLsb := by
  unfold Obligations.LsbReadReturnsTheLsb
  refine ⟨decode_encode .lsbRead, ?_⟩
  rintro s _ rfl
  refine ⟨fun hlt => ?_, fun hg hle => ?_, fun hg hi => ⟨fun b hb => ?_, fun hnone => ?_⟩⟩
  · exact execLsbRead_next.mpr (.inl ⟨hlt, rfl⟩)
  · exact execLsbRead_next.mpr (.inr (.inl ⟨hg, hle, rfl⟩))
  · exact execLsbRead_of_cell hg hi hb
  · exact execLsbRead_fault.mpr ⟨hg, hi, hnone, rfl⟩

/-- After an OK LSB_WRITE the same IDX still passes both checks, and its element carries BITIO.BIT. -/
theorem execLsbWrite_ok (h : execLsbWrite s = .next t) (hc : t.code = .ok) :
    t.streamLen ≤ t.params.chmemSize ∧ t.idx.toNat < t.streamLen ∧
      ∃ b, t.ch.cell t.idx.toNat = some b ∧ lsb b = s.bitio := by
  rcases execLsbWrite_next.mp h with ⟨-, rfl⟩ | ⟨-, -, rfl⟩ | ⟨hg, hi, b, -, rfl⟩
  · cases hc
  · cases hc
  · exact ⟨hg, hi, _, s.ch.cell_put_same _ _, lsb_setlsb _ _⟩

/-- LSB_READ of the element just written, whatever BITIO holds by then (41_channel_reader_writer.md R136). -/
theorem execLsbRead_execLsbWrite (x : Bit) (h : execLsbWrite s = .next t) (hc : t.code = .ok) :
    ∃ u, execLsbRead (t.withBitio x) = .next u ∧ u.code = .ok ∧ u.bitio = s.bitio := by
  obtain ⟨hg, hi, b, hb, hbit⟩ := execLsbWrite_ok h hc
  exact ⟨_, execLsbRead_of_cell (s := t.withBitio x) hg hi hb, rfl, hbit⟩

/-- LSB_WRITE of another bit into the element just written finishes OK (41_channel_reader_writer.md R132). -/
theorem execLsbWrite_execLsbWrite (x : Bit) (h : execLsbWrite s = .next t) (hc : t.code = .ok) :
    ∃ u, execLsbWrite (t.withBitio x) = .next u ∧ u.code = .ok := by
  obtain ⟨hg, hi, b, hb, -⟩ := execLsbWrite_ok h hc
  exact ⟨_, execLsbWrite_of_cell (s := t.withBitio x) hg hi hb, rfl⟩

/-- Settles O33: the second write is an OK write too, so the read after it returns its bit as the first read does. -/
theorem lsbReadAfterWriteReturnsTheBit : Obligations.LsbReadAfterWriteReturnsTheBit := by
  unfold Obligations.LsbReadAfterWriteReturnsTheBit
  intro s t x y h hc
  obtain ⟨u, hu, huc⟩ := execLsbWrite_execLsbWrite x h hc
  obtain ⟨v, hv, hvc, hbit⟩ := execLsbRead_execLsbWrite y hu huc
  exact ⟨execLsbRead_execLsbWrite x h hc, u, v, hu, huc, hv, hvc, hbit⟩

end Sys2Proof.Machine
end

section
/-! PROOFS. The family of 42_length_header.md: HDR_ENCODE (O34), HDR_DECODE (O35), and decoding after encoding (O36). -/

namespace Sys2Proof.Machine

variable {s t : State} {size n i : Nat} {m m' : Memory Byte}

/-! ### The header written from cell 0 (42_length_header.md R150, R152) -/

/-- Element `i` of a written header held a byte before, and now carries bit `31 - i` of the value in its LSB. -/
theorem writeHeader_cell_of_lt (h : writeLsbs size m 0 (hdrBits n) = .ok m') (hi : i < 32) :
    ∃ b, m.cell i = some b ∧ m'.cell i = some (setlsb b (n.testBit (31 - i))) := by
  obtain ⟨-, b, u, hb, hu, hb'⟩ := (writeLsbs_cell h i).2 i (Nat.zero_add i).symm (by simpa using hi)
  obtain rfl : n.testBit (31 - i) = u := by simpa [hdrBits_getElem? n i hi] using hu
  exact ⟨b, hb, hb'⟩

theorem writeHeader_cell_of_le (h : writeLsbs size m 0 (hdrBits n) = .ok m') (hi : 32 ≤ i) : m'.cell i = m.cell i :=
  (writeLsbs_cell h i).1 (.inr (by simpa using hi))

theorem writeHeader_of_isSome (n : Nat) (hle : 32 ≤ size) (hfull : ∀ i, i < 32 → (m.cell i).isSome = true) :
    ∃ m', writeLsbs size m 0 (hdrBits n) = .ok m' := by
  refine (writeLsbs_total (by simpa using hle)).mpr ?_
  simpa [Memory.holds_iff_isSome] using hfull

theorem writeHeader_of_empty (n : Nat) (hle : 32 ≤ size) (hempty : ∃ i, i < 32 ∧ m.cell i = none) :
    ∃ i, i < 32 ∧ m.cell i = none ∧ writeLsbs size m 0 (hdrBits n) = .error (.uninitRead .ch i) := by
  simpa using writeLsbs_empty (size := size) (m := m) (a := 0) (B := hdrBits n) (by simpa using hle)
    (by simpa using hempty)

/-- Settles O34: past both checks HDR_ENCODE is one write of the header, which lands or faults. -/
theorem hdrEncodeWritesTheHeaderBits : Obligations.HdrEncodeWritesTheHeaderBits := by
  unfold Obligations.HdrEncodeWritesTheHeaderBits
  refine ⟨decode_encode .hdrEncode, ?_⟩
  rintro s _ rfl
  refine ⟨fun hlt => ?_, fun hg hlt => ?_, fun hg hL hfull => ?_, fun hg hL hempty => ?_⟩
  · exact execHdrEncode_next.mpr (.inl ⟨hlt, rfl⟩)
  · exact execHdrEncode_next.mpr (.inr (.inl ⟨hg, hlt, rfl⟩))
  · obtain ⟨ch, hch⟩ := writeHeader_of_isSome s.hdrval.toNat (hL.trans hg) hfull
    refine ⟨_, execHdrEncode_next.mpr (.inr (.inr ⟨hg, hL, ch, hch, rfl⟩)), rfl, fun i b hi hb => ?_,
      fun i hi => writeHeader_cell_of_le hch hi⟩
    obtain ⟨c, hc, hc'⟩ := writeHeader_cell_of_lt hch hi
    obtain rfl : b = c := Option.some.inj (hb.symm.trans hc)
    exact ⟨_, hc', setlsb_getLsbD _ _, setlsb_upper _ _⟩
  · obtain ⟨i, hi, hnone, hw⟩ := writeHeader_of_empty s.hdrval.toNat (hL.trans hg) hempty
    exact ⟨i, hi, hnone, execHdrEncode_fault.mpr ⟨hg, hL, hw⟩⟩

/-! ### The header read and judged (42_length_header.md R154, R155) -/

/-- HDR_DECODE past both checks, on a header that is `n` and is judged `c`. -/
theorem execHdrDecode_of_header {c : Code} (hg : s.streamLen ≤ s.params.chmemSize) (hL : 32 ≤ s.streamLen)
    (hfull : s.ch.holds 0 32 = true) (hn : s.header = n)
    (hc : c = if plausible n s.streamLen then .ok else .noMessage) :
    execHdrDecode s = .next ((s.withHdrval (BitVec.ofNat 32 n)).finished c) :=
  execHdrDecode_next.mpr (.inr (.inr ⟨hg, hL, hfull, n, hn, c, hc, rfl⟩))

theorem readHeader_of_empty (hle : 32 ≤ size) (hempty : ∃ i, i < 32 ∧ m.cell i = none) :
    ∃ i, i < 32 ∧ m.cell i = none ∧ readLsbs size m 0 32 = .error (.uninitRead .ch i) := by
  simpa using readLsbs_empty (size := size) (m := m) (a := 0) (by simpa using hle) (by simpa using hempty)

/-- Settles O35: past both checks HDR_DECODE is one read of the header, which is judged or faults. -/
theorem hdrDecodeReadsAndJudgesTheHeader : Obligations.HdrDecodeReadsAndJudgesTheHeader := by
  unfold Obligations.HdrDecodeReadsAndJudgesTheHeader
  refine ⟨decode_encode .hdrDecode, ?_⟩
  rintro s _ rfl
  refine ⟨fun hlt => ?_, fun hg hlt => ?_, fun n hg hL hn hbits => ?_, fun hg hL hempty => ?_⟩
  · exact execHdrDecode_next.mpr (.inl ⟨hlt, rfl⟩)
  · exact execHdrDecode_next.mpr (.inr (.inl ⟨hg, hlt, rfl⟩))
  · obtain ⟨hfull, hheader⟩ := header_of_bits s n hn hbits
    refine ⟨fun hne hle => ?_, fun hbad => ?_⟩
    · have hplausible : plausible n s.streamLen = true := plausible_iff.mpr ⟨hne, hle⟩
      exact execHdrDecode_of_header hg hL hfull hheader (if_pos hplausible).symm
    · have himplausible : ¬ plausible n s.streamLen = true :=
        mt plausible_iff.mp fun ⟨hne, hle⟩ => hbad.elim hne (Int.not_lt.mpr hle)
      exact execHdrDecode_of_header hg hL hfull hheader (if_neg himplausible).symm
  · obtain ⟨i, hi, hnone, hr⟩ := readHeader_of_empty (hL.trans hg) hempty
    exact ⟨i, hi, hnone, execHdrDecode_fault.mpr ⟨hg, hL, hr⟩⟩

/-! ### Decoding after encoding (42_length_header.md R156) -/

/-- After an OK HDR_ENCODE the geometry still passes both checks, and the header in place is HDRVAL. -/
theorem execHdrEncode_ok (h : execHdrEncode s = .next t) (hc : t.code = .ok) :
    t.streamLen = s.streamLen ∧ t.streamLen ≤ t.params.chmemSize ∧ 32 ≤ t.streamLen ∧
      t.ch.holds 0 32 = true ∧ t.header = s.hdrval.toNat := by
  rcases execHdrEncode_next.mp h with ⟨-, rfl⟩ | ⟨-, -, rfl⟩ | ⟨hg, hL, ch, hch, rfl⟩
  · cases hc
  · cases hc
  · refine ⟨rfl, hg, hL, header_of_bits _ _ s.hdrval.isLt fun i hi => ?_⟩
    obtain ⟨b, -, hb⟩ := writeHeader_cell_of_lt hch hi
    exact (congrArg (Option.map lsb) hb).trans (congrArg some (lsb_setlsb _ _))

/-- The plausibility of a register's value, without integers (42_length_header.md R154). -/
theorem plausible_toNat_iff (v : Word) (L : Nat) : plausible v.toNat L = true ↔ v ≠ 0#32 ∧ v.toNat + 32 ≤ L := by
  have hzero : v.toNat ≠ 0 ↔ v ≠ 0#32 := BitVec.toNat_ne_iff_ne (y := 0#32)
  have hfits : (v.toNat : Int) ≤ (L : Int) - 32 ↔ v.toNat + 32 ≤ L := by omega
  rw [plausible_iff, hzero, hfits]

/-- Settles O36: HDR_DECODE finds the header that HDR_ENCODE left. -/
theorem hdrDecodeAfterEncodeReturnsTheValue : Obligations.HdrDecodeAfterEncodeReturnsTheValue := by
  unfold Obligations.HdrDecodeAfterEncodeReturnsTheValue
  intro s t x h hc
  obtain ⟨hlen, hg, hL, hfull, hheader⟩ := execHdrEncode_ok h hc
  refine ⟨_, execHdrDecode_of_header (s := t.withHdrval x) hg hL hfull hheader rfl, by simp, ?_⟩
  exact if_congr (hlen ▸ plausible_toNat_iff s.hdrval s.streamLen) rfl rfl

end Sys2Proof.Machine
end

section
/-! PROOFS. The family of 43_embed_extract.md: EMBED (O37) and the empty payload (O38), EXTRACT (O39), extracting after
embedding (O40), and EXTRACT on a written carrier (O41). -/

namespace Sys2Proof.Machine

variable {s t : State} {n L : Nat} {P : List Byte}

/-! ### Runs of cells, full or not -/

theorem Memory.isSome_or_exists_empty {α : Type} (m : Memory α) (n : Nat) :
    (∀ i, i < n → (m.cell i).isSome = true) ∨ ∃ i, i < n ∧ m.cell i = none := by
  by_cases h : ∃ i, i < n ∧ m.cell i = none
  · exact .inr h
  · exact .inl fun i hi => Option.isSome_iff_ne_none.mpr fun hnone => h ⟨i, hi, hnone⟩

theorem Memory.lsbs_getElem?_of_holds {m : Memory Byte} {a i : Nat} (h : m.holds a n = true) (hi : i < n) :
    (m.lsbs a n)[i]? = (m.cell (a + i)).map lsb := by
  obtain ⟨b, hb⟩ := Option.isSome_iff_exists.mp ((Memory.holds_iff_isSome _ _ _).mp h i hi)
  rw [Memory.lsbs_getElem? m a n i b hi hb, hb, Option.map_some]

theorem holds_of_writeLsbs {size a : Nat} {m m' : Memory Byte} {B : List Bit} (h : writeLsbs size m a B = .ok m') :
    m'.holds a B.length = true := by
  refine (Memory.holds_iff_isSome _ _ _).mpr fun i hi => ?_
  obtain ⟨-, b, u, -, -, hcell⟩ := (writeLsbs_cell h (a + i)).2 i rfl hi
  rw [hcell, Option.isSome_some]

/-! ### Counts that fit (00_scope.md R9) -/

/-- A payload whose bits fit the stream past the header fits payload memory. -/
theorem payload_le_pmemSize (hp : s.params.ok = true) (hg : s.streamLen ≤ s.params.chmemSize)
    (hL : 8 * n + 32 ≤ s.streamLen) : n ≤ s.params.pmemSize := by
  obtain ⟨-, -, hpm, -⟩ := Params.ok_iff.mp hp
  omega

/-- A number of stream elements fits the 32-bit header (43_embed_extract.md R170). -/
theorem lt_two_pow_of_lt_streamLen (hp : s.params.ok = true) (hg : s.streamLen ≤ s.params.chmemSize)
    (hn : n < s.streamLen) : n < 2 ^ 32 := by
  obtain ⟨-, hch, -, -⟩ := Params.ok_iff.mp hp
  omega

theorem plausible_eq_false_iff : plausible n L = false ↔ n = 0 ∨ (n : Int) > (L : Int) - 32 := by
  rw [← Bool.not_eq_true, plausible_iff, not_and_or, not_not, Int.not_le]

/-! ### EMBED (43_embed_extract.md R170) -/

theorem payloadBits_length {payload : List Byte}
    (h : readRun .pm s.params.pmemSize s.pm 0 s.plen.toNat = .ok payload) :
    (bytesToBits payload).length = 8 * s.plen.toNat := by
  obtain ⟨hlen, -⟩ := readRun_ok.mp h
  rw [bytesToBits_length, hlen]

/-- EMBED past both checks with its cells in place: the payload is read and both writes land. The header's write empties
no cell past the header, so the payload's write finds its cells in place too. -/
theorem execEmbed_of_isSome (hp : s.params.ok = true) (hg : s.streamLen ≤ s.params.chmemSize)
    (hL : 8 * s.plen.toNat + 32 ≤ s.streamLen) (hpm : ∀ k, k < s.plen.toNat → (s.pm.cell k).isSome = true)
    (hch : ∀ i, i < 32 + 8 * s.plen.toNat → (s.ch.cell i).isSome = true) :
    ∃ payload ch ch', readRun .pm s.params.pmemSize s.pm 0 s.plen.toNat = .ok payload ∧
      writeLsbs s.params.chmemSize s.ch 0 (hdrBits (8 * s.plen.toNat)) = .ok ch ∧
      writeLsbs s.params.chmemSize ch 32 (bytesToBits payload) = .ok ch' ∧
      execEmbed s = .next ((s.withCh ch').finished .ok) := by
  obtain ⟨payload, hr⟩ := readRun_of_isSome .pm (payload_le_pmemSize hp hg hL) hpm
  obtain ⟨ch, hw⟩ := writeHeader_of_isSome (size := s.params.chmemSize) (8 * s.plen.toNat) (by omega)
    fun i hi => hch i (by omega)
  have hlen := payloadBits_length hr
  have hfull : ch.holds 32 (bytesToBits payload).length = true := by
    refine (Memory.holds_iff_isSome _ _ _).mpr fun i hi => ?_
    rw [writeHeader_cell_of_le hw (Nat.le_add_right 32 i)]
    exact hch _ (by omega)
  obtain ⟨ch', hw'⟩ := (writeLsbs_total ((payloadBits_le hL hr).trans hg)).mpr hfull
  exact ⟨payload, ch, ch', hr, hw, hw', execEmbed_next.mpr (.inr (.inr ⟨hg, hL, payload, hr, ch, hw, ch', hw', rfl⟩))⟩

/-- EMBED past both checks with a payload in place faults on an empty cell of the carrier: one of the header's, or else
one of the payload's, which the header's write left empty. -/
theorem execEmbed_of_empty_carrier (hp : s.params.ok = true) (hg : s.streamLen ≤ s.params.chmemSize)
    (hL : 8 * s.plen.toNat + 32 ≤ s.streamLen) (hpm : ∀ k, k < s.plen.toNat → (s.pm.cell k).isSome = true)
    (hch : ∃ i, i < 32 + 8 * s.plen.toNat ∧ s.ch.cell i = none) :
    ∃ i, i < 32 + 8 * s.plen.toNat ∧ s.ch.cell i = none ∧ execEmbed s = .fault (.uninitRead .ch i) := by
  obtain ⟨payload, hr⟩ := readRun_of_isSome .pm (payload_le_pmemSize hp hg hL) hpm
  rcases s.ch.isSome_or_exists_empty 32 with hheader | hheader
  · obtain ⟨ch, hw⟩ := writeHeader_of_isSome (size := s.params.chmemSize) (8 * s.plen.toNat) (by omega) hheader
    have hlen := payloadBits_length hr
    have hempty : ∃ k, k < (bytesToBits payload).length ∧ ch.cell (32 + k) = none := by
      obtain ⟨i, hi, hnone⟩ := hch
      have h32 : 32 ≤ i := Nat.not_lt.mp fun hlt => by simpa [hnone] using hheader i hlt
      refine ⟨i - 32, by omega, ?_⟩
      rw [Nat.add_sub_cancel' h32, writeHeader_cell_of_le hw h32, hnone]
    obtain ⟨k, hk, hnone, hw'⟩ := writeLsbs_empty ((payloadBits_le hL hr).trans hg) hempty
    rw [writeHeader_cell_of_le hw (Nat.le_add_right 32 k)] at hnone
    exact ⟨32 + k, by omega, hnone, execEmbed_fault.mpr ⟨hg, hL, .inr ⟨payload, hr, .inr ⟨ch, hw, hw'⟩⟩⟩⟩
  · obtain ⟨i, hi, hnone, hw⟩ :=
      writeHeader_of_empty (size := s.params.chmemSize) (8 * s.plen.toNat) (by omega) hheader
    exact ⟨i, by omega, hnone, execEmbed_fault.mpr ⟨hg, hL, .inr ⟨payload, hr, .inl hw⟩⟩⟩

/-- Settles O37: past both checks EMBED is a read of the payload and two writes of LSBs, and `embed_cells` says what they
leave; the first access that meets an empty cell faults. -/
theorem embedWritesHeaderAndPayload : Obligations.EmbedWritesHeaderAndPayload := by
  unfold Obligations.EmbedWritesHeaderAndPayload
  refine ⟨decode_encode .embed, ?_⟩
  rintro s _ rfl hp
  have hfits : (8 * s.plen.toNat : Int) ≤ (s.streamLen : Int) - 32 ↔ 8 * s.plen.toNat + 32 ≤ s.streamLen := by omega
  refine ⟨fun hlt => ?_, fun hg hlt => ?_, fun hg hle hpm hch => ?_, fun hg hle hempty => ?_⟩
  · exact execEmbed_next.mpr (.inl ⟨hlt, rfl⟩)
  · exact execEmbed_next.mpr (.inr (.inl ⟨hg, Nat.not_le.mp (mt hfits.mpr (Int.not_le.mpr hlt)), rfl⟩))
  · obtain ⟨payload, ch, ch', hr, hw, hw', hexec⟩ := execEmbed_of_isSome hp hg (hfits.mp hle) hpm hch
    obtain ⟨hheader, hpayload, hrest, -⟩ := embed_cells hr hw hw'
    exact ⟨_, hexec, rfl, fun i b hi hb => ⟨_, hheader i b hi hb, setlsb_getLsbD _ _, setlsb_upper _ _⟩,
      fun k j p b hk hj hpk hb => ⟨_, hpayload k j p b hk hj hpk hb, setlsb_getLsbD _ _, setlsb_upper _ _⟩, hrest⟩
  · have hL := hfits.mp hle
    rcases s.pm.isSome_or_exists_empty s.plen.toNat with hpm | hpm
    · refine .inr (execEmbed_of_empty_carrier hp hg hL hpm (hempty.resolve_left ?_))
      rintro ⟨k, hk, hnone⟩
      simpa [hnone] using hpm k hk
    · obtain ⟨k, hk, hnone, hr⟩ := readRun_of_empty .pm (payload_le_pmemSize hp hg hL) hpm
      exact .inl ⟨k, hk, hnone, execEmbed_fault.mpr ⟨hg, hL, .inl hr⟩⟩

/-! ### EXTRACT (43_embed_extract.md R174) -/

/-- EXTRACT past both checks, on a header that is judged implausible. -/
theorem execExtract_of_implausible (hg : s.streamLen ≤ s.params.chmemSize) (hL : 32 ≤ s.streamLen)
    (hfull : s.ch.holds 0 32 = true) (hn : s.header = n) (hpl : plausible n s.streamLen = false) :
    execExtract s = .next (((s.withHdrval (BitVec.ofNat 32 n)).withRlen 0#32).finished .noMessage) :=
  execExtract_next.mpr (.inr (.inr (.inl ⟨hg, hL, hfull, n, hn, hpl, rfl⟩)))

/-- EXTRACT on a plausible header whose payload elements are in place: the packed bytes fit payload memory. -/
theorem execExtract_of_plausible (hp : s.params.ok = true) (hg : s.streamLen ≤ s.params.chmemSize)
    (hfull : s.ch.holds 0 32 = true) (hn : s.header = n) (hpl : plausible n s.streamLen = true)
    (hpayload : s.ch.holds 32 n = true) :
    ∃ pm, writeRun .pm s.params.pmemSize s.pm 0 (bitsToBytes (s.ch.lsbs 32 n)) = .ok pm ∧
      execExtract s = .next ((((s.withHdrval (BitVec.ofNat 32 n)).withPm pm).withRlen
        (BitVec.ofNat 32 (n / 8))).finished .ok) := by
  have hle := plausible_le hpl
  have hbytes : (bitsToBytes (s.ch.lsbs 32 n)).length ≤ s.params.pmemSize := by
    rw [bitsToBytes_length, Memory.lsbs_length]
    exact payload_le_pmemSize hp hg (by omega)
  obtain ⟨pm, hw⟩ := writeRun_of_le .pm s.pm hbytes
  exact ⟨pm, hw, execExtract_next.mpr
    (.inr (.inr (.inr ⟨hg, by omega, hfull, n, hn, hpl, hpayload, pm, hw, rfl⟩)))⟩

/-- Settles O39: past both checks EXTRACT reads the header, judges it, and on a plausible one reads the payload's bits
and writes their bytes; either read may fault. -/
theorem extractReadsHeaderAndPayload : Obligations.ExtractReadsHeaderAndPayload := by
  unfold Obligations.ExtractReadsHeaderAndPayload
  refine ⟨decode_encode .extract, ?_⟩
  rintro s _ rfl hp
  refine ⟨fun hlt => ?_, fun hg hlt => ?_, fun n hg hL hn hbits => ?_, fun hg hL hempty => ?_⟩
  · exact execExtract_next.mpr (.inl ⟨hlt, rfl⟩)
  · exact execExtract_next.mpr (.inr (.inl ⟨hg, hlt, rfl⟩))
  · obtain ⟨hfull, hheader⟩ := header_of_bits s n hn hbits
    refine ⟨fun hbad => ?_, fun hne hle hcells => ?_, fun hne hle hempty => ?_⟩
    · exact execExtract_of_implausible hg hL hfull hheader (plausible_eq_false_iff.mpr hbad)
    · have hpayload : s.ch.holds 32 n = true := (Memory.holds_iff_isSome _ _ _).mpr hcells
      obtain ⟨pm, hw, hexec⟩ :=
        execExtract_of_plausible hp hg hfull hheader (plausible_iff.mpr ⟨hne, hle⟩) hpayload
      have hbytes : (bitsToBytes (s.ch.lsbs 32 n)).length = n / 8 := by rw [bitsToBytes_length, Memory.lsbs_length]
      refine ⟨_, hexec, rfl, fun k hk => ?_, fun k hk => writeRun_cell_of_le hw (hbytes.trans_le hk)⟩
      have hget := List.getElem?_eq_getElem (hk.trans_eq hbytes.symm)
      refine ⟨_, (writeRun_cell_of_lt hw (hk.trans_eq hbytes.symm)).trans hget, fun j hj => ?_⟩
      rw [Nat.add_assoc]
      exact (Memory.lsbs_getElem?_of_holds hpayload (by omega)).symm.trans (bitsToBytes_bit _ k j _ hget hj)
    · have hpl := plausible_iff.mpr ⟨hne, hle⟩
      obtain ⟨i, hi, hnone, hr⟩ := readLsbs_empty ((plausible_le hpl).trans hg) hempty
      exact ⟨i, hi, hnone, execExtract_fault.mpr ⟨hg, hL, .inr ⟨hfull, n, hheader, hpl, .inl hr⟩⟩⟩
  · obtain ⟨i, hi, hnone, hr⟩ := readHeader_of_empty (hL.trans hg) hempty
    exact ⟨i, hi, hnone, execExtract_fault.mpr ⟨hg, hL, .inl hr⟩⟩

/-- Settles O41: a carrier whose cells all hold values leaves EXTRACT no cell to fault on. -/
theorem extractOnAWrittenCarrierNeverFails : Obligations.ExtractOnAWrittenCarrierNeverFails := by
  unfold Obligations.ExtractOnAWrittenCarrierNeverFails
  intro s hp hg hcells
  have hholds (a n : Nat) (hle : a + n ≤ s.streamLen) : s.ch.holds a n = true :=
    (Memory.holds_iff_isSome _ _ _).mpr fun i hi => hcells _ ((Nat.add_lt_add_left hi a).trans_le hle)
  rcases Nat.lt_or_ge s.streamLen 32 with hlt | hL
  · exact ⟨_, execExtract_next.mpr (.inr (.inl ⟨hg, hlt, rfl⟩)), .inr rfl⟩
  · have hfull := hholds 0 32 (by omega)
    cases hpl : plausible s.header s.streamLen with
    | false => exact ⟨_, execExtract_of_implausible hg hL hfull rfl hpl, .inr rfl⟩
    | true =>
      obtain ⟨pm, -, hexec⟩ := execExtract_of_plausible hp hg hfull rfl hpl (hholds 32 _ (plausible_le hpl))
      exact ⟨_, hexec, .inl rfl⟩

/-! ### A stream that carries a payload (43_embed_extract.md R171, R172, R176) -/

/-- The stream fits channel memory, and its LSBs are the header and the bits of the payload `P`: what an OK EMBED of `P`
leaves and EXTRACT asks for. -/
structure State.Carries (s : State) (P : List Byte) : Prop where
  geometry : s.streamLen ≤ s.params.chmemSize
  fits : 8 * P.length + 32 ≤ s.streamLen
  headerFull : s.ch.holds 0 32 = true
  header : s.header = 8 * P.length
  payloadFull : s.ch.holds 32 (8 * P.length) = true
  payload : s.ch.lsbs 32 (8 * P.length) = bytesToBits P

/-- Payload memory and the results of EXTRACT are no part of the stream. -/
theorem State.Carries.withResults (h : s.Carries P) (m : Memory Byte) (x y : Word) :
    State.Carries { s with pm := m, hdrval := x, rlen := y } P :=
  ⟨h.geometry, h.fits, h.headerFull, h.header, h.payloadFull, h.payload⟩

/-- After an OK EMBED the stream carries the bytes that EMBED read (43_embed_extract.md R171). -/
theorem execEmbed_carries (hp : s.params.ok = true) (h : execEmbed s = .next t) (hc : t.code = .ok) :
    t.params = s.params ∧
      ∃ P, readRun .pm s.params.pmemSize s.pm 0 s.plen.toNat = .ok P ∧ P.length = s.plen.toNat ∧ t.Carries P := by
  rcases execEmbed_next.mp h with ⟨-, rfl⟩ | ⟨-, -, rfl⟩ | ⟨hg, hL, P, hr, ch, hw, ch', hw', rfl⟩
  · cases hc
  · cases hc
  · obtain ⟨hlen, -⟩ := readRun_ok.mp hr
    obtain ⟨hcells, -, -, -⟩ := embed_cells hr hw hw'
    have hfull := holds_of_writeLsbs hw'
    have hbits := lsbs_writeLsbs hw'
    obtain ⟨hheaderFull, hheader⟩ := header_of_bits ((s.withCh ch').finished .ok) (8 * s.plen.toNat)
      (lt_two_pow_of_lt_streamLen hp hg (by omega)) fun i hi => by
        obtain ⟨b, hb, -⟩ := writeHeader_cell_of_lt hw hi
        exact (congrArg (Option.map lsb) (hcells i b hi hb)).trans (congrArg some (lsb_setlsb _ _))
    rw [bytesToBits_length] at hfull hbits
    rw [← hlen] at hL hheader
    exact ⟨rfl, P, hr, hlen, hg, hL, hheaderFull, hheader, hfull, hbits⟩

/-- EXTRACT of a stream that carries no byte finds no message (43_embed_extract.md R172). -/
theorem execExtract_of_carries_nil (h : s.Carries []) :
    execExtract s = .next (((s.withHdrval 0#32).withRlen 0#32).finished .noMessage) :=
  execExtract_of_implausible h.geometry h.fits h.headerFull h.header rfl

/-- EXTRACT of a stream that carries at least one byte writes those bytes (43_embed_extract.md R176): expanding and
packing undo each other. -/
theorem execExtract_of_carries (h : s.Carries P) (hp : s.params.ok = true) (hpos : 1 ≤ P.length) :
    ∃ pm, writeRun .pm s.params.pmemSize s.pm 0 P = .ok pm ∧
      execExtract s = .next ((((s.withHdrval (BitVec.ofNat 32 (8 * P.length))).withPm pm).withRlen
        (BitVec.ofNat 32 P.length)).finished .ok) := by
  have hfits := h.fits
  have hpl : plausible (8 * P.length) s.streamLen = true := plausible_iff.mpr ⟨by omega, by omega⟩
  obtain ⟨pm, hw, hexec⟩ := execExtract_of_plausible hp h.geometry h.headerFull h.header hpl h.payloadFull
  rw [h.payload, bitsToBytes_bytesToBits] at hw
  rw [Nat.mul_div_cancel_left _ (by decide)] at hexec
  exact ⟨pm, hw, hexec⟩

/-- Settles O38: every bit of the header 0 is 0, and the stream then carries the empty payload. -/
theorem emptyPayloadEmbedsAsNoMessage : Obligations.EmptyPayloadEmbedsAsNoMessage := by
  unfold Obligations.EmptyPayloadEmbedsAsNoMessage
  intro s hp hplen hL hg hch
  have hzero : s.plen.toNat = 0 := by rw [hplen]; rfl
  have hL' : 33 ≤ s.streamLen := hL
  obtain ⟨payload, ch, ch', hr, hw, hw', hexec⟩ := execEmbed_of_isSome hp hg (by omega)
    (fun k hk => by omega) fun i hi => hch i (by omega)
  obtain ⟨hheader, -, hrest, -⟩ := embed_cells hr hw hw'
  obtain ⟨-, P, -, hlen, hcarries⟩ := execEmbed_carries hp hexec rfl
  obtain rfl : P = [] := List.eq_nil_of_length_eq_zero (hlen.trans hzero)
  refine ⟨_, _, hexec, rfl, fun i hi => ?_, fun i hi => hrest i (by omega), execExtract_of_carries_nil hcarries, rfl⟩
  obtain ⟨b, hb, -⟩ := writeHeader_cell_of_lt hw hi
  refine (congrArg (Option.map lsb) (hheader i b hi hb)).trans (congrArg some ?_)
  rw [lsb_setlsb, hzero, Nat.mul_zero, Nat.zero_testBit]

/-- Settles O40: EXTRACT writes the bytes that the stream carries, which are those that EMBED read. -/
theorem extractAfterEmbedReturnsThePayload : Obligations.ExtractAfterEmbedReturnsThePayload := by
  unfold Obligations.ExtractAfterEmbedReturnsThePayload
  intro s t m x y hp hpos h hc
  obtain ⟨hparams, P, hr, hlen, hcarries⟩ := execEmbed_carries hp h hc
  have htp : t.params.ok = true := hparams ▸ hp
  have hfits := hcarries.fits
  have hlt := lt_two_pow_of_lt_streamLen htp hcarries.geometry (n := 8 * P.length) (by omega)
  obtain ⟨pm, hw, hexec⟩ := execExtract_of_carries (hcarries.withResults m x y) htp (hpos.trans_eq hlen.symm)
  refine ⟨_, hexec, rfl, ?_, ?_, fun k hk => ?_, fun k hk => writeRun_cell_of_le hw (hlen.trans_le hk)⟩
  · rw [← hlen]
    exact (BitVec.toNat_ofNat _ _).trans (Nat.mod_eq_of_lt hlt)
  · exact BitVec.eq_of_toNat_eq ((BitVec.toNat_ofNat _ _).trans ((Nat.mod_eq_of_lt (by omega)).trans hlen))
  · exact (writeRun_cell_of_lt hw (hk.trans_eq hlen.symm)).trans (readRun_cell hr hk).symm

end Sys2Proof.Machine
end

section
/-! PROOFS. The family of 60_exceptions.md: the block's step (O4), the start of a command (O5), the host's duties (O21),
the checks (O7), completion and STATUS (O6), the cells a command reads (O9), and that a command in flight ends (O12). -/

namespace Sys2Proof.Machine

variable {s t : State} {ms : List Move} {op : HostOp}

/-! ### Who moves (60_exceptions.md R202)

One equation per shape of the list of moves; `step_wait_busy` is the one for a host that waits. -/

theorem step_no_moves (hm : s.moves = []) : step s = blockTurn s := by
  simp only [step, advance, hm]

theorem step_block (hm : s.moves = .block :: ms) : step s = blockTurn (s.withMoves ms) := by
  simp only [step, advance, hm]

theorem step_reset (hm : s.moves = .reset :: ms) : step s = .next (s.withMoves ms).afterReset := by
  simp only [step, advance, hm]

theorem step_hostOp (hm : s.moves = .host op :: ms) (hw : op ≠ .wait) : step s = hostOp op (s.withMoves ms) := by
  simp only [step, advance, hm, hostTurn, hw, false_and, if_false]

/-- Settles O4: on each of the three shapes of the moves the step is the block's turn. -/
theorem stepRunsTheDecodedCommand : Obligations.StepRunsTheDecodedCommand := by
  unfold Obligations.StepRunsTheDecodedCommand
  refine fun s w hc => ⟨fun i hd => ⟨fun hm => ?_, fun ms hm => ?_, fun ms hm hb => ?_⟩,
    fun e hd => ⟨fun hm => ?_, fun ms hm => ?_, fun ms hm hb => ?_⟩⟩
  · exact (step_no_moves hm).trans (blockTurn_ok hc hd)
  · exact (step_block hm).trans (blockTurn_ok (s := s.withMoves ms) hc hd)
  · exact (step_wait_busy hb hm).trans (blockTurn_ok hc hd)
  · exact (step_no_moves hm).trans (blockTurn_error hc hd)
  · exact (step_block hm).trans (blockTurn_error (s := s.withMoves ms) hc hd)
  · exact (step_wait_busy hb hm).trans (blockTurn_error hc hd)

/-! ### The start of a command (60_exceptions.md R200) -/

/-- A write of a right form while a command is in flight: the refusal names that duty (60_exceptions.md R207). -/
theorem hostOp_writeWhileBusy (hf : op.wf s.params = true) (hw : HostOp.writes op = true) (hb : s.busy = true) :
    hostOp op s = .refused .writeWhileBusy := by
  simp [hostOp, hf, hw, hb]

/-- Settles O5: CMD is the register at offset 0, and its write starts the command. -/
theorem cmdWriteStartsTheCommand : Obligations.CmdWriteStartsTheCommand := by
  unfold Obligations.CmdWriteStartsTheCommand
  refine fun s w ms hm => ⟨fun hb => ?_, fun hb => ?_⟩
  · exact step_idle_write (r := .cmd) hb hm
  · rw [step_hostOp hm nofun]
    exact hostOp_writeWhileBusy (registerAccessWf_iff.mpr ⟨rfl, rfl⟩) rfl hb

/-! ### The host's duties (60_exceptions.md R207) -/

theorem registerAccessWf_eq_false {off : BitVec 8} {bits : Nat} :
    registerAccessWf off bits = false ↔ bits ≠ 32 ∨ off.toNat % 4 ≠ 0 := by
  rw [← Bool.not_eq_true, registerAccessWf_iff, not_and_or]

theorem indexWf_eq_false {p : Params} {sp : Space} {i : Nat} : indexWf p sp i = false ↔ p.cells sp ≤ i := by
  simp [indexWf]

/-- A duty is broken by the form of the operation or by a write in flight: the two checks `hostOp` makes. -/
theorem breaksHostDuty_iff :
    breaksHostDuty s op ↔ op.wf s.params = false ∨ (HostOp.writes op = true ∧ s.busy = true) := by
  cases op with
  | wr | rd => simp [breaksHostDuty, HostOp.wf, HostOp.writes, registerAccessWf_eq_false, or_assoc]
  | wbCh | rbCh | wbPm | rbPm | wbit | rbit =>
    simp [breaksHostDuty, HostOp.wf, HostOp.writes, indexWf_eq_false, Params.cells, Params.bitmemBits]
  | wait => simp [breaksHostDuty, HostOp.wf, HostOp.writes]

/-- Whether an operation breaks a duty depends on the memory sizes and BUSY alone. -/
theorem breaksHostDuty_congr (hp : t.params = s.params) (hb : t.busy = s.busy) :
    breaksHostDuty t op ↔ breaksHostDuty s op := by
  rw [breaksHostDuty_iff, breaksHostDuty_iff, hp, hb]

theorem hostOp_withMoves_refused :
    (∃ r, hostOp op (s.withMoves ms) = .refused r) ↔ breaksHostDuty s op :=
  hostOp_refused.trans breaksHostDuty_iff.symm

theorem step_refused_of_breaksHostDuty (hm : s.moves = .host op :: ms) (h : breaksHostDuty s op) :
    ∃ r, step s = .refused r := by
  have hw : op ≠ .wait := by
    rintro rfl
    exact h
  rw [step_hostOp hm hw]
  exact hostOp_withMoves_refused.mpr h

/-- Settles O21: neither the block's turn nor a reset is refused, so a refusal is the host operation's own. -/
theorem stepsAreRefusedExactlyForBrokenHostDuties : Obligations.StepsAreRefusedExactlyForBrokenHostDuties := by
  unfold Obligations.StepsAreRefusedExactlyForBrokenHostDuties
  refine fun s => ⟨?_, fun ⟨op, ms, hm, h⟩ => step_refused_of_breaksHostDuty hm h⟩
  rintro ⟨r, hr⟩
  rcases step_cases s with ⟨-, e⟩ | ⟨ms, -, e⟩ | ⟨ms, -, e⟩ | ⟨op, ms, hm, -, e⟩ <;> rw [e] at hr
  · exact absurd hr (blockTurn_ne_refused s r)
  · exact absurd hr (blockTurn_ne_refused _ r)
  · cases hr
  · exact ⟨op, ms, hm, hostOp_withMoves_refused.mp ⟨r, hr⟩⟩


/-! ### The checks (60_exceptions.md R209)

First `checkCode` read as conditions on the operands, then what a command does where a check ends it, and what it may
answer where none does. -/

/-- Two checks in a row: which one gives the code. -/
theorem two_checks_eq_some {p q : Prop} [Decidable p] [Decidable q] {a b c : Code} :
    (if p then some a else if q then some b else none) = some c ↔ (p ∧ c = a) ∨ (¬p ∧ q ∧ c = b) := by
  by_cases hp : p <;> by_cases hq : q <;> simp [hp, hq, eq_comm]

theorem two_checks_eq_none {p q : Prop} [Decidable p] [Decidable q] {a b : Code} :
    (if p then some a else if q then some b else none) = none ↔ ¬p ∧ ¬q := by
  by_cases hp : p <;> by_cases hq : q <;> simp [hp, hq]

/-- The capacity check of EMBED compares integers; it asks for 32 elements and 8 more per byte. -/
theorem embed_check_iff : (8 * s.plen.toNat : Int) > ((3 * s.width.toNat * s.height.toNat : Nat) : Int) - 32 ↔
    s.streamLen < 8 * s.plen.toNat + 32 := by
  unfold State.streamLen
  omega

theorem checkCode_pack_eq_some {c : Code} :
    checkCode .pack s = some c ↔ s.params.pmemSize < s.plen.toNat ∧ c = .outOfRange := by
  simp [checkCode, eq_comm]

theorem checkCode_pack_eq_none : checkCode .pack s = none ↔ s.plen.toNat ≤ s.params.pmemSize := by
  simp [checkCode]

theorem checkCode_unpack_eq_some {c : Code} :
    checkCode .unpack s = some c ↔ s.params.bitmemBits < s.nbits.toNat ∧ c = .outOfRange := by
  simp [checkCode, Params.bitmemBits, eq_comm]

theorem checkCode_unpack_eq_none : checkCode .unpack s = none ↔ s.nbits.toNat ≤ s.params.bitmemBits := by
  simp [checkCode, Params.bitmemBits]

theorem checkCode_lsbWrite_eq_some {c : Code} : checkCode .lsbWrite s = some c ↔
    (s.params.chmemSize < s.streamLen ∧ c = .badGeometry) ∨
    (s.streamLen ≤ s.params.chmemSize ∧ s.streamLen ≤ s.idx.toNat ∧ c = .outOfRange) :=
  two_checks_eq_some.trans (by rw [Nat.not_lt]; rfl)

theorem checkCode_lsbWrite_eq_none : checkCode .lsbWrite s = none ↔
    s.streamLen ≤ s.params.chmemSize ∧ s.idx.toNat < s.streamLen :=
  two_checks_eq_none.trans (by rw [Nat.not_lt, Nat.not_le]; rfl)

theorem checkCode_hdrEncode_eq_some {c : Code} : checkCode .hdrEncode s = some c ↔
    (s.params.chmemSize < s.streamLen ∧ c = .badGeometry) ∨
    (s.streamLen ≤ s.params.chmemSize ∧ s.streamLen < 32 ∧ c = .outOfRange) :=
  two_checks_eq_some.trans (by rw [Nat.not_lt]; rfl)

theorem checkCode_hdrEncode_eq_none : checkCode .hdrEncode s = none ↔
    s.streamLen ≤ s.params.chmemSize ∧ 32 ≤ s.streamLen :=
  two_checks_eq_none.trans (by rw [Nat.not_lt, Nat.not_lt]; rfl)

theorem checkCode_extract_eq_some {c : Code} : checkCode .extract s = some c ↔
    (s.params.chmemSize < s.streamLen ∧ c = .badGeometry) ∨
    (s.streamLen ≤ s.params.chmemSize ∧ s.streamLen < 32 ∧ c = .noMessage) :=
  two_checks_eq_some.trans (by rw [Nat.not_lt]; rfl)

theorem checkCode_extract_eq_none : checkCode .extract s = none ↔
    s.streamLen ≤ s.params.chmemSize ∧ 32 ≤ s.streamLen :=
  two_checks_eq_none.trans (by rw [Nat.not_lt, Nat.not_lt]; rfl)

theorem checkCode_embed_eq_some {c : Code} : checkCode .embed s = some c ↔
    (s.params.chmemSize < s.streamLen ∧ c = .badGeometry) ∨
    (s.streamLen ≤ s.params.chmemSize ∧ s.streamLen < 8 * s.plen.toNat + 32 ∧ c = .capacityExceeded) :=
  two_checks_eq_some.trans (by rw [Nat.not_lt, embed_check_iff]; rfl)

theorem checkCode_embed_eq_none : checkCode .embed s = none ↔
    s.streamLen ≤ s.params.chmemSize ∧ 8 * s.plen.toNat + 32 ≤ s.streamLen :=
  two_checks_eq_none.trans (by rw [Nat.not_lt, embed_check_iff, Nat.not_lt]; rfl)

/-- What a check that ends the command with `c` leaves, STATUS and CUR aside: NO_MESSAGE clears the results of
HDR_DECODE and EXTRACT (42_length_header.md R155; 43_embed_extract.md R174), an error code changes nothing
(60_exceptions.md R204). -/
def State.afterCheck (s : State) : Instr → Code → State
  | .hdrDecode, .noMessage => s.withHdrval 0#32
  | .extract, .noMessage => (s.withHdrval 0#32).withRlen 0#32
  | _, _ => s

theorem State.afterCheck_of_error (s : State) (i : Instr) {c : Code} (hc : c ≠ .noMessage) : s.afterCheck i c = s := by
  unfold State.afterCheck
  split
  · exact absurd rfl hc
  · exact absurd rfl hc
  · rfl

/-- The first check that fails ends the command (60_exceptions.md R209). -/
theorem exec_of_checkCode {i : Instr} {c : Code} (h : checkCode i s = some c) :
    exec i s = .next ((s.afterCheck i c).finished c) := by
  cases i with
  | capacity | validate => cases h
  | pack =>
    obtain ⟨hlt, rfl⟩ := checkCode_pack_eq_some.mp h
    exact execPack_next.mpr (.inl ⟨hlt, rfl⟩)
  | unpack =>
    obtain ⟨hlt, rfl⟩ := checkCode_unpack_eq_some.mp h
    exact execUnpack_next.mpr (.inl ⟨hlt, rfl⟩)
  | lsbWrite =>
    rcases checkCode_lsbWrite_eq_some.mp h with ⟨hlt, rfl⟩ | ⟨hg, hi, rfl⟩
    · exact execLsbWrite_next.mpr (.inl ⟨hlt, rfl⟩)
    · exact execLsbWrite_next.mpr (.inr (.inl ⟨hg, hi, rfl⟩))
  | lsbRead =>
    rcases checkCode_lsbWrite_eq_some.mp h with ⟨hlt, rfl⟩ | ⟨hg, hi, rfl⟩
    · exact execLsbRead_next.mpr (.inl ⟨hlt, rfl⟩)
    · exact execLsbRead_next.mpr (.inr (.inl ⟨hg, hi, rfl⟩))
  | hdrEncode =>
    rcases checkCode_hdrEncode_eq_some.mp h with ⟨hlt, rfl⟩ | ⟨hg, hL, rfl⟩
    · exact execHdrEncode_next.mpr (.inl ⟨hlt, rfl⟩)
    · exact execHdrEncode_next.mpr (.inr (.inl ⟨hg, hL, rfl⟩))
  | hdrDecode =>
    rcases checkCode_extract_eq_some.mp h with ⟨hlt, rfl⟩ | ⟨hg, hL, rfl⟩
    · exact execHdrDecode_next.mpr (.inl ⟨hlt, rfl⟩)
    · exact execHdrDecode_next.mpr (.inr (.inl ⟨hg, hL, rfl⟩))
  | embed =>
    rcases checkCode_embed_eq_some.mp h with ⟨hlt, rfl⟩ | ⟨hg, hL, rfl⟩
    · exact execEmbed_next.mpr (.inl ⟨hlt, rfl⟩)
    · exact execEmbed_next.mpr (.inr (.inl ⟨hg, hL, rfl⟩))
  | extract =>
    rcases checkCode_extract_eq_some.mp h with ⟨hlt, rfl⟩ | ⟨hg, hL, rfl⟩
    · exact execExtract_next.mpr (.inl ⟨hlt, rfl⟩)
    · exact execExtract_next.mpr (.inr (.inl ⟨hg, hL, rfl⟩))

/-- A fault means that no check ended the command: a check that does answers a next state. -/
theorem checkCode_of_fault {i : Instr} {f : Fault} (h : exec i s = .fault f) : checkCode i s = none := by
  cases hc : checkCode i s with
  | none => rfl
  | some c => exact absurd ((exec_of_checkCode hc).symm.trans h) nofun

/-- The cells that a command reads once its checks have passed hold values (30_encoding.md R74). -/
def State.CellsHold (s : State) : Instr → Prop
  | .capacity | .validate => True
  | .pack => s.pm.holds 0 s.plen.toNat = true
  | .unpack => s.bm.holds 0 (8 * (s.nbits.toNat / 8)) = true
  | .lsbWrite | .lsbRead => s.ch.holds s.idx.toNat 1 = true
  | .hdrEncode | .hdrDecode => s.ch.holds 0 32 = true
  | .embed => s.pm.holds 0 s.plen.toNat = true ∧ s.ch.holds 0 (32 + 8 * s.plen.toNat) = true
  | .extract =>
    s.ch.holds 0 32 = true ∧ (plausible s.header s.streamLen = true → s.ch.holds 32 s.header = true)

/-- `operandsHold` asks for the cells only where no check ends the command. -/
theorem operandsHold_iff (i : Instr) : operandsHold i s = true ↔ (checkCode i s = none → s.CellsHold i) := by
  cases i with
  | capacity | validate => exact ⟨fun _ _ => trivial, fun _ => rfl⟩
  | pack =>
    rw [checkCode_pack_eq_none]
    simp [operandsHold, State.CellsHold, imp_iff_not_or]
  | unpack =>
    rw [checkCode_unpack_eq_none]
    simp [operandsHold, State.CellsHold, imp_iff_not_or]
  | lsbWrite | lsbRead =>
    refine Iff.trans ?_ (imp_congr_left checkCode_lsbWrite_eq_none.symm)
    simp [operandsHold, State.CellsHold, State.geometryOk, imp_iff_not_or, or_assoc]
  | hdrEncode =>
    rw [checkCode_hdrEncode_eq_none]
    simp [operandsHold, State.CellsHold, State.geometryOk, imp_iff_not_or, or_assoc]
  | embed =>
    rw [checkCode_embed_eq_none]
    simp [operandsHold, State.CellsHold, State.geometryOk, imp_iff_not_or, or_assoc]
  | hdrDecode | extract =>
    refine Iff.trans ?_ (imp_congr_left checkCode_extract_eq_none.symm)
    simp [operandsHold, State.CellsHold, State.geometryOk, imp_iff_not_or, or_assoc]

/-! A command that completes past its checks: one lemma per command that reads cells. -/

theorem holds_one_of_cell {α : Type} {m : Memory α} {i : Nat} {x : α} (h : m.cell i = some x) : m.holds i 1 = true := by
  simp [Memory.holds, h]

theorem execPack_passed (hc : checkCode .pack s = none) (h : execPack s = .next t) :
    s.CellsHold .pack ∧ t.code = .ok := by
  have hle := checkCode_pack_eq_none.mp hc
  rcases execPack_next.mp h with ⟨hlt, -⟩ | ⟨-, bytes, hr, _, -, rfl⟩
  · omega
  · exact ⟨holds_of_readRun hr, rfl⟩

theorem execUnpack_passed (hc : checkCode .unpack s = none) (h : execUnpack s = .next t) :
    s.CellsHold .unpack ∧ t.code = .ok := by
  have hle := checkCode_unpack_eq_none.mp hc
  rcases execUnpack_next.mp h with ⟨hlt, -⟩ | ⟨-, bits, hr, _, -, rfl⟩
  · omega
  · exact ⟨holds_of_readRun hr, rfl⟩

theorem execLsbWrite_passed (hc : checkCode .lsbWrite s = none) (h : execLsbWrite s = .next t) :
    s.CellsHold .lsbWrite ∧ t.code = .ok := by
  obtain ⟨hg, hi⟩ := checkCode_lsbWrite_eq_none.mp hc
  rcases execLsbWrite_next.mp h with ⟨hlt, -⟩ | ⟨-, hle, -⟩ | ⟨-, -, b, hb, rfl⟩
  · omega
  · omega
  · exact ⟨holds_one_of_cell hb, rfl⟩

theorem execLsbRead_passed (hc : checkCode .lsbRead s = none) (h : execLsbRead s = .next t) :
    s.CellsHold .lsbRead ∧ t.code = .ok := by
  obtain ⟨hg, hi⟩ := checkCode_lsbWrite_eq_none.mp hc
  rcases execLsbRead_next.mp h with ⟨hlt, -⟩ | ⟨-, hle, -⟩ | ⟨-, -, b, hb, rfl⟩
  · omega
  · omega
  · exact ⟨holds_one_of_cell hb, rfl⟩

theorem holds_of_writeHeader {size n : Nat} {m m' : Memory Byte} (h : writeLsbs size m 0 (hdrBits n) = .ok m') :
    m.holds 0 32 = true := by
  refine (Memory.holds_iff _ _ _).mpr fun i _ hi => ?_
  obtain ⟨b, hb, -⟩ := writeHeader_cell_of_lt h (by omega)
  exact ⟨b, hb⟩

theorem execHdrEncode_passed (hc : checkCode .hdrEncode s = none) (h : execHdrEncode s = .next t) :
    s.CellsHold .hdrEncode ∧ t.code = .ok := by
  obtain ⟨hg, hL⟩ := checkCode_hdrEncode_eq_none.mp hc
  rcases execHdrEncode_next.mp h with ⟨hlt, -⟩ | ⟨-, hlt, -⟩ | ⟨-, -, _, hw, rfl⟩
  · omega
  · omega
  · exact ⟨holds_of_writeHeader hw, rfl⟩

theorem execHdrDecode_passed (hc : checkCode .hdrDecode s = none) (h : execHdrDecode s = .next t) :
    s.CellsHold .hdrDecode ∧ (t.code = .ok ∨ t.code = .noMessage) := by
  obtain ⟨hg, hL⟩ := checkCode_extract_eq_none.mp hc
  rcases execHdrDecode_next.mp h with ⟨hlt, -⟩ | ⟨-, hlt, -⟩ | ⟨-, -, hfull, n, -, c, hcode, rfl⟩
  · omega
  · omega
  · refine ⟨hfull, ?_⟩
    cases hp : plausible n s.streamLen with
    | true => exact .inl (by simp [hcode, hp])
    | false => exact .inr (by simp [hcode, hp])

theorem execEmbed_passed (hc : checkCode .embed s = none) (h : execEmbed s = .next t) :
    s.CellsHold .embed ∧ t.code = .ok := by
  obtain ⟨hg, hL⟩ := checkCode_embed_eq_none.mp hc
  rcases execEmbed_next.mp h with ⟨hlt, -⟩ | ⟨-, hlt, -⟩ | ⟨-, -, payload, hr, ch, hw, ch', hw', rfl⟩
  · omega
  · omega
  · obtain ⟨-, -, -, hcells⟩ := embed_cells hr hw hw'
    refine ⟨⟨holds_of_readRun hr, (Memory.holds_iff _ _ _).mpr fun i _ hi => ?_⟩, rfl⟩
    obtain ⟨b, -, hb, -⟩ := hcells i (by omega)
    exact ⟨b, hb⟩

theorem execExtract_passed (hc : checkCode .extract s = none) (h : execExtract s = .next t) :
    s.CellsHold .extract ∧ (t.code = .ok ∨ t.code = .noMessage) := by
  obtain ⟨hg, hL⟩ := checkCode_extract_eq_none.mp hc
  rcases execExtract_next.mp h with ⟨hlt, -⟩ | ⟨-, hlt, -⟩ | ⟨-, -, hfull, n, rfl, hpl, rfl⟩ |
    ⟨-, -, hfull, n, rfl, -, hpayload, _, -, rfl⟩
  · omega
  · omega
  · exact ⟨⟨hfull, fun hp => absurd (hpl.symm.trans hp) nofun⟩, .inr rfl⟩
  · exact ⟨⟨hfull, fun _ => hpayload⟩, .inl rfl⟩

theorem exec_passed_cells {i : Instr} (hc : checkCode i s = none) (h : exec i s = .next t) : s.CellsHold i := by
  cases i with
  | capacity | validate => trivial
  | pack => exact (execPack_passed hc h).1
  | unpack => exact (execUnpack_passed hc h).1
  | lsbWrite => exact (execLsbWrite_passed hc h).1
  | lsbRead => exact (execLsbRead_passed hc h).1
  | hdrEncode => exact (execHdrEncode_passed hc h).1
  | hdrDecode => exact (execHdrDecode_passed hc h).1
  | embed => exact (execEmbed_passed hc h).1
  | extract => exact (execExtract_passed hc h).1

/-- Past the checks a command ends with OK, or with NO_MESSAGE where it judges a header. -/
theorem exec_passed_code {i : Instr} (hc : checkCode i s = none) (h : exec i s = .next t) :
    t.code = .ok ∨ (t.code = .noMessage ∧ (i = .hdrDecode ∨ i = .extract)) := by
  cases i with
  | capacity | validate =>
    cases h
    exact .inl rfl
  | pack => exact .inl (execPack_passed hc h).2
  | unpack => exact .inl (execUnpack_passed hc h).2
  | lsbWrite => exact .inl (execLsbWrite_passed hc h).2
  | lsbRead => exact .inl (execLsbRead_passed hc h).2
  | hdrEncode => exact .inl (execHdrEncode_passed hc h).2
  | embed => exact .inl (execEmbed_passed hc h).2
  | hdrDecode => exact (execHdrDecode_passed hc h).2.imp_right fun hcode => ⟨hcode, .inl rfl⟩
  | extract => exact (execExtract_passed hc h).2.imp_right fun hcode => ⟨hcode, .inr rfl⟩

/-- Settles O7: a check that fails decides the command (`exec_of_checkCode`), and a command past its checks ends by
`exec_passed_code` or faults. -/
theorem checksComeFirstAndErrorsHaveNoEffect : Obligations.ChecksComeFirstAndErrorsHaveNoEffect := by
  unfold Obligations.ChecksComeFirstAndErrorsHaveNoEffect
  refine ⟨fun i s c h hc => ?_, fun s h => exec_of_checkCode h, fun s h => exec_of_checkCode h,
    fun i s t hc h => exec_passed_code hc h, fun i s f h => checkCode_of_fault h, fun s w e hcur hm hd => ?_⟩
  · rw [exec_of_checkCode h, s.afterCheck_of_error i hc]
    rfl
  · exact (step_no_moves hm).trans (blockTurn_error hcur hd)

/-! ### Completion, and STATUS while the block is idle (60_exceptions.md R201; 10_state.md R25) -/

/-- Every command that completes does so by `finish` (60_exceptions.md R201), by its row of R38. -/
theorem exec_completed (i : Instr) (h : exec i s = .next t) : ∃ u : State, t = u.completed t.code := by
  cases i with
  | capacity => exact ⟨_, (execCapacity_frame h).1⟩
  | pack => exact ⟨_, (execPack_frame h).1⟩
  | unpack => exact ⟨_, (execUnpack_frame h).1⟩
  | validate => exact ⟨_, (execValidate_frame h).1⟩
  | lsbWrite => exact ⟨_, (execLsbWrite_frame h).1⟩
  | lsbRead => exact ⟨_, (execLsbRead_frame h).1⟩
  | hdrEncode => exact ⟨_, (execHdrEncode_frame h).1⟩
  | hdrDecode => exact ⟨_, (execHdrDecode_frame h).1⟩
  | embed => exact ⟨_, (execEmbed_frame h).1⟩
  | extract => exact ⟨_, (execExtract_frame h).1⟩

theorem checkCode_ne_illegalCommand (i : Instr) (s : State) : checkCode i s ≠ some .illegalCommand := by
  intro h
  cases i with
  | capacity | validate => cases h
  | pack => simp [checkCode_pack_eq_some] at h
  | unpack => simp [checkCode_unpack_eq_some] at h
  | lsbWrite | lsbRead => simpa using checkCode_lsbWrite_eq_some.mp h
  | hdrEncode => simp [checkCode_hdrEncode_eq_some] at h
  | embed => simp [checkCode_embed_eq_some] at h
  | hdrDecode | extract => simpa using checkCode_extract_eq_some.mp h

/-- ILLEGAL_COMMAND is no command's code: it is the block's answer to a word that names none (30_encoding.md R75). -/
theorem exec_code_ne_illegalCommand (i : Instr) (h : exec i s = .next t) : t.code ≠ .illegalCommand := by
  intro hcode
  cases hc : checkCode i s with
  | none =>
    rcases exec_passed_code hc h with hok | ⟨hmsg, -⟩
    · exact absurd (hok.symm.trans hcode) nofun
    · exact absurd (hmsg.symm.trans hcode) nofun
  | some c =>
    rw [exec_of_checkCode hc] at h
    cases h
    exact checkCode_ne_illegalCommand i s (hc.trans (congrArg some hcode))

/-- `t` has the CUR and the STATUS of `s`. -/
def State.SameStatus (s t : State) : Prop := t.cur = s.cur ∧ t.busy = s.busy ∧ t.done = s.done ∧ t.code = s.code

theorem State.SameStatus.of_read (h : ∃ v, t = s.saw v ∨ t = (s.saw v).drew) : s.SameStatus t := by
  obtain ⟨v, rfl | rfl⟩ := h <;> exact ⟨rfl, rfl, rfl, rfl⟩

theorem State.writeReg_sameStatus (s : State) (v : Word) {r : Reg} (h : r ≠ .cmd) : s.SameStatus (s.writeReg v r) := by
  cases r with
  | cmd => exact absurd rfl h
  | status | width | height | plen | nbits | idx | bitio | hdrval | maxb | pixcnt | availLo | availHi | rlen | valid =>
    exact ⟨rfl, rfl, rfl, rfl⟩

theorem State.writeOffset_sameStatus (s : State) (v : Word) {off : BitVec 8} (h : off ≠ 0x00#8) :
    s.SameStatus (s.writeOffset off v) := by
  unfold State.writeOffset
  cases hr : regAt off with
  | none => exact ⟨rfl, rfl, rfl, rfl⟩
  | some r =>
    refine s.writeReg_sameStatus v fun hcmd => h ?_
    rw [regAt_eq_some.mp hr, hcmd]
    rfl

/-- Of the host's operations of a right form only the CMD write touches CUR or STATUS. -/
theorem State.hostEffect_sameStatus (hf : op.wf s.params = true) (h : ∀ w, op ≠ .wr 0x00#8 32 w) :
    s.SameStatus (s.hostEffect op) := by
  cases op with
  | wr off bits v =>
    obtain ⟨rfl, -⟩ := registerAccessWf_iff.mp hf
    refine s.writeOffset_sameStatus v ?_
    rintro rfl
    exact h v rfl
  | rd off _ => exact .of_read (s.readOffset_cases off)
  | rbCh i => exact .of_read (s.readByte_cases s.ch i)
  | rbPm k => exact .of_read (s.readByte_cases s.pm k)
  | rbit j => exact .of_read (s.readBit_cases s.bm j)
  | wbCh | wbPm | wbit | wait => exact ⟨rfl, rfl, rfl, rfl⟩

theorem blockTurn_idle (hc : s.cur = none) : blockTurn s = .next s := by
  simp only [blockTurn, hc]

theorem step_idle_sameStatus (hc : s.cur = none) (h : step s = .next t) (hreset : ∀ ms, s.moves ≠ .reset :: ms)
    (hcmd : ∀ w ms, s.moves ≠ .host (.wr 0x00#8 32 w) :: ms) : s.SameStatus t := by
  rcases step_cases s with ⟨-, e⟩ | ⟨ms, -, e⟩ | ⟨ms, hm, -⟩ | ⟨op, ms, hm, -, e⟩
  · cases (e.trans (blockTurn_idle hc)).symm.trans h
    exact ⟨rfl, rfl, rfl, rfl⟩
  · cases (e.trans (blockTurn_idle (s := s.withMoves ms) hc)).symm.trans h
    exact ⟨rfl, rfl, rfl, rfl⟩
  · exact absurd hm (hreset ms)
  · obtain ⟨hf, -, rfl⟩ := hostOp_next.mp (e.symm.trans h)
    refine State.hostEffect_sameStatus (s := s.withMoves ms) hf ?_
    rintro w rfl
    exact hcmd w ms hm

/-- Settles O6: the completion of every command, and the idle step that is neither a reset nor a CMD write. -/
theorem completionSetsStatusAndStatusHolds : Obligations.CompletionSetsStatusAndStatusHolds := by
  unfold Obligations.CompletionSetsStatusAndStatusHolds
  refine ⟨fun i s t h => ?_, fun s t hc hb h hreset hcmd => ?_⟩
  · have hcode := exec_code_ne_illegalCommand i h
    obtain ⟨u, hu⟩ := exec_completed i h
    exact ⟨congrArg State.cur hu, congrArg State.busy hu, congrArg State.done hu, hcode⟩
  · obtain ⟨hcur, hbusy, hdone, hcode⟩ := step_idle_sameStatus hc h hreset hcmd
    exact ⟨hcur.trans hc, hbusy.trans hb, hdone, hcode⟩

/-! ### The cells a command reads (60_exceptions.md R206; 30_encoding.md R74)

Every fault is UninitRead of an empty cell of a run that the command reads, and those runs lie inside their memories. -/

/-- `f` is UninitRead of an empty cell of the run `[a, a + n)` of memory `sp`. -/
def Memory.UninitIn {α : Type} (m : Memory α) (sp : Space) (a n : Nat) (f : Fault) : Prop :=
  ∃ j, a ≤ j ∧ j < a + n ∧ m.cell j = none ∧ f = .uninitRead sp j

section UninitIn

variable {α : Type} {m : Memory α} {sp : Space} {size a n : Nat} {f : Fault}

theorem Memory.UninitIn.not_holds (h : m.UninitIn sp a n f) : ¬ m.holds a n = true := by
  obtain ⟨j, hle, hlt, hnone, -⟩ := h
  intro hholds
  obtain ⟨x, hx⟩ := (Memory.holds_iff _ _ _).mp hholds j hle hlt
  exact absurd (hx.symm.trans hnone) nofun

/-- An empty cell of a run inside the memory is a cell of the memory (20_memory.md R56). -/
theorem Memory.UninitIn.inside (h : m.UninitIn sp a n f) (hs : a + n ≤ size) :
    ∃ j, j < size ∧ m.cell j = none ∧ f = .uninitRead sp j := by
  obtain ⟨j, -, hlt, hnone, rfl⟩ := h
  exact ⟨j, hlt.trans_le hs, hnone, rfl⟩

/-- The three runs of accesses say in one form where they fault; inside the memory that is at an empty cell. -/
theorem Memory.UninitIn.of_error (hs : a + n ≤ size)
    (h : ∃ k, k < n ∧ ((a + k < size ∧ m.cell (a + k) = none ∧ f = .uninitRead sp (a + k)) ∨
      (size ≤ a + k ∧ f = .outsideMemory sp (a + k)))) : m.UninitIn sp a n f := by
  obtain ⟨k, hk, ⟨-, hnone, rfl⟩ | ⟨hout, -⟩⟩ := h
  · exact ⟨a + k, by omega, by omega, hnone, rfl⟩
  · omega

end UninitIn

section Faults

variable {f : Fault}

/-- The bits of a payload inside payload memory fit bit memory, so only the reads of PACK can fault. -/
theorem execPack_fault_uninit (h : execPack s = .fault f) :
    s.plen.toNat ≤ s.params.pmemSize ∧ s.pm.UninitIn .pm 0 s.plen.toNat f := by
  obtain ⟨hle, hr | ⟨bytes, hr, hw⟩⟩ := execPack_fault.mp h
  · exact ⟨hle, .of_error (by omega) (readRun_error hr)⟩
  · have hout := writeRun_error hw
    rw [bytesToBits_length, (readRun_ok.mp hr).1, Params.bitmemBits] at hout
    omega

/-- The bytes of whole groups inside bit memory fit payload memory, so only the reads of UNPACK can fault. -/
theorem execUnpack_fault_uninit (h : execUnpack s = .fault f) :
    8 * (s.nbits.toNat / 8) ≤ s.params.bitmemBits ∧ s.bm.UninitIn .bm 0 (8 * (s.nbits.toNat / 8)) f := by
  obtain ⟨hle, hr | ⟨bits, hr, hw⟩⟩ := execUnpack_fault.mp h
  · exact ⟨by omega, .of_error (by omega) (readRun_error hr)⟩
  · have hout := writeRun_error hw
    rw [bitsToBytes_length, (readRun_ok.mp hr).1] at hout
    rw [Params.bitmemBits] at hle
    omega

theorem execLsbWrite_fault_uninit (h : execLsbWrite s = .fault f) :
    s.idx.toNat + 1 ≤ s.params.chmemSize ∧ s.ch.UninitIn .ch s.idx.toNat 1 f := by
  obtain ⟨hg, hi, hnone, rfl⟩ := execLsbWrite_fault.mp h
  exact ⟨by omega, s.idx.toNat, Nat.le_refl _, Nat.lt_succ_self _, hnone, rfl⟩

theorem execLsbRead_fault_uninit (h : execLsbRead s = .fault f) :
    s.idx.toNat + 1 ≤ s.params.chmemSize ∧ s.ch.UninitIn .ch s.idx.toNat 1 f := by
  obtain ⟨hg, hi, hnone, rfl⟩ := execLsbRead_fault.mp h
  exact ⟨by omega, s.idx.toNat, Nat.le_refl _, Nat.lt_succ_self _, hnone, rfl⟩

theorem writeHeader_error_uninit {size n : Nat} {m : Memory Byte} (hs : 32 ≤ size)
    (h : writeLsbs size m 0 (hdrBits n) = .error f) : m.UninitIn .ch 0 32 f := by
  have herror := writeLsbs_error h
  rw [hdrBits_length] at herror
  exact .of_error (by omega) herror

theorem execHdrEncode_fault_uninit (h : execHdrEncode s = .fault f) :
    32 ≤ s.params.chmemSize ∧ s.ch.UninitIn .ch 0 32 f := by
  obtain ⟨hg, hL, hw⟩ := execHdrEncode_fault.mp h
  exact ⟨hL.trans hg, writeHeader_error_uninit (hL.trans hg) hw⟩

theorem execHdrDecode_fault_uninit (h : execHdrDecode s = .fault f) :
    32 ≤ s.params.chmemSize ∧ s.ch.UninitIn .ch 0 32 f := by
  obtain ⟨hg, hL, hr⟩ := execHdrDecode_fault.mp h
  exact ⟨hL.trans hg, .of_error (by omega) (readLsbs_error hr)⟩

/-- The payload's write faults at a cell past the header, which the header's write left as it was. -/
theorem writePayload_error_uninit {size n : Nat} {m m' : Memory Byte} {B : List Bit}
    (hw : writeLsbs size m 0 (hdrBits n) = .ok m') (hs : 32 + B.length ≤ size)
    (h : writeLsbs size m' 32 B = .error f) : m.UninitIn .ch 0 (32 + B.length) f := by
  obtain ⟨j, hle, hlt, hnone, rfl⟩ := Memory.UninitIn.of_error hs (writeLsbs_error h)
  rw [writeHeader_cell_of_le hw hle] at hnone
  exact ⟨j, Nat.zero_le _, by omega, hnone, rfl⟩

/-- EMBED faults at an empty byte of the payload or at an empty element of the carrier. -/
theorem execEmbed_fault_uninit (hp : s.params.ok = true) (h : execEmbed s = .fault f) :
    s.plen.toNat ≤ s.params.pmemSize ∧ 32 + 8 * s.plen.toNat ≤ s.params.chmemSize ∧
      (s.pm.UninitIn .pm 0 s.plen.toNat f ∨ s.ch.UninitIn .ch 0 (32 + 8 * s.plen.toNat) f) := by
  obtain ⟨hg, hL, hfault⟩ := execEmbed_fault.mp h
  have hpm := payload_le_pmemSize hp hg hL
  refine ⟨hpm, by omega, ?_⟩
  rcases hfault with hr | ⟨payload, hr, hw | ⟨ch, hw, hw'⟩⟩
  · exact .inl (.of_error (by omega) (readRun_error hr))
  · obtain ⟨j, hle, hlt, hj⟩ := writeHeader_error_uninit (by omega) hw
    exact .inr ⟨j, hle, by omega, hj⟩
  · have huninit := writePayload_error_uninit hw ((payloadBits_le hL hr).trans hg) hw'
    rw [payloadBits_length hr] at huninit
    exact .inr huninit

/-- EXTRACT faults at an empty element of the header or of the payload that a plausible header announces. -/
theorem execExtract_fault_uninit (hp : s.params.ok = true) (h : execExtract s = .fault f) :
    (32 ≤ s.params.chmemSize ∧ s.ch.UninitIn .ch 0 32 f) ∨
      (plausible s.header s.streamLen = true ∧ 32 + s.header ≤ s.params.chmemSize ∧
        s.ch.UninitIn .ch 32 s.header f) := by
  obtain ⟨hg, hL, hr | ⟨hfull, n, rfl, hpl, hr | ⟨hpayload, hw⟩⟩⟩ := execExtract_fault.mp h
  · exact .inl ⟨hL.trans hg, .of_error (by omega) (readLsbs_error hr)⟩
  · have hs := (plausible_le hpl).trans hg
    exact .inr ⟨hpl, hs, .of_error hs (readLsbs_error hr)⟩
  · obtain ⟨pm, hw', -⟩ := execExtract_of_plausible hp hg hfull rfl hpl hpayload
    exact absurd (hw.symm.trans hw') nofun

/-- `f` is UninitRead of a cell inside its memory that holds no value (60_exceptions.md R206; 20_memory.md R56). -/
def State.UninitFault (s : State) (f : Fault) : Prop :=
  (∃ j, j < s.params.chmemSize ∧ s.ch.cell j = none ∧ f = .uninitRead .ch j) ∨
  (∃ j, j < s.params.pmemSize ∧ s.pm.cell j = none ∧ f = .uninitRead .pm j) ∨
  (∃ j, j < s.params.bitmemBits ∧ s.bm.cell j = none ∧ f = .uninitRead .bm j)

theorem State.UninitFault.ch {a n : Nat} (hs : a + n ≤ s.params.chmemSize) (h : s.ch.UninitIn .ch a n f) :
    s.UninitFault f := .inl (h.inside hs)

theorem State.UninitFault.pm {a n : Nat} (hs : a + n ≤ s.params.pmemSize) (h : s.pm.UninitIn .pm a n f) :
    s.UninitFault f := .inr (.inl (h.inside hs))

theorem State.UninitFault.bm {a n : Nat} (hs : a + n ≤ s.params.bitmemBits) (h : s.bm.UninitIn .bm a n f) :
    s.UninitFault f := .inr (.inr (h.inside hs))

theorem State.UninitFault.eq_uninitRead (h : s.UninitFault f) : ∃ sp j, f = .uninitRead sp j := by
  rcases h with ⟨j, -, -, rfl⟩ | ⟨j, -, -, rfl⟩ | ⟨j, -, -, rfl⟩ <;> exact ⟨_, j, rfl⟩

/-- A command faults on a cell it reads, and that cell is empty. -/
theorem exec_fault_uninit {i : Instr} (hp : s.params.ok = true) (h : exec i s = .fault f) :
    s.UninitFault f ∧ ¬ s.CellsHold i := by
  cases i with
  | capacity | validate => cases h
  | pack =>
    obtain ⟨hs, huninit⟩ := execPack_fault_uninit h
    exact ⟨.pm (by omega) huninit, huninit.not_holds⟩
  | unpack =>
    obtain ⟨hs, huninit⟩ := execUnpack_fault_uninit h
    exact ⟨.bm (by omega) huninit, huninit.not_holds⟩
  | lsbWrite =>
    obtain ⟨hs, huninit⟩ := execLsbWrite_fault_uninit h
    exact ⟨.ch hs huninit, huninit.not_holds⟩
  | lsbRead =>
    obtain ⟨hs, huninit⟩ := execLsbRead_fault_uninit h
    exact ⟨.ch hs huninit, huninit.not_holds⟩
  | hdrEncode =>
    obtain ⟨hs, huninit⟩ := execHdrEncode_fault_uninit h
    exact ⟨.ch hs huninit, huninit.not_holds⟩
  | hdrDecode =>
    obtain ⟨hs, huninit⟩ := execHdrDecode_fault_uninit h
    exact ⟨.ch hs huninit, huninit.not_holds⟩
  | embed =>
    obtain ⟨hpm, hch, huninit | huninit⟩ := execEmbed_fault_uninit hp h
    · exact ⟨.pm (by omega) huninit, fun ⟨hbytes, _⟩ => huninit.not_holds hbytes⟩
    · exact ⟨.ch (by omega) huninit, fun ⟨_, hcells⟩ => huninit.not_holds hcells⟩
  | extract =>
    rcases execExtract_fault_uninit hp h with ⟨hs, huninit⟩ | ⟨hpl, hs, huninit⟩
    · exact ⟨.ch hs huninit, fun ⟨hheader, _⟩ => huninit.not_holds hheader⟩
    · exact ⟨.ch hs huninit, fun ⟨_, hpayload⟩ => huninit.not_holds (hpayload hpl)⟩

end Faults

/-- A command is never refused (`exec_ne_refused`), so it completes or faults. -/
theorem exec_next_or_fault (i : Instr) (s : State) : (∃ t, exec i s = .next t) ∨ ∃ f, exec i s = .fault f := by
  cases h : exec i s with
  | next t => exact .inl ⟨t, rfl⟩
  | fault f => exact .inr ⟨f, rfl⟩
  | refused q => exact absurd h (exec_ne_refused i s q)

theorem operandsHold_of_next {i : Instr} (h : exec i s = .next t) : operandsHold i s = true :=
  (operandsHold_iff i).mpr fun hc => exec_passed_cells hc h

theorem operandsHold_of_fault {i : Instr} {f : Fault} (hp : s.params.ok = true) (h : exec i s = .fault f) :
    operandsHold i s = false := by
  obtain ⟨-, hempty⟩ := exec_fault_uninit hp h
  exact Bool.eq_false_iff.mpr fun hold => hempty ((operandsHold_iff i).mp hold (checkCode_of_fault h))

/-- Settles O9: a command completes or faults, the one where its operands hold and the other where they do not. -/
theorem commandsFaultExactlyOnUnwrittenOperands : Obligations.CommandsFaultExactlyOnUnwrittenOperands := by
  unfold Obligations.CommandsFaultExactlyOnUnwrittenOperands
  refine fun i s hp => ⟨⟨fun ⟨t, h⟩ => operandsHold_of_next h, fun hold => ?_⟩, fun hempty => ?_,
    fun f h => (exec_fault_uninit hp h).1⟩
  · refine (exec_next_or_fault i s).resolve_right fun ⟨f, h⟩ => ?_
    exact absurd (hold.symm.trans (operandsHold_of_fault hp h)) nofun
  · refine (exec_next_or_fault i s).resolve_left fun ⟨t, h⟩ => ?_
    exact absurd ((operandsHold_of_next h).symm.trans hempty) nofun

/-! ### A command in flight ends (60_exceptions.md R202; 70_reset_and_hazards.md R238)

By induction on the moves: the block's turn ends the flight, a reset does, and so does a broken duty, with a refusal; any
other host operation leaves the command in flight and one move fewer. -/

theorem run_one (s : State) : Host.Core.run Sys2Proof.core 1 s = step s := by
  simp only [Host.Core.run, Sys2Proof.core]
  cases step s <;> rfl

/-- A host operation that is taken while a command is in flight leaves it so, and leaves the moves that are to come. -/
theorem State.hostEffect_in_flight (hw : HostOp.writes op = false) :
    (s.hostEffect op).busy = s.busy ∧ (s.hostEffect op).moves = s.moves := by
  have hread {u : State} (h : ∃ v, u = s.saw v ∨ u = (s.saw v).drew) : u.busy = s.busy ∧ u.moves = s.moves := by
    obtain ⟨v, rfl | rfl⟩ := h <;> exact ⟨rfl, rfl⟩
  cases op with
  | wr | wbCh | wbPm | wbit => cases hw
  | rd off _ => exact hread (s.readOffset_cases off)
  | rbCh i => exact hread (s.readByte_cases s.ch i)
  | rbPm k => exact hread (s.readByte_cases s.pm k)
  | rbit j => exact hread (s.readBit_cases s.bm j)
  | wait => exact ⟨rfl, rfl⟩

/-- A host operation that breaks no duty is taken. -/
theorem hostOp_of_not_breaksHostDuty (h : ¬ breaksHostDuty s op) :
    hostOp op s = .next (s.hostEffect op) ∧ (s.busy = true → HostOp.writes op = false) := by
  rw [breaksHostDuty_iff, not_or, not_and, Bool.not_eq_false, Bool.not_eq_true] at h
  obtain ⟨hf, hw⟩ := h
  refine ⟨hostOp_next.mpr ⟨hf, hw, rfl⟩, fun hb => ?_⟩
  cases hop : HostOp.writes op with
  | false => rfl
  | true => exact absurd (hb.symm.trans (hw hop)) nofun

/-- After `k` steps no command is in flight, or the run has faulted on an empty cell. -/
def State.FlightOver (s : State) (k : Nat) : Prop :=
  (∃ t : State, Host.Core.run Sys2Proof.core k s = .next t ∧ t.busy = false) ∨
    ∃ sp i, Host.Core.run Sys2Proof.core k s = .fault (Fault.uninitRead sp i)

/-- After `k` steps the run has been refused, for one of the moves `ms` that breaks a duty. -/
def State.FlightRefused (s : State) (ms : List Move) (k : Nat) : Prop :=
  ∃ (r : Refusal) (op : HostOp), Host.Core.run Sys2Proof.core k s = .refused r ∧ .host op ∈ ms ∧ breaksHostDuty s op

/-- The block's turn with a command in flight is the whole command (60_exceptions.md R202). -/
theorem flightOver_of_blockTurn (hs : t.Inv) (hb : t.busy = true) (h : step s = blockTurn t) : s.FlightOver 1 := by
  unfold State.FlightOver
  rw [run_one, h]
  obtain ⟨hp, -, ⟨hcur, -, -⟩, -⟩ := hs
  rcases blockTurn_cases t with ⟨hidle, -⟩ | ⟨w, i, -, -, e⟩ | ⟨w, e', -, -, e⟩
  · rw [hb, hidle] at hcur
    cases hcur
  · rw [e]
    rcases exec_next_or_fault i t with ⟨u, hu⟩ | ⟨f, hf⟩
    · obtain ⟨-, -, hbusy⟩ := exec_next_host i hu
      exact .inl ⟨u, hu, hbusy⟩
    · obtain ⟨sp, j, rfl⟩ := (exec_fault_uninit hp hf).1.eq_uninitRead
      exact .inr ⟨sp, j, hf⟩
  · exact .inl ⟨_, e, rfl⟩

/-- A step taken with one move fewer: what the run from `t` comes to is what the run from `s` comes to. -/
theorem flight_of_step {m : Move} {k : Nat} (h : step s = .next t) (hp : t.params = s.params) (hb : t.busy = s.busy) :
    t.FlightOver k ∨ t.FlightRefused ms k → s.FlightOver (k + 1) ∨ s.FlightRefused (m :: ms) (k + 1) := by
  unfold State.FlightOver State.FlightRefused
  rw [run_succ_of_step k h]
  refine Or.imp_right fun ⟨r, op, hr, hop, hduty⟩ => ?_
  exact ⟨r, op, hr, List.mem_cons_of_mem m hop, (breaksHostDuty_congr hp hb).mp hduty⟩

theorem flight_ends (hs : s.Inv) (hb : s.busy = true) (hm : s.moves = ms) :
    ∃ k, k ≤ ms.length + 1 ∧ (s.FlightOver k ∨ s.FlightRefused ms k) := by
  induction ms generalizing s with
  | nil => exact ⟨1, Nat.le_refl _, .inl (flightOver_of_blockTurn hs hb (step_no_moves hm))⟩
  | cons m ms ih =>
    have hone : 1 ≤ (m :: ms).length + 1 := Nat.succ_le_succ (Nat.zero_le _)
    cases m with
    | block => exact ⟨1, hone, .inl (flightOver_of_blockTurn (hs.withMoves ms) hb (step_block hm))⟩
    | reset => exact ⟨1, hone, .inl (.inl ⟨_, (run_one s).trans (step_reset hm), rfl⟩)⟩
    | host op =>
      by_cases hw : op = .wait
      · subst hw
        exact ⟨1, hone, .inl (flightOver_of_blockTurn hs hb (step_wait_busy hb hm))⟩
      by_cases hduty : breaksHostDuty s op
      · obtain ⟨r, hr⟩ := step_refused_of_breaksHostDuty hm hduty
        exact ⟨1, hone, .inr ⟨r, op, (run_one s).trans hr, List.mem_cons_self, hduty⟩⟩
      · obtain ⟨htaken, hread⟩ := hostOp_of_not_breaksHostDuty (s := s.withMoves ms)
          (mt (breaksHostDuty_congr (s.withMoves_params ms) (s.withMoves_busy ms)).mp hduty)
        have hstep := (step_hostOp hm hw).trans htaken
        obtain ⟨hbusy, hmoves⟩ := State.hostEffect_in_flight (s := s.withMoves ms) (hread hb)
        obtain ⟨k, hk, hends⟩ := ih (step_inv hs hstep) (hbusy.trans hb) hmoves
        exact ⟨k + 1, Nat.succ_le_succ hk, flight_of_step hstep (step_params hstep) hbusy hends⟩

/-- Settles O12: `flight_ends`; where no move breaks a duty, the refusal is ruled out. -/
theorem commandInFlightEndsWithinTheMovesLeft : Obligations.CommandInFlightEndsWithinTheMovesLeft := by
  unfold Obligations.CommandInFlightEndsWithinTheMovesLeft
  intro s hs hb
  obtain ⟨k, hk, hends⟩ := flight_ends hs hb rfl
  refine ⟨⟨k, hk, or_assoc.mp hends⟩, fun hduties => ⟨k, hk, hends.resolve_right ?_⟩⟩
  rintro ⟨r, op, -, hop, hduty⟩
  exact hduties op hop hduty

end Sys2Proof.Machine
end

section
/-! PROOFS. The family of 70_reset_and_hazards.md: host reads while a command is in flight (O22) and the reset
input (O15). -/

namespace Sys2Proof.Machine

variable {s : State} {ms : List Move}

/-! ### Host reads while a command is in flight (70_reset_and_hazards.md R236) -/

/-- Below the reserved offsets every multiple of 4 is a register's offset (10_state.md R23). -/
theorem exists_regOffset {off : BitVec 8} (hoff : off.toNat % 4 = 0) (hlt : off.toNat < 0x3C) :
    ∃ r, off = regOffset r := by
  have hlist : ∀ k : Fin regList.length, (regOffset (regList.get k)).toNat = 4 * k := by decide
  have hk : off.toNat / 4 < regList.length := Nat.div_lt_of_lt_mul hlt
  refine ⟨regList.get ⟨off.toNat / 4, hk⟩, BitVec.eq_of_toNat_eq ?_⟩
  rw [hlist, Nat.mul_div_cancel' (Nat.dvd_of_mod_eq_zero hoff)]

theorem State.readOffset_in_flight (hb : s.busy = true) (r : Reg) :
    s.readOffset (regOffset r) = s.readRegBusy r := by
  simp [State.readOffset, hb]

theorem State.readRegBusy_free (s : State) {r : Reg} (hcmd : r ≠ .cmd) (hstatus : r ≠ .status) :
    s.readRegBusy r = (s.saw (.word (Config.freeWord s.draws))).drew := by
  cases r with
  | cmd => exact absurd rfl hcmd
  | status => exact absurd rfl hstatus
  | width | height | plen | nbits | idx | bitio | hdrval | maxb | pixcnt | availLo | availHi | rlen | valid => rfl

theorem step_in_flight_read {r : Reg} (hb : s.busy = true) (hm : s.moves = .host (.rd (regOffset r) 32) :: ms) :
    step s = .next ((s.withMoves ms).readRegBusy r) := by
  rw [step_read (regOffset_mod_four r) hm, State.readOffset_in_flight (s := s.withMoves ms) hb]

/-- In flight a byte cell is a free draw, whether it holds a value or not (log 7). -/
theorem State.readByte_in_flight (hb : s.busy = true) (m : Memory Byte) (i : Nat) :
    s.readByte m i = (s.saw (.byte (Config.freeByte s.draws))).drew := by
  simp only [State.readByte, hb]

/-- In flight a bit cell is a free draw, whether it holds a value or not (log 7). -/
theorem State.readBit_in_flight (hb : s.busy = true) (m : Memory Bit) (j : Nat) :
    s.readBit m j = (s.saw (.bit (Config.freeBit s.draws))).drew := by
  simp only [State.readBit, hb]

/-- Settles O22: CMD, a reserved offset, a register past STATUS, then a cell of each memory. -/
theorem readsInFlightAreZeroOrFreeDraws : Obligations.ReadsInFlightAreZeroOrFreeDraws := by
  unfold Obligations.ReadsInFlightAreZeroOrFreeDraws
  intro s ms hb
  refine ⟨fun off hm => ⟨?_, fun hoff hlo hhi => ?_⟩, fun i hi hm => ?_, fun k hk hm => ?_, fun j hj hm => ?_⟩
  · rintro (rfl | ⟨hoff, hres⟩)
    · exact step_in_flight_read (r := .cmd) hb hm
    · exact (step_read hoff hm).trans (congrArg _ (State.readOffset_reserved _ hres))
  · obtain ⟨r, rfl⟩ := exists_regOffset hoff (Nat.lt_of_le_of_lt hhi (by decide))
    have hcmd : r ≠ .cmd := by rintro rfl; exact absurd hlo (by decide)
    have hstatus : r ≠ .status := by rintro rfl; exact absurd hlo (by decide)
    exact (step_in_flight_read hb hm).trans (congrArg _ (State.readRegBusy_free _ hcmd hstatus))
  · exact (step_host hm nofun (indexWf_ch.mpr hi) nofun).trans
      (congrArg _ (State.readByte_in_flight (s := s.withMoves ms) hb _ _))
  · exact (step_host hm nofun (indexWf_pm.mpr hk) nofun).trans
      (congrArg _ (State.readByte_in_flight (s := s.withMoves ms) hb _ _))
  · exact (step_host hm nofun (indexWf_bm.mpr hj) nofun).trans
      (congrArg _ (State.readBit_in_flight (s := s.withMoves ms) hb _ _))

/-! ### The reset input (70_reset_and_hazards.md R230, R232) -/

/-- Settles O15: the reset input is one step to `State.afterReset`, whatever is in flight. -/
theorem resetInputAbandonsTheCommand : Obligations.ResetInputAbandonsTheCommand := by
  unfold Obligations.ResetInputAbandonsTheCommand
  intro s ms hm
  exact ⟨(s.withMoves ms).afterReset, step_reset hm, rfl, rfl, rfl, rfl, State.afterReset_regWord _,
    Memory.cell_nil, Memory.cell_nil, Memory.cell_nil, rfl, rfl, rfl, rfl⟩

end Sys2Proof.Machine
end
